-- ==== Sys2Proof/Word.lean ====
section
/-! DEFINITION. The bit vectors the RC5 engine handles: bytes, 32-bit registers and 64-bit storage entries
(spec/00_scope.md R10, R11). Words of the cipher itself are `BitVec w` for the width `w` in use. -/

namespace Sys2Proof

/-- One byte of a buffer (10_state.md R36 to R39). -/
abbrev Byte := BitVec 8

/-- A host-visible register (10_state.md R21: every register is 32 bits wide). -/
abbrev Reg := BitVec 32

/-- One entry of `S` or `L`, and the working registers `A` and `B` (00_scope.md R10: 64 bits, the low `w`
significant). -/
abbrev Long := BitVec 64

end Sys2Proof
end

