-- ==== Sys2Proof/Syntax.lean ====
section
/-! DEFINITION. The commands of the engine, one constructor for each row of spec/opcode_table.json
(30_encoding.md R80 to R88), and the host transfers a host program is written in (20_memory.md R50,
30_encoding.md R90). No command carries an operand but DECS, whose `MORE` bit is one (R81, R88). -/

namespace Sys2Proof

/-- The commands (30_encoding.md R80, R82). -/
inductive Instr where
  /-- Complete at once (R108). -/
  | nop
  /-- Key set-up: validate, align, expand, mix (R150). -/
  | keysetup
  /-- Encrypt the block in `DIN` into `DOUT` (R165). -/
  | encb
  /-- Decrypt the block in `DIN` into `DOUT` (R170). -/
  | decb
  /-- Encrypt the segment in `MBUF` in place (R184). -/
  | encs
  /-- Decrypt the segment in `MBUF` in place (R187); `more` is the `MORE` bit, `DECS.MORE` when true (R83). -/
  | decs (more : Bool)
  deriving DecidableEq, Repr

/-- One transfer of the host port, as the port carries it (20_memory.md R50, 30_encoding.md R90). -/
structure Transfer where
  /-- 1 write, 0 read. -/
  we    : Bool
  /-- Byte address of the transfer's lowest byte. -/
  addr  : BitVec 13
  /-- 0: 1 byte, 1: 2 bytes, 2: 4 bytes, 3: illegal. -/
  size  : BitVec 2
  /-- Write data, the byte at address `a` on lane `a mod 4`. -/
  wdata : Reg
  deriving DecidableEq, Repr

end Sys2Proof
end

