-- ==== Sys2Proof/WellFormed.lean ====
section
/-! DEFINITION. Well-formedness of what a host program is written in. A command has no operand that could be out
of range (30_encoding.md R88: the only field beside `OPC` is one bit), so every `Instr` is well formed; a transfer
is well formed when its size code names a size and its address is naturally aligned (20_memory.md R50, R56). -/

namespace Sys2Proof

/-- Every command is well formed (30_encoding.md R81, R88: no immediate, no register number). -/
def Instr.wellFormed : Instr → Bool
  | .nop => true
  | .keysetup => true
  | .encb => true
  | .decb => true
  | .encs => true
  | .decs _ => true

/-- The size code names a size (20_memory.md R50: 3 is illegal). -/
def Transfer.sizeLegal (t : Transfer) : Bool := t.size != 3#2

/-- Natural alignment for the size named (20_memory.md R56). -/
def Transfer.aligned (t : Transfer) : Bool := t.addr.toNat % 2 ^ t.size.toNat == 0

/-- A transfer that is a bus error neither by its size nor by its alignment; the map of 20_memory.md R52 is the
machine's business (Machine/HostPort.lean). -/
def Transfer.wellFormed (t : Transfer) : Bool := t.sizeLegal && t.aligned

end Sys2Proof
end

