-- ==== Sys2Proof/Decode.lean ====
section
/-! DEFINITION. The decoder of 30_encoding.md R85, total on every 32-bit word, and the encoder written from the
table of R82. A command word is 32 bits, always (R89), written to `CMD` in one little-endian transfer (R81,
20_memory.md R53). -/

namespace Sys2Proof

/-- What a command word decodes to (30_encoding.md R85). -/
inductive Decoded where
  /-- One of the seven words of R82. -/
  | command (i : Instr)
  /-- Rejected by name: `ILLEGAL` (R84, R86); such a word is still accepted and completes with code 6 (R110). -/
  | illegal
  deriving DecidableEq, Repr

/-- Bits `lo + len - 1` down to `lo` of a command word (00_scope.md R11). -/
def wordField (v : Reg) (lo len : Nat) : BitVec len := v.extractLsb' lo len

/-- The decoder (30_encoding.md R85). Reserved bits are checked first (R84). -/
def decodeWord (v : Reg) : Decoded :=
  if wordField v 9 23 ≠ 0 ∨ wordField v 4 4 ≠ 0 then .illegal
  else if wordField v 0 4 = 5 then .command (.decs (v.getLsbD 8))
  else if v.getLsbD 8 then .illegal
  else
    match (wordField v 0 4).toNat with
    | 0 => .command .nop
    | 1 => .command .keysetup
    | 2 => .command .encb
    | 3 => .command .decb
    | 4 => .command .encs
    | _ => .illegal

/-- The command word of an instruction (30_encoding.md R82). -/
def encode : Instr → Reg
  | .nop => 0x00000000
  | .keysetup => 0x00000001
  | .encb => 0x00000002
  | .decb => 0x00000003
  | .encs => 0x00000004
  | .decs false => 0x00000005
  | .decs true => 0x00000105

/-- The four bytes of a word in the order the bus moves them (20_memory.md R53: least significant byte first). -/
def wordBytes (v : Reg) : List Byte :=
  [v.extractLsb' 0 8, v.extractLsb' 8 8, v.extractLsb' 16 8, v.extractLsb' 24 8]

/-- The command at the head of a byte string, with the bytes after it; `none` when fewer than the four bytes of a
command word are there (30_encoding.md R89: the length is always 32 bits). -/
def decodeBytes : List Byte → Option (Decoded × List Byte)
  | b0 :: b1 :: b2 :: b3 :: rest => some (decodeWord (b3 ++ b2 ++ b1 ++ b0), rest)
  | _ => none

/-- The bytes of an instruction as the bus moves them to `CMD`. -/
def encodeBytes (i : Instr) : List Byte := wordBytes (encode i)

/-- The instruction the decoder reads from the table word `w` of `nbits` bits: the word is laid out as four bytes
in bus order and decoded. -/
def decodeTableWord (nbits w : Nat) : Option Instr :=
  match decodeBytes (wordBytes (BitVec.ofNat 32 (w % 2 ^ nbits))) with
  | some (.command i, _) => some i
  | some (.illegal, _) => none
  | none => none

end Sys2Proof
end

