-- ==== Sys2Proof/Config.lean ====
section
/-! DEFINITION. What an implementation of the RC5 engine fixes (00_scope.md R10), and the free values: constants
without a body that stand wherever the spec says "any value" (93_implementation_defined.md I1 to I4). -/

namespace Sys2Proof

/-- `PARTIAL_TAIL_POLICY` (00_scope.md R10, 44_stream.md R185): what DECS does with a trailing partial block.
The spec leaves it OPEN (92_eei_decisions.md D17). -/
inductive TailPolicy where
  /-- The tail is neither transformed nor output. -/
  | drop
  /-- The tail is zero-padded to a block, decrypted and output. -/
  | pad
  deriving DecidableEq, Repr, Inhabited

/-- The build-time parameters of the hardware (00_scope.md R10). `MBUF_BYTES` is held in units of 16 bytes, so
that every value of this type is a legal size. -/
structure BuildParams where
  mbufUnits  : Fin 256
  tailPolicy : TailPolicy
  deriving DecidableEq, Repr

/-- `MBUF_BYTES`: a multiple of 16 from 16 to 4096 (00_scope.md R10). -/
def BuildParams.mbufBytes (p : BuildParams) : Nat := 16 * (p.mbufUnits.val + 1)

/-- The OPEN parameter of the machine that leaves reset: no value of it can be proved (log entry 3). -/
opaque Config.tailPolicy : TailPolicy

/-- The build of the machine that leaves reset: the default `MBUF_BYTES` = 4096 (00_scope.md R10) and the OPEN
tail policy. Statements range over every build, since State holds it (log entry 3). -/
def Config.build : BuildParams := { mbufUnits := 255, tailPolicy := Config.tailPolicy }

/-- Who reads a byte: a host transfer or a command of the engine (00_scope.md R18). Their draws are apart. -/
inductive Reader where
  | host | engine
  deriving DecidableEq, Repr

/-- FREE VALUE: the byte that draw number `draw` of a reader gives at address `addr`, for a read of an `MBUF` byte
the spec calls unspecified (93_implementation_defined.md I1, I2, I3; log entry 1). -/
opaque Config.freeByte (reader : Reader) (draw addr : Nat) : Byte

/-- FREE VALUE: what an entry of the schedule RAM `S` holds that nothing has written since reset
(93_implementation_defined.md I4; log entry 2). No run reads one. -/
opaque Config.freeScheduleEntry (index : Nat) : Long

/-- FREE VALUE: what an entry of the aligned-key RAM `L` holds that nothing has written since reset or since the
last KEYSETUP (93_implementation_defined.md I4; log entry 2). No run reads one. -/
opaque Config.freeKeyEntry (index : Nat) : Long

end Sys2Proof
end

