-- ==== Sys2Proof/Machine/State.lean ====
section
/-! DEFINITION. The state of the RC5 engine as plain data: everything spec/10_state.md and spec/20_memory.md give
it, and the model's own fields (`inputs`, `draws`, `answer`, `begun`; log entries 1, 4, 5, 6). Where two names share
storage the storage stands once: `KEYVALID` is `kv`, `EPARAM` is `ew`, `er`, `estrip`, `CAPS` is `build`, and `irq` is
computed from `ie` and `done` (60_exceptions.md R207); Machine/Flags.lean holds these views. -/

namespace Sys2Proof.Machine

/-- The sequencer phase `PH` (10_state.md R45). -/
inductive Phase where
  | idle | setupAlign | setupExpand | setupMix | blockEnc | blockDec | streamEnc | streamDec | finish
  deriving DecidableEq, Repr

/-- The error codes of 60_exceptions.md R200 that the engine can hold in `STATUS.ERR`; codes 8 to 15 are never
produced (93_implementation_defined.md I11). -/
inductive ErrorCode where
  | success | unsupportedWordSize | invalidRoundCount | keyTooLong | invalidBlockLength | noSchedule
  | illegalCommand | invalidStreamLength
  deriving DecidableEq, Repr

/-- What the port answers to a transfer (20_memory.md R50: `ack`, `err`, `rdata`). -/
structure PortAnswer where
  ack   : Bool
  err   : Bool
  rdata : Reg
  deriving DecidableEq, Repr

/-- What happens next around the engine: the host's transfers, the engine's own steps and the reset input, in the
order in which they fall (20_memory.md R68, 40_command_control.md R105, R106, 70_reset_and_hazards.md R230;
log entry 4). -/
inductive Event where
  /-- The host performs one transfer on the port. -/
  | hostTransfer (t : Transfer)
  /-- The engine moves: a command just accepted runs whole (R106), one under way makes its next piece. -/
  | engineRun
  /-- The engine makes one piece of the command under way (R105). -/
  | enginePiece
  /-- One rising edge of `clk` with `rst` = 1 (70_reset_and_hazards.md R230). -/
  | reset
  deriving DecidableEq, Repr

/-- The host-visible buffers `DIN`, `DOUT`, `KEY` and `MBUF` at their host addresses (20_memory.md R52), as cells
of strictly rising address, none of which holds what an unlisted address reads as (`Memory.wf` in Machine/Ops.lean). -/
abbrev Memory := List Host.Cell

/-- The entries of an internal RAM (`S` or `L`) that have been written, by strictly rising index; an index not
listed is unspecified (10_state.md R41, R42). -/
abbrev EntryRam := List (Nat × Long)

/-- The state of the block. -/
structure State where
  /-- Build parameters (00_scope.md R10); no step changes them. -/
  build    : BuildParams
  /-- MODEL: what happens next, first event first (log entry 4). -/
  inputs   : List Event
  /-- MODEL: the number of draws of free values so far (log entry 1). -/
  draws    : Nat
  /-- Port outputs `ack`, `err`, `rdata` of the last transfer (20_memory.md R50; log entry 6). -/
  answer   : PortAnswer
  /-- `CTRL.IE` (10_state.md R25). -/
  ie       : Bool
  /-- `STATUS.BUSY` (R26). -/
  busy     : Bool
  /-- `STATUS.DONE` (R26). -/
  done     : Bool
  /-- `STATUS.LOST` (R26). -/
  lost     : Bool
  /-- `STATUS.ERR` (R26, 60_exceptions.md R200). -/
  err      : ErrorCode
  /-- `WORDBITS` (R28). -/
  wordbits : Reg
  /-- `ROUNDS` (R29). -/
  rounds   : Reg
  /-- `KEYLEN` (R30). -/
  keylen   : Reg
  /-- `STRIP[0]` (R31). -/
  strip    : Bool
  /-- `DLEN` (R32). -/
  dlen     : Reg
  /-- `MLEN` (R33). -/
  mlen     : Reg
  /-- `OUTLEN` (R34). -/
  outlen   : Reg
  /-- `DIN`, `DOUT`, `KEY`, `MBUF` (R36 to R39). -/
  mem      : Memory
  /-- Latched word width `EW` (R40). -/
  ew       : Byte
  /-- Latched round count `ER` (R40). -/
  er       : Byte
  /-- Latched strip flag `ESTRIP` (R40). -/
  estrip   : Bool
  /-- `KV`, mirrored by `STATUS.KEYVALID` (R40, R26). -/
  kv       : Bool
  /-- Schedule RAM `S` (R41). -/
  sram     : EntryRam
  /-- Aligned-key RAM `L` (R42). -/
  lram     : EntryRam
  /-- Working register `A` (R43). -/
  a        : Long
  /-- Working register `B` (R43). -/
  b        : Long
  /-- Schedule cursor `i` (R44). -/
  i        : BitVec 9
  /-- Aligned-key cursor `j` (R44). -/
  j        : BitVec 7
  /-- Step counter `k` (R44). -/
  k        : BitVec 11
  /-- Round counter `rc` (R44). -/
  rc       : BitVec 9
  /-- Block index `blk` (R44). -/
  blk      : BitVec 11
  /-- Sequencer phase `PH` (R45). -/
  ph       : Phase
  /-- MODEL: the first piece of the command under way has been made (log entry 5). -/
  begun    : Bool
  /-- Command register `OPR` (R47). -/
  opr      : Reg
  deriving DecidableEq, Repr

/-- Which condition of 20_memory.md R57 makes a transfer a bus error; where several hold, the first in this order
is named (log entry 8). -/
inductive BusErrorCause where
  /-- `size = 3`. -/
  | illegalSize
  /-- `addr mod n != 0`. -/
  | misaligned
  /-- A byte of the transfer lies in a reserved range. -/
  | reservedAddress
  /-- A transfer of 1 or 2 bytes in the register region. -/
  | registerSize
  deriving DecidableEq, Repr

/-- The only way a step stops with a fault. -/
inductive Fault where
  /-- Raised by a host transfer that 20_memory.md R57 calls a bus error, and by nothing else: the transfer changes no
  state and is answered as `answer` says (R58: `ack` = 1, `err` = 1, `rdata` = 0); the spec has a model record it as
  a fault of the host step (60_exceptions.md R210). Safe: the model stops where the hardware goes on unchanged. -/
  | busError (cause : BusErrorCause) (answer : PortAnswer)
  deriving DecidableEq, Repr

/-- Rejections by name. -/
inductive Refusal where
  /-- Raised by an arm of `exec` for a command that has no meaning yet; no arm does. Safe. -/
  | notModelled (mnemonic : String)
  deriving DecidableEq, Repr

/-- The machine right after reset (10_state.md R48, 70_reset_and_hazards.md R230): no cell of memory listed (`DIN`,
`DOUT`, `KEY` read 0, `MBUF` is unspecified), no entry of `S` or `L` specified, `PH` = IDLE, everything else 0. -/
def State.reset : State where
  build    := Config.build
  inputs   := []
  draws    := 0
  answer   := { ack := false, err := false, rdata := 0 }
  ie       := false
  busy     := false
  done     := false
  lost     := false
  err      := .success
  wordbits := 0
  rounds   := 0
  keylen   := 0
  strip    := false
  dlen     := 0
  mlen     := 0
  outlen   := 0
  mem      := []
  ew       := 0
  er       := 0
  estrip   := false
  kv       := false
  sram     := []
  lram     := []
  a        := 0
  b        := 0
  i        := 0
  j        := 0
  k        := 0
  rc       := 0
  blk      := 0
  ph       := .idle
  begun    := false
  opr      := 0

end Sys2Proof.Machine
end

