-- ==== Sys2Proof/Machine/Ops.lean ====
section
/-! DEFINITION. The named operations over the state: lists of cells (memory and the internal RAMs), bytes of the
host address space, acceptance and completion of a command, and ending a command with an error, which is all the
"taking an exception" this hardware has (60_exceptions.md R205): no vector, no saved pc, and no return (R209). -/

namespace Sys2Proof.Machine

/-! ### Lists of cells -/

/-- What the cell at `x` holds, if it is listed. -/
def cellFind {α : Type} (x : Nat) : List (Nat × α) → Option α
  | [] => none
  | (y, v) :: m => if x = y then some v else cellFind x m

/-- List the cell at `x` with `v`, keeping the addresses rising. -/
def cellSet {α : Type} (x : Nat) (v : α) : List (Nat × α) → List (Nat × α)
  | [] => [(x, v)]
  | (y, u) :: m =>
    if x < y then (x, v) :: (y, u) :: m
    else if x = y then (x, v) :: m
    else (y, u) :: cellSet x v m

/-- Take the cell at `x` off the list. -/
def cellErase {α : Type} (x : Nat) : List (Nat × α) → List (Nat × α)
  | [] => []
  | (y, u) :: m => if x = y then cellErase x m else (y, u) :: cellErase x m

/-- Every listed address lies above `x`. -/
def cellsAbove {α : Type} (x : Nat) (m : List (Nat × α)) : Bool := m.all fun c => decide (x < c.1)

/-- The addresses rise strictly. -/
def cellsRising {α : Type} : List (Nat × α) → Bool
  | [] => true
  | (x, _) :: m => cellsAbove x m && cellsRising m

/-- List `vs` at `x`, `x + 1`, … -/
def cellSetFrom {α : Type} (x : Nat) : List α → List (Nat × α) → List (Nat × α)
  | [], m => m
  | v :: vs, m => cellSetFrom (x + 1) vs (cellSet x v m)

/-! ### Bytes of the host address space (20_memory.md R52) -/

/-- Base of `DIN` (R52). -/
def dinBase : Nat := 0x0040
/-- Base of `DOUT` (R52). -/
def doutBase : Nat := 0x0050
/-- Base of `KEY` (R52). -/
def keyBase : Nat := 0x0100
/-- Base of `MBUF` (R52). -/
def mbufBase : Nat := 0x1000

/-- What an address that is not listed reads as: `DIN`, `DOUT` and `KEY` hold 0 at reset; every byte of `MBUF` is
unspecified until it is written, so it holds no value (10_state.md R39, R48). -/
def unlistedByte (x : Nat) : Option Byte :=
  if (0x0040 ≤ x ∧ x < 0x0060) ∨ (0x0100 ≤ x ∧ x < 0x0200) then some 0 else none

/-- The byte at `x`, if it has a value. -/
def memRead (m : Memory) (x : Nat) : Option Byte :=
  match cellFind x m with
  | some v => some v
  | none => unlistedByte x

/-- Write one byte, keeping the canonical form: a byte equal to what the unlisted address reads as is not listed. -/
def memWrite (m : Memory) (x : Nat) (v : Byte) : Memory :=
  if unlistedByte x = some v then cellErase x m else cellSet x v m

/-- Write consecutive bytes from `x` on (20_memory.md R53: the first byte at the lowest address). -/
def memWriteBytes (m : Memory) (x : Nat) : List Byte → Memory
  | [] => m
  | v :: vs => memWriteBytes (memWrite m x v) (x + 1) vs

/-- The byte at `x` as draw number `draw` of a reader sees it: the byte held, or a free value where none has been
written (93_implementation_defined.md I2; log entry 1). -/
def byteAt (reader : Reader) (m : Memory) (draw x : Nat) : Byte :=
  match memRead m x with
  | some v => v
  | none => Config.freeByte reader draw x

/-- The `n` bytes from `x` on as the engine sees them. -/
def bytesAt (m : Memory) (draw x n : Nat) : List Byte := (List.range n).map fun t => byteAt .engine m draw (x + t)

/-- No cell holds what its address reads as when unlisted. -/
def cellsInformative (m : Memory) : Bool := m.all fun c => decide (unlistedByte c.1 ≠ some c.2)

/-- The canonical form of memory: addresses strictly rising, no entry that says nothing. -/
def Memory.wf (m : Memory) : Bool := cellsRising m && cellsInformative m

/-! ### The command cycle (40_command_control.md R101 to R103) -/

/-- The phase in which an accepted word starts (R101). -/
def firstPhase : Decoded → Phase
  | .illegal => .finish
  | .command .nop => .finish
  | .command .keysetup => .setupAlign
  | .command .encb => .blockEnc
  | .command .decb => .blockDec
  | .command .encs => .streamEnc
  | .command (.decs _) => .streamDec

/-- Acceptance of a command word (R101): `LOST`, `CTRL`, every operand and every counter stay. No piece of the command
has been made (log entry 5). -/
def accept (v : Reg) (s : State) : State :=
  { s with opr := v, busy := true, done := false, err := .success, ph := firstPhase (decodeWord v), begun := false }

/-- Completion with a code (R102). The working registers and counters, unobservable between commands (10_state.md
R43, R44), go back to their reset value 0 (log entry 7). -/
def completeWith (e : ErrorCode) (s : State) : State :=
  { s with
    err := e, done := true, busy := false, ph := .idle
    a := 0, b := 0, i := 0, j := 0, k := 0, rc := 0, blk := 0, begun := false }

/-- `raise Error(code)` (R103, 60_exceptions.md R205): the command ends at once and nothing of it is committed. -/
def raiseError (e : ErrorCode) (s : State) : State := completeWith e s

/-- An accepted command of which no piece has been made: `PH` is its first phase. -/
def atStart (s : State) : Bool := s.ph == firstPhase (decodeWord s.opr) && !s.begun

/-- A reset edge (70_reset_and_hazards.md R230, R231): every piece of state takes the value of 10_state.md R48; a
command under way has no completion; the build and the events still to come are no state of R48, and every byte of
`MBUF` is unspecified anew, so that later reads make new draws. -/
def resetEdge (s : State) : State :=
  { State.reset with build := s.build, inputs := s.inputs, draws := s.draws + 1 }

end Sys2Proof.Machine
end

