-- ==== Sys2Proof/Machine/WordArith.lean ====
section
/-! DEFINITION. The datapath's word operations at width `w` (spec/41_word_arith.md). A word is a `BitVec w`: addition
(R116), subtraction (R117) and exclusive or (R120) are those of `BitVec`, which wrap silently and set no flag
(R127); rotations and byte packing stand here. -/

namespace Sys2Proof.Machine

/-- Left rotation (R118): the amount is reduced modulo the width (R123, R124), a multiple of which leaves the word
as it is. -/
def rotl {w : Nat} (v : BitVec w) (amount : Nat) : BitVec w :=
  let t := amount % w
  if t = 0 then v else BitVec.ofNat w (v.toNat * 2 ^ t % 2 ^ w + v.toNat / 2 ^ (w - t))

/-- Right rotation (R119). -/
def rotr {w : Nat} (v : BitVec w) (amount : Nat) : BitVec w :=
  let t := amount % w
  if t = 0 then v else BitVec.ofNat w (v.toNat / 2 ^ t + v.toNat * 2 ^ (w - t) % 2 ^ w)

/-- The little-endian value of a byte string, byte 0 least significant (R121). -/
def leValue : List Byte → Nat
  | [] => 0
  | x :: xs => x.toNat + 256 * leValue xs

/-- `le_u`: the word of width `w` a byte string stands for (R121). -/
def leWord (w : Nat) (xs : List Byte) : BitVec w := BitVec.ofNat w (leValue xs)

/-- `bytes_le_u`: the `u`-byte little-endian image of a word (R122). -/
def leBytes {w : Nat} (u : Nat) (v : BitVec w) : List Byte :=
  (List.range u).map fun t => BitVec.ofNat 8 (v.toNat / 2 ^ (8 * t))

/-- A word as a 64-bit storage entry, the bits above `w` zero (10_state.md R41 to R43). -/
def toLong {w : Nat} (v : BitVec w) : Long := v.setWidth 64

/-- The low `w` bits of a storage entry (00_scope.md R10). -/
def ofLong (w : Nat) (x : Long) : BitVec w := x.setWidth w

end Sys2Proof.Machine
end

