-- ==== Sys2Proof/Machine/Operands.lean ====
section
/-! DEFINITION. Where each command finds its operands (30_encoding.md R88): fixed registers and buffers, read as
unsigned numbers, and the sizes derived from them (00_scope.md R9, R17). -/

namespace Sys2Proof.Machine

/-- `w` of the schedule held: the latched `EW` (41_word_arith.md R115). -/
def wordWidth (s : State) : Nat := s.ew.toNat

/-- `u`, the word width in bytes (00_scope.md R9). -/
def wordLen (w : Nat) : Nat := w / 8

/-- `bs`, the block size in bytes (00_scope.md R9). -/
def blockLen (w : Nat) : Nat := 2 * wordLen w

/-- `T`, the schedule length for `r` rounds (00_scope.md R9). -/
def scheduleLen (r : Nat) : Nat := 2 * (r + 1)

/-- `c`, the aligned-key length in words for `b` key bytes (42_key_schedule.md R136). -/
def alignedLen (w b : Nat) : Nat := max 1 ((b + wordLen w - 1) / wordLen w)

/-- `n`, the number of mixing steps (42_key_schedule.md R139). -/
def mixCount (c t : Nat) : Nat := 3 * max c t

/-- `KEY[t]` (10_state.md R38). -/
def keyByte (s : State) (t : Nat) : Byte := byteAt .engine s.mem s.draws (keyBase + t)

/-- `KEY[0 .. b-1]`, the key bytes of KEYSETUP (10_state.md R38). -/
def keyBytes (s : State) (b : Nat) : List Byte := (List.range b).map (keyByte s)

/-- `DIN[0 .. bs-1]`, the block of ENCB and DECB (10_state.md R36). -/
def dinBlock (s : State) : List Byte := bytesAt s.mem s.draws dinBase (blockLen (wordWidth s))

/-- `m`, the segment length in bytes (10_state.md R33). -/
def segmentLen (s : State) : Nat := s.mlen.toNat

/-- Where block `q` of `MBUF` lies (44_stream.md). -/
def mbufBlockAddr (s : State) (q : Nat) : Nat := mbufBase + q * blockLen (wordWidth s)

/-- Block `q` of the message buffer `m`, as the state's draw sees it. -/
def mbufBlock (s : State) (m : Memory) (q : Nat) : List Byte :=
  bytesAt m s.draws (mbufBlockAddr s q) (blockLen (wordWidth s))

/-- `S[x]` at width `w` (10_state.md R41). -/
def scheduleWord (w : Nat) (ram : EntryRam) (x : Nat) : BitVec w :=
  match cellFind x ram with
  | some v => ofLong w v
  | none => ofLong w (Config.freeScheduleEntry x)

/-- `L[x]` at width `w` (10_state.md R42). -/
def alignedWord (w : Nat) (ram : EntryRam) (x : Nat) : BitVec w :=
  match cellFind x ram with
  | some v => ofLong w v
  | none => ofLong w (Config.freeKeyEntry x)

end Sys2Proof.Machine
end

