-- ==== Sys2Proof/Machine/Flags.lean ====
section
/-! DEFINITION. The status flags and the checks that set them: the views of `STATUS`, `EPARAM`, `CAPS` and `irq`
(10_state.md R24, R26, R35, R46, 60_exceptions.md R207), the codes of `STATUS.ERR` (60_exceptions.md R200), and the
checks of the commands in their order (R203). The datapath has no arithmetic flag (10_state.md R46). -/

namespace Sys2Proof.Machine

/-- The number of an error code in `STATUS.ERR` (60_exceptions.md R200). -/
def errorNumber : ErrorCode → BitVec 4
  | .success => 0
  | .unsupportedWordSize => 1
  | .invalidRoundCount => 2
  | .keyTooLong => 3
  | .invalidBlockLength => 4
  | .noSchedule => 5
  | .illegalCommand => 6
  | .invalidStreamLength => 7

/-- `STATUS` as the host reads it (10_state.md R26); `KEYVALID` mirrors `KV`. -/
def statusWord (s : State) : Reg :=
  0#24 ++ errorNumber s.err ++ BitVec.ofBool s.lost ++ BitVec.ofBool s.kv ++ BitVec.ofBool s.done ++
    BitVec.ofBool s.busy

/-- `CTRL` as the host reads it (10_state.md R25). -/
def ctrlWord (s : State) : Reg := 0#31 ++ BitVec.ofBool s.ie

/-- `STRIP` as the host reads it (10_state.md R31). -/
def stripWord (s : State) : Reg := 0#31 ++ BitVec.ofBool s.strip

/-- `EPARAM` as the host reads it (10_state.md R35). -/
def eparamWord (s : State) : Reg := 0#15 ++ BitVec.ofBool s.estrip ++ s.er ++ s.ew

/-- `CAPS` of a build (10_state.md R24). -/
def capsWord (p : BuildParams) : Reg :=
  0#15 ++ BitVec.ofBool (p.tailPolicy == .pad) ++ BitVec.ofNat 16 p.mbufBytes

/-- `ID` (10_state.md R23). -/
def idWord : Reg := 0x52433501

/-- The interrupt output (60_exceptions.md R207). -/
def irq (s : State) : Bool := s.ie && s.done

/-- The checks of ENCB and DECB (43_block_cipher.md R162), `success` when they pass. -/
def blockCheck (s : State) : ErrorCode :=
  if s.kv = false then .noSchedule
  else if s.dlen.toNat ≠ blockLen (wordWidth s) then .invalidBlockLength
  else .success

/-- The checks of ENCS and DECS (44_stream.md R181). -/
def streamCheck (s : State) : ErrorCode :=
  if s.kv = false then .noSchedule
  else if segmentLen s > s.build.mbufBytes then .invalidStreamLength
  else .success

/-- An ENCS or DECS is in progress (20_memory.md R62). -/
def streamInProgress (s : State) : Bool :=
  s.busy &&
    match decodeWord s.opr with
    | .command .encs => true
    | .command (.decs _) => true
    | _ => false

end Sys2Proof.Machine
end

