-- ==== Sys2Proof/Machine/Control.lean ====
section
/-! DEFINITION. NOP (40_command_control.md R108) and the illegal command word (R110). -/

namespace Sys2Proof.Machine

/-- NOP (R108): complete, nothing else. -/
def execNop (s : State) : Host.Outcome State Fault Refusal := .next (completeWith .success s)

/-- The completion of a word that decodes to `ILLEGAL` (R110). -/
def illegalCompletion (s : State) : State := raiseError .illegalCommand s

end Sys2Proof.Machine
end

