-- ==== Sys2Proof/Machine/KeySchedule.lean ====
section
/-! DEFINITION. The key-schedule expander (spec/42_key_schedule.md): constants, alignment, expansion, mixing as
functions of their arguments, and the KEYSETUP command (R150) that applies them to the state. -/

namespace Sys2Proof.Machine

/-- The constant table (R130): `P` and `Q` for exactly the three supported widths; undefined for any other (R132).
The values are the spec's, from general knowledge (93_implementation_defined.md G1). -/
def constants (w : Nat) : Option (Nat × Nat) :=
  if w = 16 then some (0xB7E1, 0x9E37)
  else if w = 32 then some (0xB7E15163, 0x9E3779B9)
  else if w = 64 then some (0xB7E151628AED2A6B, 0x9E3779B97F4A7C15)
  else none

/-- Word `x` of the aligned key (R134, R135): key bytes past the end count as 0. -/
def alignWord (w : Nat) (key : List Byte) (x : Nat) : BitVec w :=
  leWord w ((List.range (wordLen w)).map fun t => key.getD (x * wordLen w + t) 0)

/-- `align` (R133 to R136). -/
def align (w : Nat) (key : List Byte) : List (BitVec w) :=
  (List.range (alignedLen w key.length)).map (alignWord w key)

/-- Entry `x` of the expanded table (R137): `(P + x*Q) mod 2^w`. -/
def expandWord (w p q x : Nat) : BitVec w := BitVec.ofNat w p + BitVec.ofNat w x * BitVec.ofNat w q

/-- `expand` (R137). -/
def expand (w p q r : Nat) : List (BitVec w) := (List.range (scheduleLen r)).map (expandWord w p q)

/-- Lines 1 and 2 of a mixing step (R140): the new `A` and `B` from `S[i]`, `L[j]`, `A` and `B`; line 2 uses the
`A` line 1 has just written, and its rotation amount is the value `A + B`. -/
def mixWords {w : Nat} (si lj a b : BitVec w) : BitVec w × BitVec w :=
  let a' := rotl (si + a + b) 3
  let b' := rotl (lj + a' + b) (a' + b).toNat
  (a', b')

/-- What the mixing works on (R139): the two tables, the two accumulators, the two cursors. -/
structure Mix (w : Nat) where
  s : List (BitVec w)
  l : List (BitVec w)
  a : BitVec w
  b : BitVec w
  i : Nat
  j : Nat
  deriving DecidableEq, Repr

/-- One mixing step (R140). -/
def mixStep {w : Nat} (m : Mix w) : Mix w :=
  let ab := mixWords (m.s.getD m.i 0) (m.l.getD m.j 0) m.a m.b
  { s := m.s.set m.i ab.1
    l := m.l.set m.j ab.2
    a := ab.1
    b := ab.2
    i := (m.i + 1) % m.s.length
    j := (m.j + 1) % m.l.length }

/-- `n` mixing steps, one after another (R141, R143). -/
def mixSteps {w : Nat} : Nat → Mix w → Mix w
  | 0, m => m
  | n + 1, m => mixSteps n (mixStep m)

/-- `mix` (R139, R141). -/
def mix {w : Nat} (l s : List (BitVec w)) : List (BitVec w) :=
  (mixSteps (mixCount l.length s.length) { s := s, l := l, a := 0, b := 0, i := 0, j := 0 }).s

/-- The schedule function (R144) from the constants of its width. -/
def schedule (w p q r : Nat) (key : List Byte) : List (BitVec w) := mix (align w key) (expand w p q r)

/-- The operands of a KEYSETUP that passes its checks. -/
structure KeyParams where
  w : Nat
  r : Nat
  b : Nat
  p : Nat
  q : Nat
  deriving DecidableEq, Repr

/-- The checks of KEYSETUP in their order (R150, 60_exceptions.md R203): word size, rounds, key length. -/
def keysetupParams (s : State) : Except ErrorCode KeyParams :=
  match constants s.wordbits.toNat with
  | none => .error .unsupportedWordSize
  | some (p, q) =>
    if s.rounds.toNat > 255 then .error .invalidRoundCount
    else if s.keylen.toNat > 255 then .error .keyTooLong
    else .ok { w := s.wordbits.toNat, r := s.rounds.toNat, b := s.keylen.toNat, p := p, q := q }

/-- What a KEYSETUP commits at its completion (R150, 10_state.md R40). `L` is unspecified from then on (10_state.md
R42), so no entry of it stays listed (log entry 2). -/
def commitKeysetup (p : KeyParams) (s : State) : State :=
  completeWith .success
    { s with
      lram := [], ew := BitVec.ofNat 8 p.w, er := BitVec.ofNat 8 p.r, estrip := s.strip, kv := true }

/-- The schedule RAM with a schedule in `S[0 .. T-1]`; entries from `T` on keep what they held (R146). -/
def storeSchedule {w : Nat} (sched : List (BitVec w)) (ram : EntryRam) : EntryRam :=
  cellSetFrom 0 (sched.map toLong) ram

/-- KEYSETUP (R150). -/
def execKeysetup (s : State) : Host.Outcome State Fault Refusal :=
  match keysetupParams s with
  | .error e => .next (raiseError e s)
  | .ok p =>
    .next (commitKeysetup p
      { s with sram := storeSchedule (schedule p.w p.p p.q p.r (keyBytes s p.b)) s.sram })

end Sys2Proof.Machine
end

