-- ==== Sys2Proof/Machine/BlockCipher.lean ====
section
/-! DEFINITION. The block cipher core (spec/43_block_cipher.md): the transform functions `E` and `D` over a schedule
given as `key : Nat → BitVec w`, blocks as bytes, and the commands ENCB (R165) and DECB (R170). -/

namespace Sys2Proof.Machine

/-- Round `k` of encryption (R163); the second line uses the `A` of the first. -/
def encRound {w : Nat} (key : Nat → BitVec w) (k : Nat) (ab : BitVec w × BitVec w) : BitVec w × BitVec w :=
  let a := rotl (ab.1 ^^^ ab.2) ab.2.toNat + key (2 * k)
  let b := rotl (a ^^^ ab.2) a.toNat + key (2 * k + 1)
  (a, b)

/-- Round `k` of decryption (R164); the second line uses the `B` of the first. -/
def decRound {w : Nat} (key : Nat → BitVec w) (k : Nat) (ab : BitVec w × BitVec w) : BitVec w × BitVec w :=
  let b := rotr (ab.2 - key (2 * k + 1)) ab.1.toNat ^^^ ab.1
  let a := rotr (ab.1 - key (2 * k)) b.toNat ^^^ b
  (a, b)

/-- The opening whitening of encryption (R163). -/
def whiten {w : Nat} (key : Nat → BitVec w) (ab : BitVec w × BitVec w) : BitVec w × BitVec w :=
  (ab.1 + key 0, ab.2 + key 1)

/-- The closing un-whitening of decryption (R164). -/
def unwhiten {w : Nat} (key : Nat → BitVec w) (ab : BitVec w × BitVec w) : BitVec w × BitVec w :=
  (ab.1 - key 0, ab.2 - key 1)

/-- Rounds 1 to `r` of encryption, ascending. -/
def encRounds {w : Nat} (key : Nat → BitVec w) : Nat → BitVec w × BitVec w → BitVec w × BitVec w
  | 0, ab => ab
  | r + 1, ab => encRound key (r + 1) (encRounds key r ab)

/-- Rounds `r` to 1 of decryption, descending. -/
def decRounds {w : Nat} (key : Nat → BitVec w) : Nat → BitVec w × BitVec w → BitVec w × BitVec w
  | 0, ab => ab
  | r + 1, ab => decRounds key r (decRound key (r + 1) ab)

/-- The encryption function `E` (R163). -/
def encipher {w : Nat} (key : Nat → BitVec w) (r : Nat) (ab : BitVec w × BitVec w) : BitVec w × BitVec w :=
  encRounds key r (whiten key ab)

/-- The decryption function `D` (R164). -/
def decipher {w : Nat} (key : Nat → BitVec w) (r : Nat) (ab : BitVec w × BitVec w) : BitVec w × BitVec w :=
  unwhiten key (decRounds key r ab)

/-- The halves `A` and `B` of an input block (R160). -/
def blockIn (w : Nat) (xs : List Byte) : BitVec w × BitVec w :=
  (leWord w (xs.take (wordLen w)), leWord w ((xs.drop (wordLen w)).take (wordLen w)))

/-- The bytes of an output block (R161). -/
def blockOut {w : Nat} (ab : BitVec w × BitVec w) : List Byte :=
  leBytes (wordLen w) ab.1 ++ leBytes (wordLen w) ab.2

/-- A block of bytes encrypted with the schedule and parameters held. -/
def encryptBlock (s : State) (xs : List Byte) : List Byte :=
  blockOut (encipher (scheduleWord (wordWidth s) s.sram) s.er.toNat (blockIn (wordWidth s) xs))

/-- A block of bytes decrypted with the schedule and parameters held. -/
def decryptBlock (s : State) (xs : List Byte) : List Byte :=
  blockOut (decipher (scheduleWord (wordWidth s) s.sram) s.er.toNat (blockIn (wordWidth s) xs))

/-- What a block command commits at its completion (R165, R170): `DOUT[0 .. 2u-1]` the result, `DOUT[2u .. 15]` 0. -/
def commitBlock (ys : List Byte) (s : State) : State :=
  completeWith .success { s with mem := memWriteBytes s.mem doutBase (ys ++ List.replicate (16 - ys.length) 0) }

/-- ENCB (R165). -/
def execEncb (s : State) : Host.Outcome State Fault Refusal :=
  match blockCheck s with
  | .success => .next (commitBlock (encryptBlock s (dinBlock s)) s)
  | e => .next (raiseError e s)

/-- DECB (R170). -/
def execDecb (s : State) : Host.Outcome State Fault Refusal :=
  match blockCheck s with
  | .success => .next (commitBlock (decryptBlock s (dinBlock s)) s)
  | e => .next (raiseError e s)

end Sys2Proof.Machine
end

