-- ==== Sys2Proof/Machine/Stream.lean ====
section
/-! DEFINITION. The stream and padding unit (spec/44_stream.md): ENCS (R184) and DECS (R187) transform the segment
`MBUF[0 .. MLEN-1]` in place, block by block, with no chaining (R180). -/

namespace Sys2Proof.Machine

/-- `OL` of ENCS in blocks (R182): one block for an empty segment, else the segment rounded up to whole blocks. -/
def encBlocks (m bs : Nat) : Nat := if m = 0 then 1 else (m + bs - 1) / bs

/-- `nb` of DECS (R185). -/
def decBlocks (policy : TailPolicy) (m bs : Nat) : Nat :=
  if m % bs > 0 ∧ policy = .pad then m / bs + 1 else m / bs

/-- The message buffer with zeros in `MBUF[m .. stop-1]` (R183, R185). -/
def padSegment (mem : Memory) (m stop : Nat) : Memory :=
  memWriteBytes mem (mbufBase + m) (List.replicate (stop - m) 0)

/-- `transform_block(f, q)`: block `q` transformed in place. -/
def transformBlock (s : State) (f : List Byte → List Byte) (mem : Memory) (q : Nat) : Memory :=
  memWriteBytes mem (mbufBlockAddr s q) (f (mbufBlock s mem q))

/-- Blocks 0 to `n - 1` transformed in that order (R180). -/
def transformBlocks (s : State) (f : List Byte → List Byte) : Nat → Memory → Memory
  | 0, mem => mem
  | n + 1, mem => transformBlock s f (transformBlocks s f n mem) n

/-- The number of zero bytes at the end of a block (R186). -/
def trailingZeros (xs : List Byte) : Nat := (xs.reverse.takeWhile (· == 0)).length

/-- Blocks ENCS transforms in this state. -/
def encsBlocks (s : State) : Nat := encBlocks (segmentLen s) (blockLen (wordWidth s))

/-- Blocks DECS transforms in this state. -/
def decsBlocks (s : State) : Nat := decBlocks s.build.tailPolicy (segmentLen s) (blockLen (wordWidth s))

/-- The message buffer ENCS starts from: the last block zero-padded (R183). -/
def encsPadded (s : State) : Memory :=
  padSegment s.mem (segmentLen s) (encsBlocks s * blockLen (wordWidth s))

/-- The message buffer DECS starts from: under `PAD` the tail zero-padded (R185). -/
def decsPadded (s : State) : Memory :=
  padSegment s.mem (segmentLen s) (decsBlocks s * blockLen (wordWidth s))

/-- The output length of DECS (R186): stripped when `ESTRIP` = 1, `MORE` = 0 and there is a block. -/
def decsOutLen (more : Bool) (s : State) (mem : Memory) : Nat :=
  let ol := decsBlocks s * blockLen (wordWidth s)
  if s.estrip = true ∧ more = false ∧ decsBlocks s ≥ 1 then
    ol - trailingZeros (mbufBlock s mem (decsBlocks s - 1))
  else ol

/-- What a stream command commits at its completion: `OUTLEN` (R184, R187). The draw its reads made is used up. -/
def commitStream (ol : Nat) (s : State) : State :=
  completeWith .success { s with outlen := BitVec.ofNat 32 ol, draws := s.draws + 1 }

/-- ENCS (R184). -/
def execEncs (s : State) : Host.Outcome State Fault Refusal :=
  match streamCheck s with
  | .success =>
    let mem := transformBlocks s (encryptBlock s) (encsBlocks s) (encsPadded s)
    .next (commitStream (encsBlocks s * blockLen (wordWidth s)) { s with mem := mem })
  | e => .next (raiseError e s)

/-- DECS and DECS.MORE (R187). -/
def execDecs (more : Bool) (s : State) : Host.Outcome State Fault Refusal :=
  match streamCheck s with
  | .success =>
    let mem := transformBlocks s (decryptBlock s) (decsBlocks s) (decsPadded s)
    .next (commitStream (decsOutLen more s mem) { s with mem := mem })
  | e => .next (raiseError e s)

end Sys2Proof.Machine
end

