-- ==== Sys2Proof/Machine/HostPort.lean ====
section
/-! DEFINITION. The host port (spec/20_memory.md): the map (R52), bus errors (R57, R58), lanes (R50), reads (R60,
R62) and writes (R61, R63, R64). -/

namespace Sys2Proof.Machine

/-- The regions of the map that are not reserved (R52). -/
inductive Region where
  | registers | din | dout | key | mbuf
  deriving DecidableEq, Repr

/-- The host-visible registers (10_state.md R21). -/
inductive RegName where
  | id | caps | ctrl | status | cmd | wordbits | rounds | keylen | strip | dlen | mlen | outlen | eparam
  deriving DecidableEq, Repr

/-- The region of an address, `none` when it is reserved or beyond the space (R52). -/
def regionOf (p : BuildParams) (x : Nat) : Option Region :=
  if x < 0x0034 then some .registers
  else if 0x0040 ≤ x ∧ x < 0x0050 then some .din
  else if 0x0050 ≤ x ∧ x < 0x0060 then some .dout
  else if 0x0100 ≤ x ∧ x < 0x0200 then some .key
  else if 0x1000 ≤ x ∧ x < 0x1000 + p.mbufBytes then some .mbuf
  else none

/-- The register at an offset (10_state.md R21). -/
def regAt (x : Nat) : Option RegName :=
  match x with
  | 0x000 => some .id
  | 0x004 => some .caps
  | 0x008 => some .ctrl
  | 0x00C => some .status
  | 0x010 => some .cmd
  | 0x014 => some .wordbits
  | 0x018 => some .rounds
  | 0x01C => some .keylen
  | 0x020 => some .strip
  | 0x024 => some .dlen
  | 0x028 => some .mlen
  | 0x02C => some .outlen
  | 0x030 => some .eparam
  | _ => none

/-- The number of bytes a size code names (R50). -/
def sizeBytes (size : BitVec 2) : Option Nat :=
  match size.toNat with
  | 0 => some 1
  | 1 => some 2
  | 2 => some 4
  | _ => none

/-- Why a transfer is a bus error, `none` when it is not one (R57). -/
def busErrorCause (p : BuildParams) (t : Transfer) : Option BusErrorCause :=
  match sizeBytes t.size with
  | none => some .illegalSize
  | some n =>
    if t.addr.toNat % n ≠ 0 then some .misaligned
    else if (List.range n).any fun o => (regionOf p (t.addr.toNat + o)).isNone then some .reservedAddress
    else if regionOf p t.addr.toNat = some .registers ∧ n ≠ 4 then some .registerSize
    else none

/-- What the port answers to a bus error (R58). -/
def busErrorAnswer : PortAnswer := { ack := true, err := true, rdata := 0 }

/-- A register as the host reads it (10_state.md R23 to R35); `CMD` reads 0 (R27). -/
def regRead (s : State) : RegName → Reg
  | .id => idWord
  | .caps => capsWord s.build
  | .ctrl => ctrlWord s
  | .status => statusWord s
  | .cmd => 0
  | .wordbits => s.wordbits
  | .rounds => s.rounds
  | .keylen => s.keylen
  | .strip => stripWord s
  | .dlen => s.dlen
  | .mlen => s.mlen
  | .outlen => s.outlen
  | .eparam => eparamWord s

/-- `BufByte` (R60): the byte held, but any value for an `MBUF` byte while an ENCS or DECS is in progress (R62). -/
def bufByte (s : State) (x : Nat) : Byte :=
  if regionOf s.build x = some .mbuf ∧ streamInProgress s = true then Config.freeByte .host s.draws x
  else byteAt .host s.mem s.draws x

/-- `MemRead(addr, n)` (R60). -/
def hostReadValue (s : State) (x n : Nat) : Reg :=
  match regionOf s.build x with
  | some .registers =>
    match regAt x with
    | some r => regRead s r
    | none => 0
  | _ => leWord 32 ((List.range n).map fun t => bufByte s (x + t))

/-- The draws a host read uses up: one for a read of `MBUF`, whose bytes may be unspecified (log entry 1). -/
def readDraws (s : State) (x : Nat) : Nat := if regionOf s.build x = some .mbuf then 1 else 0

/-- A host write to a register (R61), the engine's acceptance of a command included; what R61 never drops is never
dropped, what it ignores is ignored, and the rest is dropped with `LOST <- 1` while `BUSY` = 1 (R63). -/
def regWrite (s : State) (r : RegName) (v : Reg) : State :=
  match r with
  | .status => { s with done := s.done && !v.getLsbD 1, lost := s.lost && !v.getLsbD 3 }
  | .ctrl => { s with ie := v.getLsbD 0 }
  | .id => s
  | .caps => s
  | .outlen => s
  | .eparam => s
  | .cmd => if s.busy then { s with lost := true } else accept v s
  | .wordbits => if s.busy then { s with lost := true } else { s with wordbits := v }
  | .rounds => if s.busy then { s with lost := true } else { s with rounds := v }
  | .keylen => if s.busy then { s with lost := true } else { s with keylen := v }
  | .strip => if s.busy then { s with lost := true } else { s with strip := v.getLsbD 0 }
  | .dlen => if s.busy then { s with lost := true } else { s with dlen := v }
  | .mlen => if s.busy then { s with lost := true } else { s with mlen := v }

/-- `MemWrite(addr, n, v)` (R61). -/
def hostWrite (s : State) (x n : Nat) (v : Reg) : State :=
  match regionOf s.build x with
  | some .registers =>
    match regAt x with
    | some r => regWrite s r v
    | none => s
  | some .dout => s
  | _ =>
    if s.busy then { s with lost := true }
    else { s with mem := memWriteBytes s.mem x (leBytes n v) }

/-- The lane of an address: the byte at address `a` is on lane `a mod 4` (R50). -/
def laneShift (x : Nat) : Nat := 8 * (x % 4)

/-- The value a write transfer carries on its lanes (R50). -/
def writeValue (t : Transfer) : Reg := t.wdata >>> laneShift t.addr.toNat

/-- `rdata` of a read value at an address (R50: same lane placement, 0 on lanes not read). -/
def readData (x : Nat) (v : Reg) : Reg := v <<< laneShift x

/-- A read transfer of `n` bytes that is no bus error: no state changes but the port's answer and the draw count. -/
def hostRead (s : State) (x n : Nat) : State :=
  { s with
    answer := { ack := true, err := false, rdata := readData x (hostReadValue s x n) }
    draws := s.draws + readDraws s x }

/-- A write transfer that is no bus error: acknowledged, no lane read. -/
def hostWriteAnswered (s : State) (x n : Nat) (v : Reg) : State :=
  { hostWrite s x n v with answer := { ack := true, err := false, rdata := 0 } }

/-- One host transfer (R50, R65: atomic). A bus error is a fault of the host step (R58, 60_exceptions.md R210). -/
def hostTransfer (t : Transfer) (s : State) : Host.Outcome State Fault Refusal :=
  match busErrorCause s.build t with
  | some c => .fault (.busError c busErrorAnswer)
  | none =>
    match sizeBytes t.size with
    | none => .fault (.busError .illegalSize busErrorAnswer)
    | some n =>
      if t.we then .next (hostWriteAnswered s t.addr.toNat n (writeValue t))
      else .next (hostRead s t.addr.toNat n)

end Sys2Proof.Machine
end

