-- ==== Sys2Proof/Machine/Sequencer.lean ====
section
/-! DEFINITION. The engine piece by piece (40_command_control.md R105): the phases of KEYSETUP (42_key_schedule.md
R145 to R148), one round of a block at a time (43_block_cipher.md R168), the blocks of a stream one after another
(44_stream.md R180), with the cursors and counters of 10_state.md R43 to R45. Each piece is one step of the reference
implementation counted in 70_reset_and_hazards.md R245. The first piece of a command makes its checks and sets `begun`;
which sub-step a block of a stream is at stands in `k` (log entry 5). -/

namespace Sys2Proof.Machine

/-- The phase SETUP_ALIGN (R145): the checks, then one piece for each index `k` from 0 to `c-1`, which writes `L[k]`
(10_state.md R44). -/
def setupAlignPiece (s : State) : State :=
  match keysetupParams s with
  | .error e => raiseError e s
  | .ok p =>
    if s.begun = false then { s with k := 0, begun := true }
    else
      let x := s.k.toNat
      let lram := cellSet x (toLong (alignWord p.w (keyBytes s p.b) x)) s.lram
      if x + 1 = alignedLen p.w p.b then { s with lram := lram, ph := .setupExpand, k := 0 }
      else { s with lram := lram, k := BitVec.ofNat 11 (x + 1) }

/-- The phase SETUP_EXPAND (R146, R138): one piece for each index `k` from 0 to `T-1`, which writes `S[k]`, from
`S[k-1]` when `k` > 0. -/
def setupExpandPiece (s : State) : State :=
  match keysetupParams s with
  | .error e => raiseError e s
  | .ok p =>
    let x := s.k.toNat
    let v : BitVec p.w :=
      if x = 0 then BitVec.ofNat p.w p.p else scheduleWord p.w s.sram (x - 1) + BitVec.ofNat p.w p.q
    let sram := cellSet x (toLong v) s.sram
    if x + 1 = scheduleLen p.r then
      { s with sram := sram, ph := .setupMix, k := 0, a := 0, b := 0, i := 0, j := 0 }
    else { s with sram := sram, k := BitVec.ofNat 11 (x + 1) }

/-- The phase SETUP_MIX (R147, R140): mixing step `k` from 0 to `n-1`, at the cursors `i` and `j`. -/
def setupMixPiece (s : State) : State :=
  match keysetupParams s with
  | .error e => raiseError e s
  | .ok p =>
    let t := scheduleLen p.r
    let c := alignedLen p.w p.b
    let ab := mixWords (scheduleWord p.w s.sram s.i.toNat) (alignedWord p.w s.lram s.j.toNat)
      (ofLong p.w s.a) (ofLong p.w s.b)
    let s' : State :=
      { s with
        sram := cellSet s.i.toNat (toLong ab.1) s.sram
        lram := cellSet s.j.toNat (toLong ab.2) s.lram
        a := toLong ab.1
        b := toLong ab.2
        i := BitVec.ofNat 9 ((s.i.toNat + 1) % t)
        j := BitVec.ofNat 7 ((s.j.toNat + 1) % c)
        k := BitVec.ofNat 11 (s.k.toNat + 1) }
    if s.k.toNat + 1 = mixCount c t then { s' with ph := .finish, k := 0 } else s'

/-- The halves of a block loaded into `A` and `B`, the round counter set to `rc`. -/
def loadHalves (xs : List Byte) (rc : BitVec 9) (s : State) : State :=
  let ab := blockIn (wordWidth s) xs
  { s with a := toLong ab.1, b := toLong ab.2, rc := rc }

/-- `A` and `B` at the latched width. -/
def halves (s : State) : BitVec (wordWidth s) × BitVec (wordWidth s) :=
  (ofLong (wordWidth s) s.a, ofLong (wordWidth s) s.b)

/-- The whitening (`rc` = 0) or round `rc` of encryption; `rc` counts up (R168). -/
def encRoundPiece (s : State) : State :=
  let key := scheduleWord (wordWidth s) s.sram
  let ab := if s.rc = 0 then whiten key (halves s) else encRound key s.rc.toNat (halves s)
  { s with a := toLong ab.1, b := toLong ab.2, rc := BitVec.ofNat 9 (s.rc.toNat + 1) }

/-- Round `rc` of decryption, `rc` counting down, or the un-whitening (`rc` = 0) (R168). -/
def decRoundPiece (s : State) : State :=
  let key := scheduleWord (wordWidth s) s.sram
  let ab := if s.rc = 0 then unwhiten key (halves s) else decRound key s.rc.toNat (halves s)
  { s with a := toLong ab.1, b := toLong ab.2, rc := BitVec.ofNat 9 (s.rc.toNat - 1) }

/-- The phase BLOCK_ENC (R165, R168): checks and load, then whitening and rounds 1 to `ER`. -/
def blockEncPiece (s : State) : State :=
  if s.begun = false then
    match blockCheck s with
    | .success => { loadHalves (dinBlock s) 0 s with begun := true }
    | e => raiseError e s
  else if s.rc.toNat = s.er.toNat then { encRoundPiece s with ph := .finish }
  else encRoundPiece s

/-- The phase BLOCK_DEC (R170, R168): checks and load, then rounds `ER` to 1 and the un-whitening. -/
def blockDecPiece (s : State) : State :=
  if s.begun = false then
    match blockCheck s with
    | .success => { loadHalves (dinBlock s) (s.er.setWidth 9) s with begun := true }
    | e => raiseError e s
  else if s.rc = 0 then { decRoundPiece s with ph := .finish }
  else decRoundPiece s

/-- After the checks of a stream command: the padded buffer, and the first block unless there is none. -/
def streamBegin (nb : Nat) (mem : Memory) (s : State) : State :=
  if nb = 0 then { s with mem := mem, blk := 0, ph := .finish, begun := true }
  else { s with mem := mem, blk := 0, k := 0, begun := true }

/-- Store the halves as block `blk` and go on to the next block, or to the end after block `nb - 1`. -/
def streamStore (nb : Nat) (s : State) : State :=
  let mem := memWriteBytes s.mem (mbufBlockAddr s s.blk.toNat) (blockOut (halves s))
  let s' : State := { s with mem := mem, blk := BitVec.ofNat 11 (s.blk.toNat + 1), k := 0 }
  if s.blk.toNat + 1 = nb then { s' with ph := .finish } else s'

/-- The phase STREAM_ENC (R184): checks and padding; then for each block `k` = 0 loads it, `k` = 1 makes the
whitening and the rounds, `k` = 2 stores it. -/
def streamEncPiece (s : State) : State :=
  if s.begun = false then
    match streamCheck s with
    | .success => streamBegin (encsBlocks s) (encsPadded s) s
    | e => raiseError e s
  else if s.k = 0 then { loadHalves (mbufBlock s s.mem s.blk.toNat) 0 s with k := 1 }
  else if s.k = 1 then
    if s.rc.toNat = s.er.toNat then { encRoundPiece s with k := 2 } else encRoundPiece s
  else streamStore (encsBlocks s) s

/-- The phase STREAM_DEC (R187), as STREAM_ENC with the rounds of decryption. -/
def streamDecPiece (s : State) : State :=
  if s.begun = false then
    match streamCheck s with
    | .success => streamBegin (decsBlocks s) (decsPadded s) s
    | e => raiseError e s
  else if s.k = 0 then { loadHalves (mbufBlock s s.mem s.blk.toNat) (s.er.setWidth 9) s with k := 1 }
  else if s.k = 1 then
    if s.rc = 0 then { decRoundPiece s with k := 2 } else decRoundPiece s
  else streamStore (decsBlocks s) s

/-- The phase FINISH: the command in `OPR` commits its results and completes (R101, R102). -/
def finishPiece (s : State) : State :=
  match decodeWord s.opr with
  | .illegal => raiseError .illegalCommand s
  | .command .nop => completeWith .success s
  | .command .keysetup =>
    match keysetupParams s with
    | .error e => raiseError e s
    | .ok p => commitKeysetup p s
  | .command .encb => commitBlock (blockOut (halves s)) s
  | .command .decb => commitBlock (blockOut (halves s)) s
  | .command .encs => commitStream (encsBlocks s * blockLen (wordWidth s)) s
  | .command (.decs more) => commitStream (decsOutLen more s s.mem) s

/-- One piece of the command under way (R105); an idle engine has none (R221). -/
def enginePiece (s : State) : State :=
  match s.ph with
  | .idle => s
  | .setupAlign => setupAlignPiece s
  | .setupExpand => setupExpandPiece s
  | .setupMix => setupMixPiece s
  | .blockEnc => blockEncPiece s
  | .blockDec => blockDecPiece s
  | .streamEnc => streamEncPiece s
  | .streamDec => streamDecPiece s
  | .finish => finishPiece s

/-- `n` pieces. -/
def enginePieces : Nat → State → State
  | 0, s => s
  | n + 1, s => enginePieces n (enginePiece s)

/-- The reference count of pieces from acceptance to completion (70_reset_and_hazards.md R245; no rule depends on
it). -/
def referencePieces (i : Instr) (s : State) : Nat :=
  match i with
  | .nop => 1
  | .keysetup =>
    match keysetupParams s with
    | .error _ => 1
    | .ok p =>
      alignedLen p.w p.b + scheduleLen p.r + mixCount (alignedLen p.w p.b) (scheduleLen p.r) + 2
  | .encb => if blockCheck s = .success then s.er.toNat + 3 else 1
  | .decb => if blockCheck s = .success then s.er.toNat + 3 else 1
  | .encs => if streamCheck s = .success then encsBlocks s * (s.er.toNat + 3) + 2 else 1
  | .decs _ => if streamCheck s = .success then decsBlocks s * (s.er.toNat + 3) + 2 else 1

end Sys2Proof.Machine
end

