-- ==== Sys2Proof/Machine/Engine.lean ====
section
/-! DEFINITION. The engine agent (40_command_control.md R105, R106): a command just accepted runs whole, by its
meaning in `exec`; one of which some pieces have been made goes on piece by piece. -/

namespace Sys2Proof.Machine

/-- One move of the engine. Idle, it does nothing (60_exceptions.md R221). At the start of an accepted command it
takes the whole command as one step (R106), an illegal word's completion included (R110); otherwise it makes the
next piece (R105). -/
def engineRun (s : State) : Host.Outcome State Fault Refusal :=
  if s.ph = .idle then .next s
  else if atStart s then
    match decodeWord s.opr with
    | .command i => exec i s
    | .illegal => .next (illegalCompletion s)
  else .next (enginePiece s)

/-- What one event does, once it has been taken off the list of inputs. -/
def eventStep (e : Event) (s : State) : Host.Outcome State Fault Refusal :=
  match e with
  | .hostTransfer t => hostTransfer t s
  | .engineRun => engineRun s
  | .enginePiece => .next (enginePiece s)
  | .reset => .next (resetEdge s)

/-- The event off the list. -/
def dropEvent (s : State) (es : List Event) : State := { s with inputs := es }

/-- An accepted command placed so that the next step runs it: the state after its acceptance (R101), the engine
moving before any event still to come (log entry 4). -/
def placeCommand (v : Reg) (s : State) : State :=
  match s.inputs with
  | [] => accept v s
  | es => dropEvent (accept v s) (.engineRun :: es)

end Sys2Proof.Machine
end

