-- ==== Sys2Proof/Machine/Step.lean ====
section
/-! DEFINITION. One step of the block: the next event of `inputs`, or, when none is pending, a move of the engine
(40_command_control.md R106, R107). -/

namespace Sys2Proof.Machine

/-- One step (20_memory.md R68: one agent moves at a time). -/
def step (s : State) : Host.Outcome State Fault Refusal :=
  match s.inputs with
  | [] => engineRun s
  | e :: es => eventStep e (dropEvent s es)

/-- The state with the command word `w` placed where the next step takes its command: accepted, not yet begun. The
word is laid out in 32 bits, whatever bits `w` has above `nbits` cut off. -/
def State.withFetchWord (s : State) (nbits w : Nat) : State :=
  placeCommand (BitVec.ofNat 32 (w % 2 ^ nbits)) s

end Sys2Proof.Machine
end

