-- ==== Sys2Proof/Machine/HostProgram.lean ====
section
/-! DEFINITION. The notation of host programs (30_encoding.md R90, R91): each line as the transfer it encodes, each
pseudo-instruction as the events it expands to. -/

namespace Sys2Proof.Machine

/-- A value of a 1-, 2- or 4-byte write on the lanes of its address (20_memory.md R50). -/
def onLanes (x : Nat) (v : Reg) : Reg := v <<< laneShift x

/-- `W32 addr, v`. -/
def w32 (x : Nat) (v : Reg) : Transfer := { we := true, addr := BitVec.ofNat 13 x, size := 2, wdata := v }
/-- `W16 addr, v`. -/
def w16 (x : Nat) (v : BitVec 16) : Transfer :=
  { we := true, addr := BitVec.ofNat 13 x, size := 1, wdata := onLanes x (v.setWidth 32) }
/-- `W8 addr, v`. -/
def w8 (x : Nat) (v : Byte) : Transfer :=
  { we := true, addr := BitVec.ofNat 13 x, size := 0, wdata := onLanes x (v.setWidth 32) }
/-- `R32 addr -> x`. -/
def r32 (x : Nat) : Transfer := { we := false, addr := BitVec.ofNat 13 x, size := 2, wdata := 0 }
/-- `R16 addr -> x`. -/
def r16 (x : Nat) : Transfer := { we := false, addr := BitVec.ofNat 13 x, size := 1, wdata := 0 }
/-- `R8 addr -> x`. -/
def r8 (x : Nat) : Transfer := { we := false, addr := BitVec.ofNat 13 x, size := 0, wdata := 0 }

/-- The offset of a register (10_state.md R21). -/
def regOffset : RegName → Nat
  | .id => 0x000
  | .caps => 0x004
  | .ctrl => 0x008
  | .status => 0x00C
  | .cmd => 0x010
  | .wordbits => 0x014
  | .rounds => 0x018
  | .keylen => 0x01C
  | .strip => 0x020
  | .dlen => 0x024
  | .mlen => 0x028
  | .outlen => 0x02C
  | .eparam => 0x030

/-- `NOP`, `KEYSETUP`, `ENCB`, `DECB`, `ENCS`, `DECS`, `DECS.MORE`: a 4-byte write of the command word to `CMD`
(R91). -/
def commandWrite (i : Instr) : Transfer := w32 (regOffset .cmd) (encode i)

/-- `WAIT` under fairness of the engine (40_command_control.md R107): the engine runs the command, and the `STATUS`
read that ends the loop follows (log entry 9). -/
def waitEvents : List Event := [.engineRun, .hostTransfer (r32 (regOffset .status))]

/-- What `WAITOK` checks of the `STATUS` value read (R91): `ERR` = 0 and `DONE` = 1. -/
def waitOk (status : Reg) : Bool := status.extractLsb' 4 4 == 0 && status.getLsbD 1

/-- One 1-byte write for each byte, from an address on. -/
def byteWrites (x : Nat) (xs : List Byte) : List Event :=
  xs.zipIdx.map fun c => .hostTransfer (w8 (x + c.2) c.1)

/-- `SETKEY w, r, strip, k0 .. k(b-1)` (R91). -/
def setKeyEvents (w r : Reg) (strip : Bool) (key : List Byte) : List Event :=
  [ .hostTransfer (w32 (regOffset .wordbits) w)
  , .hostTransfer (w32 (regOffset .rounds) r)
  , .hostTransfer (w32 (regOffset .keylen) (BitVec.ofNat 32 key.length))
  , .hostTransfer (w32 (regOffset .strip) ((BitVec.ofBool strip).setWidth 32)) ] ++
  byteWrites keyBase key ++ [.hostTransfer (commandWrite .keysetup)] ++ waitEvents

/-- `BLOCK op, d0 .. d(bs-1)` (R91), `op` one of ENCB and DECB. -/
def blockEvents (op : Instr) (block : List Byte) : List Event :=
  byteWrites dinBase block ++
  [ .hostTransfer (w32 (regOffset .dlen) (BitVec.ofNat 32 block.length))
  , .hostTransfer (commandWrite op) ] ++ waitEvents

end Sys2Proof.Machine
end

