-- ==== Sys2Proof/Safety.lean ====
section
/-! DEFINITION. What the claims call a sound state: the invariants every step keeps, in the terms of spec/. -/

namespace Sys2Proof.Machine

/-- `PH = IDLE` exactly when `BUSY = 0` (10_state.md R45). -/
def phaseMatchesBusy (s : State) : Bool := (s.ph == .idle) == !s.busy

/-- Memory and both internal RAMs are in canonical form. -/
def ramsCanonical (s : State) : Bool := s.mem.wf && cellsRising s.sram && cellsRising s.lram

/-- Every listed cell of memory lies in `DIN`, `DOUT`, `KEY` or `MBUF` of this build (20_memory.md R52). -/
def cellsMapped (s : State) : Bool :=
  s.mem.all fun c =>
    match regionOf s.build c.1 with
    | none => false
    | some .registers => false
    | some _ => true

/-- The latched parameters are those of a legal key set-up when a schedule is held, and 0 before the first
(10_state.md R40). -/
def latchedLegal (s : State) : Bool :=
  if s.kv then s.ew == 16 || s.ew == 32 || s.ew == 64
  else s.ew == 0 && s.er == 0 && !s.estrip

/-- The entries `0 .. n-1` of an internal RAM have been written. -/
def entriesPresent (ram : EntryRam) (n : Nat) : Bool := (List.range n).all fun x => (cellFind x ram).isSome

/-- While a schedule is held every entry `S[0 .. T-1]` of it has been written (10_state.md R41). -/
def schedulePresent (s : State) : Bool := !s.kv || entriesPresent s.sram (scheduleLen s.er.toNat)

/-- Where the sequencer can stand (10_state.md R44, R45, 42_key_schedule.md R145 to R149, 43_block_cipher.md R168):
the phase belongs to the command in `OPR`, its checks have passed once a piece has been made, and every cursor and
counter is in its range in the phases that use it (`k` an index below `c`, `T` or `n` in the three phases of KEYSETUP).
What it says of `begun`, and of `k` in the stream phases, is the model's choice (log entry 5). -/
def sequencerSound (s : State) : Bool :=
  match s.ph with
  | .idle => true
  | .setupAlign =>
    decodeWord s.opr == .command .keysetup &&
      (!s.begun ||
        match keysetupParams s with
        | .error _ => false
        | .ok p => decide (s.k.toNat < alignedLen p.w p.b) && entriesPresent s.lram s.k.toNat)
  | .setupExpand =>
    decodeWord s.opr == .command .keysetup &&
      match keysetupParams s with
      | .error _ => false
      | .ok p =>
        decide (s.k.toNat < scheduleLen p.r) && entriesPresent s.sram s.k.toNat &&
          entriesPresent s.lram (alignedLen p.w p.b)
  | .setupMix =>
    decodeWord s.opr == .command .keysetup &&
      match keysetupParams s with
      | .error _ => false
      | .ok p =>
        decide (s.k.toNat < mixCount (alignedLen p.w p.b) (scheduleLen p.r)) &&
          decide (s.i.toNat < scheduleLen p.r) && decide (s.j.toNat < alignedLen p.w p.b) &&
          entriesPresent s.sram (scheduleLen p.r) && entriesPresent s.lram (alignedLen p.w p.b)
  | .blockEnc =>
    decodeWord s.opr == .command .encb &&
      (!s.begun || (blockCheck s == .success && decide (s.rc.toNat ≤ s.er.toNat)))
  | .blockDec =>
    decodeWord s.opr == .command .decb &&
      (!s.begun || (blockCheck s == .success && decide (s.rc.toNat ≤ s.er.toNat)))
  | .streamEnc =>
    decodeWord s.opr == .command .encs &&
      (!s.begun || (streamCheck s == .success && decide (s.blk.toNat < encsBlocks s) &&
        decide (s.k.toNat ≤ 2) && (s.k != 1 || decide (s.rc.toNat ≤ s.er.toNat))))
  | .streamDec =>
    (decodeWord s.opr == .command (.decs false) || decodeWord s.opr == .command (.decs true)) &&
      (!s.begun || (streamCheck s == .success && decide (s.blk.toNat < decsBlocks s) &&
        decide (s.k.toNat ≤ 2) && (s.k != 1 || decide (s.rc.toNat ≤ s.er.toNat))))
  | .finish =>
    match decodeWord s.opr with
    | .illegal => true
    | .command .nop => true
    | .command .keysetup =>
      match keysetupParams s with
      | .error _ => false
      | .ok p => entriesPresent s.sram (scheduleLen p.r)
    | .command .encb => blockCheck s == .success
    | .command .decb => blockCheck s == .success
    | .command .encs => streamCheck s == .success
    | .command (.decs _) => streamCheck s == .success

/-- What every reachable state satisfies. -/
structure Sound (s : State) : Prop where
  phase     : phaseMatchesBusy s = true
  canonical : ramsCanonical s = true
  mapped    : cellsMapped s = true
  latched   : latchedLegal s = true
  schedule  : schedulePresent s = true
  sequencer : sequencerSound s = true

/-! ### What a completion leaves alone -/

/-- The widths the engine supports (00_scope.md R9). -/
abbrev legalWidth (w : Nat) : Prop := w = 16 ∨ w = 32 ∨ w = 64

/-- `t` is `s` but for the event taken off the list. -/
def afterEvent (s : State) (es : List Event) : State := { s with inputs := es }

/-- The host's operand registers, `CTRL`, `STATUS.LOST`, the build and the events still to come are the same in
both, and so are the port's answer (`answer`) and `OPR`: after a completion these two are the model's choice, log
entries 6 and 13. -/
structure SameOperands (s t : State) : Prop where
  build    : t.build = s.build
  inputs   : t.inputs = s.inputs
  answer   : t.answer = s.answer
  ie       : t.ie = s.ie
  lost     : t.lost = s.lost
  wordbits : t.wordbits = s.wordbits
  rounds   : t.rounds = s.rounds
  keylen   : t.keylen = s.keylen
  strip    : t.strip = s.strip
  dlen     : t.dlen = s.dlen
  mlen     : t.mlen = s.mlen
  opr      : t.opr = s.opr

/-- The schedule, its parameters and `KV` are the same in both, and so is `L`. -/
structure SameSchedule (s t : State) : Prop where
  ew     : t.ew = s.ew
  er     : t.er = s.er
  estrip : t.estrip = s.estrip
  kv     : t.kv = s.kv
  sram   : t.sram = s.sram
  lram   : t.lram = s.lram

/-- `t` is a completed command's state: `ERR` holds the code, `DONE` = 1, `BUSY` = 0, `PH` = IDLE
(40_command_control.md R102). -/
structure Completed (e : ErrorCode) (t : State) : Prop where
  err  : t.err = e
  done : t.done = true
  busy : t.busy = false
  ph   : t.ph = .idle

/-- A command that ended with an error changed nothing but `STATUS` and `PH` (40_command_control.md R103). -/
structure OnlyStatusChanged (s t : State) : Prop where
  operands : SameOperands s t
  schedule : SameSchedule s t
  mem      : t.mem = s.mem
  outlen   : t.outlen = s.outlen
  draws    : t.draws = s.draws

end Sys2Proof.Machine
end

