-- ==== Sys2Proof/Certificates/Slice0/Obligations.lean ====
section
/-! DEFINITION. The statements for the provers, from the numbered rules of spec/. Registers are `State` fields or read
through `regRead`; a byte of memory is read through `memRead`; `legalWidth`, `Completed`, `SameOperands`,
`SameSchedule`, `OnlyStatusChanged` and `Sound` stand in Safety.lean. -/

open Sys2Proof Sys2Proof.Machine

/-! ### Reset and the register views -/

/-- 10_state.md R48, 70_reset_and_hazards.md R233: the value of every piece of state after reset. `MBUF`, `S` and `L`
hold no value. -/
def Obligations.ResetHoldsTheSpecsValues : Prop :=
  regRead State.reset .id = 0x52433501 ∧
  regRead State.reset .caps = capsWord State.reset.build ∧
  (∀ r : RegName, r ≠ .id → r ≠ .caps → regRead State.reset r = 0) ∧
  (∀ x, (0x0040 ≤ x ∧ x < 0x0060) ∨ (0x0100 ≤ x ∧ x < 0x0200) → memRead State.reset.mem x = some 0) ∧
  (∀ x, 0x1000 ≤ x → memRead State.reset.mem x = none) ∧
  State.reset.ew = 0 ∧ State.reset.er = 0 ∧ State.reset.estrip = false ∧ State.reset.kv = false ∧
  (∀ x, cellFind x State.reset.sram = none ∧ cellFind x State.reset.lram = none) ∧
  State.reset.a = 0 ∧ State.reset.b = 0 ∧ State.reset.i = 0 ∧ State.reset.j = 0 ∧ State.reset.k = 0 ∧
  State.reset.rc = 0 ∧ State.reset.blk = 0 ∧ State.reset.opr = 0 ∧ State.reset.ph = .idle ∧
  irq State.reset = false

/-- 10_state.md R24: `CAPS` shows the build, and no step changes it; `MBUF_BYTES` is in the range of 00_scope.md R10.
-/
def Obligations.CapsReportsTheFixedBuild : Prop :=
  (∀ s : State,
    (regRead s .caps).extractLsb' 0 16 = BitVec.ofNat 16 s.build.mbufBytes ∧
    ((regRead s .caps).extractLsb' 0 16).toNat = s.build.mbufBytes ∧
    ((regRead s .caps).getLsbD 16 = true ↔ s.build.tailPolicy = .pad) ∧
    (regRead s .caps).extractLsb' 17 15 = 0 ∧
    s.build.mbufBytes % 16 = 0 ∧ 16 ≤ s.build.mbufBytes ∧ s.build.mbufBytes ≤ 4096) ∧
  (∀ s t : State, step s = .next t → regRead t .caps = regRead s .caps)

/-- 10_state.md R26, R35, 60_exceptions.md R200: the fields of `STATUS` and `EPARAM` as the host reads them. -/
def Obligations.StatusAndEparamFields : Prop :=
  ∀ s : State,
    (regRead s .status).getLsbD 0 = s.busy ∧ (regRead s .status).getLsbD 1 = s.done ∧
    (regRead s .status).getLsbD 2 = s.kv ∧ (regRead s .status).getLsbD 3 = s.lost ∧
    (regRead s .status).extractLsb' 4 4 =
      (match s.err with
        | .success => 0 | .unsupportedWordSize => 1 | .invalidRoundCount => 2 | .keyTooLong => 3
        | .invalidBlockLength => 4 | .noSchedule => 5 | .illegalCommand => 6 | .invalidStreamLength => 7) ∧
    (regRead s .status).extractLsb' 8 24 = 0 ∧
    (regRead s .eparam).extractLsb' 0 8 = s.ew ∧ (regRead s .eparam).extractLsb' 8 8 = s.er ∧
    (regRead s .eparam).getLsbD 16 = s.estrip ∧ (regRead s .eparam).extractLsb' 17 15 = 0

/-- 10_state.md R23, R25, R27 to R34: the registers other than `CAPS`, `STATUS` and `EPARAM` as the host reads them, in
every state: `ID` is a constant, `CMD` reads 0, of `CTRL` and `STRIP` bits [31:1] read 0, and the others read what they
hold. -/
def Obligations.RegistersReadAsTheyHold : Prop :=
  ∀ s : State,
    regRead s .id = 0x52433501 ∧ regRead s .cmd = 0 ∧
    (regRead s .ctrl).getLsbD 0 = s.ie ∧ (regRead s .ctrl).extractLsb' 1 31 = 0 ∧
    (regRead s .strip).getLsbD 0 = s.strip ∧ (regRead s .strip).extractLsb' 1 31 = 0 ∧
    regRead s .wordbits = s.wordbits ∧ regRead s .rounds = s.rounds ∧ regRead s .keylen = s.keylen ∧
    regRead s .dlen = s.dlen ∧ regRead s .mlen = s.mlen ∧ regRead s .outlen = s.outlen

/-! ### Command words -/

/-- 30_encoding.md R82: the words of the table, read by the decoder; an opcode from 6 on names no command. -/
def Obligations.TableWordsDecode : Prop :=
  decodeWord 0x00000000 = .command .nop ∧ decodeWord 0x00000001 = .command .keysetup ∧
  decodeWord 0x00000002 = .command .encb ∧ decodeWord 0x00000003 = .command .decb ∧
  decodeWord 0x00000004 = .command .encs ∧ decodeWord 0x00000005 = .command (.decs false) ∧
  decodeWord 0x00000105 = .command (.decs true) ∧
  ∀ o : Fin 16, 6 ≤ o.val → decodeWord (BitVec.ofNat 32 o.val) = .illegal

/-- 30_encoding.md R85: exactly seven words decode to a command, each to the command it encodes. -/
def Obligations.OnlySevenWordsDecode : Prop :=
  (∀ (v : Reg) (i : Instr), decodeWord v = .command i ↔ v = encode i) ∧
  (∀ v : Reg, (∃ i, decodeWord v = .command i) ↔ v.toNat ∈ [0, 1, 2, 3, 4, 5, 0x105])

/-- 30_encoding.md R84: a reserved bit set, or `MORE` with an opcode other than 5, is illegal. -/
def Obligations.ReservedWordsAreIllegal : Prop :=
  ∀ v : Reg,
    (v.extractLsb' 4 4 ≠ 0 ∨ v.extractLsb' 9 23 ≠ 0 ∨ (v.getLsbD 8 = true ∧ v.extractLsb' 0 4 ≠ 5)) →
    decodeWord v = .illegal

/-- 40_command_control.md R105, R106: at the start of an accepted command the engine's move is the meaning of the
command that `OPR` decodes to, whether no event is pending or the engine's turn is the next event. -/
def Obligations.StepRunsTheAcceptedCommand : Prop :=
  ∀ (s : State) (i : Instr), decodeWord s.opr = .command i → Instr.wellFormed i = true → atStart s = true →
    (s.inputs = [] → step s = exec i s) ∧
    (∀ es, s.inputs = .engineRun :: es → step s = exec i (afterEvent s es))

/-- 40_command_control.md R100, R101: a write to `CMD` is accepted exactly when `BUSY` = 0, and then changes what R101
lists and nothing else; it is dropped with `LOST <- 1`, its word held nowhere, when `BUSY` = 1. (`begun`, which stands
at 0 after the acceptance, and `atStart`, which says so, are the model's own: log entry 5.) -/
def Obligations.CommandWriteAcceptedExactlyWhenIdle : Prop :=
  ∀ (s : State) (v : Reg) (es : List Event), s.inputs = .hostTransfer (w32 0x010 v) :: es →
    (s.busy = false → ∃ t, step s = .next t ∧
      t = { s with
        inputs := es, opr := v, busy := true, done := false, err := .success, ph := t.ph, begun := false,
        answer := { ack := true, err := false, rdata := 0 } } ∧
      irq t = false ∧ atStart t = true ∧
      (t.ph = .setupAlign ↔ decodeWord v = .command .keysetup) ∧
      (t.ph = .blockEnc ↔ decodeWord v = .command .encb) ∧
      (t.ph = .blockDec ↔ decodeWord v = .command .decb) ∧
      (t.ph = .streamEnc ↔ decodeWord v = .command .encs) ∧
      (t.ph = .streamDec ↔ ∃ more, decodeWord v = .command (.decs more)) ∧
      (t.ph = .finish ↔ decodeWord v = .illegal ∨ decodeWord v = .command .nop)) ∧
    (s.busy = true →
      step s = .next { s with inputs := es, lost := true, answer := { ack := true, err := false, rdata := 0 } })

/-- 40_command_control.md R110: an accepted word that decodes to `ILLEGAL` completes with code 6 and changes nothing
else, whether no event is pending or the engine's turn is the next event; 0x0000_0102 and 0x0000_0007 are such words.
(That the port's answer and `OPR` stay is the model's, log entries 6 and 13.) -/
def Obligations.IllegalWordCompletesWithCodeSix : Prop :=
  decodeWord 0x00000102 = .illegal ∧ decodeWord 0x00000007 = .illegal ∧
  ∀ s : State, decodeWord s.opr = .illegal → atStart s = true →
    (s.inputs = [] →
      ∃ t, step s = .next t ∧ Completed .illegalCommand t ∧ OnlyStatusChanged s t ∧
        (regRead t .status).extractLsb' 4 4 = 6 ∧ (regRead t .status).getLsbD 1 = true) ∧
    (∀ e es, s.inputs = e :: es → e = .engineRun ∨ e = .enginePiece →
      ∃ t, step s = .next t ∧ Completed .illegalCommand t ∧ OnlyStatusChanged (afterEvent s es) t ∧
        (regRead t .status).extractLsb' 4 4 = 6 ∧ (regRead t .status).getLsbD 1 = true)

/-- 40_command_control.md R108: NOP completes, whatever `KV` is, and changes no other state. (That the port's answer
and `OPR` stay is the model's, log entries 6 and 13.) -/
def Obligations.NopOnlyCompletes : Prop :=
  ∀ s : State, ∃ t, exec .nop s = .next t ∧ Completed .success t ∧ OnlyStatusChanged s t ∧
    (s.lost = false → s.kv = true → regRead t .status = 0x00000006)

/-! ### Checks -/

/-- 42_key_schedule.md R150, 60_exceptions.md R203: the checks of KEYSETUP, first failing check first; nothing but
`STATUS` changes. (That the port's answer and `OPR` stay is the model's, log entries 6 and 13.) -/
def Obligations.KeysetupChecksInOrder : Prop :=
  ∀ s : State,
    (¬ legalWidth s.wordbits.toNat →
      ∃ t, exec .keysetup s = .next t ∧ Completed .unsupportedWordSize t ∧ OnlyStatusChanged s t) ∧
    (legalWidth s.wordbits.toNat → 255 < s.rounds.toNat →
      ∃ t, exec .keysetup s = .next t ∧ Completed .invalidRoundCount t ∧ OnlyStatusChanged s t) ∧
    (legalWidth s.wordbits.toNat → s.rounds.toNat ≤ 255 → 255 < s.keylen.toNat →
      ∃ t, exec .keysetup s = .next t ∧ Completed .keyTooLong t ∧ OnlyStatusChanged s t)

/-- 43_block_cipher.md R162: the checks of ENCB and DECB; with no schedule held `NoSchedule` comes first, and nothing
but `STATUS` changes. (That the port's answer and `OPR` stay is the model's, log entries 6 and 13.) -/
def Obligations.BlockChecksInOrder : Prop :=
  ∀ (s : State) (i : Instr), i = .encb ∨ i = .decb →
    (s.kv = false → ∃ t, exec i s = .next t ∧ Completed .noSchedule t ∧ OnlyStatusChanged s t) ∧
    (s.kv = true → s.dlen.toNat ≠ 2 * (s.ew.toNat / 8) →
      ∃ t, exec i s = .next t ∧ Completed .invalidBlockLength t ∧ OnlyStatusChanged s t)

/-- 44_stream.md R181: the checks of ENCS and DECS; nothing but `STATUS` changes, no byte of `MBUF` among it. (That the
port's answer and `OPR` stay is the model's, log entries 6 and 13.) -/
def Obligations.StreamChecksInOrder : Prop :=
  ∀ (s : State) (i : Instr), i = .encs ∨ (∃ more, i = .decs more) →
    (s.kv = false → ∃ t, exec i s = .next t ∧ Completed .noSchedule t ∧ OnlyStatusChanged s t) ∧
    (s.kv = true → s.build.mbufBytes < s.mlen.toNat →
      ∃ t, exec i s = .next t ∧ Completed .invalidStreamLength t ∧ OnlyStatusChanged s t)

/-- 60_exceptions.md R202: an error is a function of the operands alone: a command that failed changed none of them,
and the same command with the same operands fails with the same code from any other state, its own result among them.
(That the port's answer and `OPR` stay is the model's, log entries 6 and 13.) -/
def Obligations.FailedCommandFailsAgain : Prop :=
  ∀ (s t : State) (i : Instr), exec i s = .next t → t.err ≠ .success →
    OnlyStatusChanged s t ∧ (∃ u, exec i t = .next u ∧ u.err = t.err) ∧
    ∀ s' : State, s'.wordbits = s.wordbits → s'.rounds = s.rounds → s'.keylen = s.keylen → s'.dlen = s.dlen →
      s'.mlen = s.mlen → s'.kv = s.kv → s'.ew = s.ew → s'.build = s.build →
      ∃ u, exec i s' = .next u ∧ u.err = t.err

/-! ### Key set-up -/

/-- 42_key_schedule.md R130, R132: the constants of exactly the three widths, each odd. (Their values are the spec's
from general knowledge, log entry 11.) -/
def Obligations.ConstantsOfTheThreeWidths : Prop :=
  constants 16 = some (0xB7E1, 0x9E37) ∧ constants 32 = some (0xB7E15163, 0x9E3779B9) ∧
  constants 64 = some (0xB7E151628AED2A6B, 0x9E3779B97F4A7C15) ∧
  ∀ w : Nat, (¬ legalWidth w → constants w = none) ∧
    ∀ p q, constants w = some (p, q) → p % 2 = 1 ∧ q % 2 = 1 ∧ p < 2 ^ w ∧ q < 2 ^ w

/-- 42_key_schedule.md R150, 10_state.md R40, R41: with legal operands KEYSETUP completes, `S[0 .. T-1]` is the
schedule of the operands in 64-bit entries, entries from `T` on keep what they held, `EW`, `ER`, `ESTRIP` and `KV` are
committed, and memory, the operands, `OUTLEN`, `LOST` and `CTRL` stay. (That the port's answer and `OPR` stay is the
model's, log entries 6 and 13.) -/
def Obligations.KeysetupCommitsTheSchedule : Prop :=
  ∀ s : State, legalWidth s.wordbits.toNat → s.rounds.toNat ≤ 255 → s.keylen.toNat ≤ 255 →
    ∃ t p q, constants s.wordbits.toNat = some (p, q) ∧ exec .keysetup s = .next t ∧
      Completed .success t ∧ SameOperands s t ∧
      t.ew.toNat = s.wordbits.toNat ∧ t.er.toNat = s.rounds.toNat ∧ t.estrip = s.strip ∧ t.kv = true ∧
      (∀ x, x < 2 * (s.rounds.toNat + 1) → cellFind x t.sram = some (toLong
        ((schedule s.wordbits.toNat p q s.rounds.toNat (keyBytes s s.keylen.toNat)).getD x 0))) ∧
      (∀ x, 2 * (s.rounds.toNat + 1) ≤ x → cellFind x t.sram = cellFind x s.sram) ∧
      t.mem = s.mem ∧ t.outlen = s.outlen ∧ t.draws = s.draws

/-- 42_key_schedule.md R133 to R136: the aligned key has `max(1, ceil(b/u))` words, at most 128, 64 or 32 of them, an
empty key gives one word 0, and byte `t` of word `j` is key byte `j*u + t`, or 0 past the end of the key. -/
def Obligations.AlignedKeyIsLittleEndian : Prop :=
  ∀ (w : Nat) (key : List Byte), legalWidth w →
    (align w key).length = (if key = [] then 1 else (key.length + w / 8 - 1) / (w / 8)) ∧
    (key.length ≤ 255 → (w = 16 → (align w key).length ≤ 128) ∧ (w = 32 → (align w key).length ≤ 64) ∧
      (w = 64 → (align w key).length ≤ 32)) ∧
    (key = [] → align w key = [0]) ∧
    ∀ j t, j < (align w key).length → t < w / 8 →
      ((align w key).getD j 0).toNat / 2 ^ (8 * t) % 256 = (key.getD (j * (w / 8) + t) 0).toNat

/-- 42_key_schedule.md R134, R135 and the corner cases of R150: zero bytes appended within the last word change
nothing, so the keys `01` and `01 00` give the same aligned key. -/
def Obligations.KeyPaddingIsImmaterial : Prop :=
  ∀ (w : Nat) (key : List Byte) (n : Nat), legalWidth w → key ≠ [] →
    key.length + n ≤ (align w key).length * (w / 8) →
    align w (key ++ List.replicate n 0) = align w key

/-- 42_key_schedule.md R137, R138: the expanded table has `2(r+1)` words, word `x` is `(P + x*Q) mod 2^w`, and the
recurrence of the hardware gives the same words. -/
def Obligations.ExpansionIsTheRecurrence : Prop :=
  ∀ w p q r : Nat,
    (expand w p q r).length = 2 * (r + 1) ∧
    (∀ x, x < 2 * (r + 1) → ((expand w p q r).getD x 0).toNat = (p + x * q) % 2 ^ w) ∧
    (expand w p q r).getD 0 0 = BitVec.ofNat w p ∧
    (∀ x, x + 1 < 2 * (r + 1) →
      (expand w p q r).getD (x + 1) 0 = (expand w p q r).getD x 0 + BitVec.ofNat w q)

/-- 42_key_schedule.md R139, R140, R141: the lines of a mixing step, and the mixing as `3 * max(c, T)` of them from
accumulators and cursors 0. -/
def Obligations.MixingStepByLine : Prop :=
  (∀ (w : Nat) (m : Mix w) (a b : BitVec w), m.i < m.s.length → m.j < m.l.length →
    a = rotl (m.s.getD m.i 0 + m.a + m.b) 3 → b = rotl (m.l.getD m.j 0 + a + m.b) (a + m.b).toNat →
    (mixStep m).a = a ∧ (mixStep m).b = b ∧
    (∀ x, x < m.s.length → (mixStep m).s.getD x 0 = if x = m.i then a else m.s.getD x 0) ∧
    (∀ x, x < m.l.length → (mixStep m).l.getD x 0 = if x = m.j then b else m.l.getD x 0) ∧
    (mixStep m).i = (m.i + 1) % m.s.length ∧ (mixStep m).j = (m.j + 1) % m.l.length ∧
    (mixStep m).s.length = m.s.length ∧ (mixStep m).l.length = m.l.length) ∧
  (∀ (w : Nat) (l s : List (BitVec w)),
    mix l s = (mixSteps (3 * max l.length s.length) { s := s, l := l, a := 0, b := 0, i := 0, j := 0 }).s) ∧
  (∀ (w n : Nat) (m : Mix w), mixSteps 0 m = m ∧ mixSteps (n + 1) m = mixStep (mixSteps n m))

/-- 42_key_schedule.md R139, R142: whatever the tables hold, after `n` mixing steps from the initial state the cursors
are `n mod T` and `n mod c`, and the tables keep their lengths. -/
def Obligations.MixingCursorsWrap : Prop :=
  ∀ (w n : Nat) (l s : List (BitVec w)), l ≠ [] → s ≠ [] →
    (mixSteps n { s := s, l := l, a := 0, b := 0, i := 0, j := 0 }).i = n % s.length ∧
    (mixSteps n { s := s, l := l, a := 0, b := 0, i := 0, j := 0 }).j = n % l.length ∧
    (mixSteps n { s := s, l := l, a := 0, b := 0, i := 0, j := 0 }).s.length = s.length ∧
    (mixSteps n { s := s, l := l, a := 0, b := 0, i := 0, j := 0 }).l.length = l.length

/-- 10_state.md R38, 42_key_schedule.md R144: what a KEYSETUP commits depends on `WORDBITS`, `ROUNDS`, `KEYLEN`,
`STRIP` and `KEY[0 .. KEYLEN-1]` alone, not on any other byte or register. -/
def Obligations.KeysetupReadsOnlyItsOperands : Prop :=
  ∀ s s' t : State, legalWidth s.wordbits.toNat → s.rounds.toNat ≤ 255 → s.keylen.toNat ≤ 255 →
    s'.wordbits = s.wordbits → s'.rounds = s.rounds → s'.keylen = s.keylen → s'.strip = s.strip →
    (∀ k, k < s.keylen.toNat → memRead s'.mem (0x0100 + k) = memRead s.mem (0x0100 + k)) →
    exec .keysetup s = .next t →
    ∃ t', exec .keysetup s' = .next t' ∧ t'.ew = t.ew ∧ t'.er = t.er ∧ t'.estrip = t.estrip ∧ t'.kv = t.kv ∧
      t'.err = t.err ∧ ∀ x, x < 2 * (s.rounds.toNat + 1) → cellFind x t'.sram = cellFind x t.sram

/-! ### Word arithmetic -/

/-- 41_word_arith.md R118: left rotation, for every width and every amount. -/
def Obligations.LeftRotationByAmountModWidth : Prop :=
  (∀ (w s : Nat) (v : BitVec w), 0 < w →
    (rotl v s).toNat =
      (if s % w = 0 then v.toNat else v.toNat * 2 ^ (s % w) % 2 ^ w + v.toNat / 2 ^ (w - s % w)) ∧
    (∀ k, k < w → (rotl v s).getLsbD ((k + s) % w) = v.getLsbD k) ∧
    rotl (0 : BitVec w) s = 0 ∧ rotl (BitVec.allOnes w) s = BitVec.allOnes w) ∧
  rotl (0x80000001 : BitVec 32) 1 = 0x00000003

/-- 41_word_arith.md R119: right rotation, for every width and every amount. -/
def Obligations.RightRotationByAmountModWidth : Prop :=
  (∀ (w s : Nat) (v : BitVec w), 0 < w →
    (rotr v s).toNat =
      (if s % w = 0 then v.toNat else v.toNat / 2 ^ (s % w) + v.toNat * 2 ^ (w - s % w) % 2 ^ w) ∧
    (∀ k, k < w → (rotr v s).getLsbD k = v.getLsbD ((k + s) % w)) ∧
    (s % w ≠ 0 → rotr v s = rotl v (w - s % w)) ∧
    rotr (0 : BitVec w) s = 0 ∧ rotr (BitVec.allOnes w) s = BitVec.allOnes w) ∧
  rotr (0x00000003 : BitVec 32) 1 = 0x80000001

/-- 41_word_arith.md R123: the rotator uses the low `log2 w` bits of its amount, and a sum used as an amount may be
taken before or after it wraps. -/
def Obligations.RotationUsesTheLowAmountBits : Prop :=
  (∀ (s : Nat) (v : BitVec 16), rotl v s = rotl v (s % 2 ^ 4) ∧ rotr v s = rotr v (s % 2 ^ 4)) ∧
  (∀ (s : Nat) (v : BitVec 32), rotl v s = rotl v (s % 2 ^ 5) ∧ rotr v s = rotr v (s % 2 ^ 5)) ∧
  (∀ (s : Nat) (v : BitVec 64), rotl v s = rotl v (s % 2 ^ 6) ∧ rotr v s = rotr v (s % 2 ^ 6)) ∧
  (∀ (w : Nat) (v a b : BitVec w), legalWidth w →
    (a + b).toNat % w = (a.toNat + b.toNat) % w ∧ rotl v (a + b).toNat = rotl v (a.toNat + b.toNat))

/-- 41_word_arith.md R126: the laws the round trip rests on. -/
def Obligations.WordLawsOfTheRoundTrip : Prop :=
  ∀ (w s : Nat) (v a b : BitVec w),
    rotr (rotl v s) s = v ∧ rotl (rotr v s) s = v ∧ (a + b) - b = a ∧ (a ^^^ b) ^^^ b = a

/-- 41_word_arith.md R121, R122: the byte image of a word, and that packing and unpacking undo each other. -/
def Obligations.LittleEndianPackingInverts : Prop :=
  (∀ (w : Nat) (v : BitVec w), legalWidth w →
    leWord w (leBytes (w / 8) v) = v ∧ (leBytes (w / 8) v).length = w / 8 ∧
    ∀ t, t < w / 8 → ((leBytes (w / 8) v).getD t 0).toNat = v.toNat / 2 ^ (8 * t) % 256) ∧
  (∀ (w : Nat) (xs : List Byte), legalWidth w → xs.length = w / 8 →
    leBytes (w / 8) (leWord w xs) = xs ∧
    (leWord w xs).toNat = ((List.range (w / 8)).map fun t => (xs.getD t 0).toNat * 2 ^ (8 * t)).sum)

/-! ### The block cipher -/

/-- 43_block_cipher.md R163, R164: the lines of `E` and `D`, round by round. -/
def Obligations.TransformsByLine : Prop :=
  ∀ (w r : Nat) (key : Nat → BitVec w) (a b x y a' b' : BitVec w),
    encipher key 0 (a, b) = (a + key 0, b + key 1) ∧
    (encipher key r (a, b) = (x, y) →
      a' = rotl (x ^^^ y) y.toNat + key (2 * (r + 1)) →
      b' = rotl (a' ^^^ y) a'.toNat + key (2 * (r + 1) + 1) → encipher key (r + 1) (a, b) = (a', b')) ∧
    decipher key 0 (a, b) = (a - key 0, b - key 1) ∧
    (y = rotr (b - key (2 * (r + 1) + 1)) a.toNat ^^^ a →
      x = rotr (a - key (2 * (r + 1))) y.toNat ^^^ y → decipher key (r + 1) (a, b) = decipher key r (x, y))

/-- 43_block_cipher.md R167: `D` undoes `E` and `E` undoes `D`, for every schedule, round count and block. -/
def Obligations.DecipherInvertsEncipher : Prop :=
  ∀ (w r : Nat) (key : Nat → BitVec w) (ab : BitVec w × BitVec w),
    decipher key r (encipher key r ab) = ab ∧ encipher key r (decipher key r ab) = ab

/-- 43_block_cipher.md R166: no entry of the schedule from `T = 2(r+1)` on is read. -/
def Obligations.CipherReadsOnlyTheSchedule : Prop :=
  ∀ (w r : Nat) (key key' : Nat → BitVec w) (ab : BitVec w × BitVec w),
    (∀ x, x < 2 * (r + 1) → key x = key' x) →
    encipher key r ab = encipher key' r ab ∧ decipher key r ab = decipher key' r ab

/-- 43_block_cipher.md R165, R160, R161, R163: with a schedule held and `DLEN` = `bs`, ENCB completes;
`DOUT[0 .. 2u-1]` are the bytes of `E` of the halves of `DIN`, `DOUT[2u .. 15]` are 0, and every other byte and
register stays. (That the port's answer and `OPR` stay is the model's, log entries 6 and 13.) -/
def Obligations.EncbWritesTheCiphertext : Prop :=
  ∀ s : State, s.kv = true → legalWidth s.ew.toNat → s.dlen.toNat = 2 * (s.ew.toNat / 8) →
    ∃ t, exec .encb s = .next t ∧ Completed .success t ∧ SameOperands s t ∧ SameSchedule s t ∧
      t.outlen = s.outlen ∧ t.draws = s.draws ∧
      (∃ a b : BitVec s.ew.toNat,
        (∀ k, k < s.ew.toNat / 8 →
          memRead s.mem (0x0040 + k) = some (BitVec.ofNat 8 (a.toNat / 2 ^ (8 * k))) ∧
          memRead s.mem (0x0040 + s.ew.toNat / 8 + k) = some (BitVec.ofNat 8 (b.toNat / 2 ^ (8 * k)))) ∧
        ∀ k, k < s.ew.toNat / 8 →
          memRead t.mem (0x0050 + k) = some (BitVec.ofNat 8
            ((encipher (scheduleWord s.ew.toNat s.sram) s.er.toNat (a, b)).1.toNat / 2 ^ (8 * k))) ∧
          memRead t.mem (0x0050 + s.ew.toNat / 8 + k) = some (BitVec.ofNat 8
            ((encipher (scheduleWord s.ew.toNat s.sram) s.er.toNat (a, b)).2.toNat / 2 ^ (8 * k)))) ∧
      (∀ k, 2 * (s.ew.toNat / 8) ≤ k → k < 16 → memRead t.mem (0x0050 + k) = some 0) ∧
      (∀ x, x < 0x0050 ∨ 0x0060 ≤ x → memRead t.mem x = memRead s.mem x)

/-- 43_block_cipher.md R170, R160, R161, R164: DECB, as ENCB with `D`. (That the port's answer and `OPR` stay is the
model's, log entries 6 and 13.) -/
def Obligations.DecbWritesThePlaintext : Prop :=
  ∀ s : State, s.kv = true → legalWidth s.ew.toNat → s.dlen.toNat = 2 * (s.ew.toNat / 8) →
    ∃ t, exec .decb s = .next t ∧ Completed .success t ∧ SameOperands s t ∧ SameSchedule s t ∧
      t.outlen = s.outlen ∧ t.draws = s.draws ∧
      (∃ a b : BitVec s.ew.toNat,
        (∀ k, k < s.ew.toNat / 8 →
          memRead s.mem (0x0040 + k) = some (BitVec.ofNat 8 (a.toNat / 2 ^ (8 * k))) ∧
          memRead s.mem (0x0040 + s.ew.toNat / 8 + k) = some (BitVec.ofNat 8 (b.toNat / 2 ^ (8 * k)))) ∧
        ∀ k, k < s.ew.toNat / 8 →
          memRead t.mem (0x0050 + k) = some (BitVec.ofNat 8
            ((decipher (scheduleWord s.ew.toNat s.sram) s.er.toNat (a, b)).1.toNat / 2 ^ (8 * k))) ∧
          memRead t.mem (0x0050 + s.ew.toNat / 8 + k) = some (BitVec.ofNat 8
            ((decipher (scheduleWord s.ew.toNat s.sram) s.er.toNat (a, b)).2.toNat / 2 ^ (8 * k)))) ∧
      (∀ k, 2 * (s.ew.toNat / 8) ≤ k → k < 16 → memRead t.mem (0x0050 + k) = some 0) ∧
      (∀ x, x < 0x0050 ∨ 0x0060 ≤ x → memRead t.mem x = memRead s.mem x)

/-- 95_test_vectors.md P1, P5, 43_block_cipher.md R167: ENCB, its `DOUT` copied into `DIN` by the host, then DECB gives
back the block; and the other way round. -/
def Obligations.BlockCommandsRoundTrip : Prop :=
  ∀ (s t : State) (first second : Instr),
    (first = .encb ∧ second = .decb) ∨ (first = .decb ∧ second = .encb) →
    s.kv = true → legalWidth s.ew.toNat → s.dlen.toNat = 2 * (s.ew.toNat / 8) →
    exec first s = .next t →
    ∃ u, exec second { t with mem := memWriteBytes t.mem 0x0040 (bytesAt t.mem t.draws 0x0050 16) } = .next u ∧
      u.err = .success ∧
      ∀ k, k < 2 * (s.ew.toNat / 8) → memRead u.mem (0x0050 + k) = memRead s.mem (0x0040 + k)

/-! ### The stream unit -/

/-- 44_stream.md R184, R180, R182, R183: with a schedule held and `MLEN <= MBUF_BYTES`, ENCS completes; `OUTLEN` is the
segment rounded up to whole blocks (one block for an empty segment), every block of `MBUF[0 .. OUTLEN-1]` is `E` of the
same block of the zero-padded segment, and every other byte and register stays. A segment byte nothing has written is a
draw. (That the port's answer and `OPR` stay is the model's, log entries 6 and 13.) -/
def Obligations.EncsEncryptsEveryBlock : Prop :=
  ∀ s : State, s.kv = true → legalWidth s.ew.toNat → s.mlen.toNat ≤ s.build.mbufBytes →
    ∃ t, exec .encs s = .next t ∧ Completed .success t ∧ SameOperands s t ∧ SameSchedule s t ∧
      (s.mlen.toNat = 0 → t.outlen.toNat = 2 * (s.ew.toNat / 8)) ∧
      (s.mlen.toNat ≠ 0 → t.outlen.toNat =
        (s.mlen.toNat + 2 * (s.ew.toNat / 8) - 1) / (2 * (s.ew.toNat / 8)) * (2 * (s.ew.toNat / 8))) ∧
      t.outlen.toNat ≤ s.build.mbufBytes ∧
      (∀ q k, q * (2 * (s.ew.toNat / 8)) < t.outlen.toNat → k < 2 * (s.ew.toNat / 8) →
        memRead t.mem (0x1000 + q * (2 * (s.ew.toNat / 8)) + k) = some ((encryptBlock s
          ((List.range (2 * (s.ew.toNat / 8))).map fun n =>
            if q * (2 * (s.ew.toNat / 8)) + n < s.mlen.toNat then
              byteAt .engine s.mem s.draws (0x1000 + q * (2 * (s.ew.toNat / 8)) + n)
            else 0)).getD k 0)) ∧
      (∀ x, x < 0x1000 ∨ 0x1000 + t.outlen.toNat ≤ x → memRead t.mem x = memRead s.mem x)

/-- 44_stream.md R187, R185, R186: with a schedule held and `MLEN <= MBUF_BYTES`, DECS completes under either tail
policy. `nb` blocks are decrypted in place (the last one, under `PAD`, the zero-padded tail), every other byte and
register stays, and `OUTLEN` is `nb*bs` less the trailing zero bytes of the last block when stripping applies. (That
the port's answer and `OPR` stay is the model's, log entries 6 and 13.) -/
def Obligations.DecsDecryptsByThePolicy : Prop :=
  ∀ (s : State) (more : Bool), s.kv = true → legalWidth s.ew.toNat → s.mlen.toNat ≤ s.build.mbufBytes →
    ∃ t nb z, exec (.decs more) s = .next t ∧ Completed .success t ∧ SameOperands s t ∧ SameSchedule s t ∧
      nb = (if s.mlen.toNat % (2 * (s.ew.toNat / 8)) ≠ 0 ∧ s.build.tailPolicy = .pad
        then s.mlen.toNat / (2 * (s.ew.toNat / 8)) + 1 else s.mlen.toNat / (2 * (s.ew.toNat / 8))) ∧
      (∀ q k, q < nb → k < 2 * (s.ew.toNat / 8) →
        memRead t.mem (0x1000 + q * (2 * (s.ew.toNat / 8)) + k) = some ((decryptBlock s
          ((List.range (2 * (s.ew.toNat / 8))).map fun n =>
            if q * (2 * (s.ew.toNat / 8)) + n < s.mlen.toNat then
              byteAt .engine s.mem s.draws (0x1000 + q * (2 * (s.ew.toNat / 8)) + n)
            else 0)).getD k 0)) ∧
      (∀ x, x < 0x1000 ∨ 0x1000 + nb * (2 * (s.ew.toNat / 8)) ≤ x → memRead t.mem x = memRead s.mem x) ∧
      t.outlen.toNat + z = nb * (2 * (s.ew.toNat / 8)) ∧
      (s.estrip = false ∨ more = true ∨ nb = 0 → z = 0) ∧
      (s.estrip = true → more = false → 0 < nb →
        z ≤ 2 * (s.ew.toNat / 8) ∧
        (∀ k, k < z → memRead t.mem (0x1000 + nb * (2 * (s.ew.toNat / 8)) - 1 - k) = some 0) ∧
        (z < 2 * (s.ew.toNat / 8) →
          memRead t.mem (0x1000 + nb * (2 * (s.ew.toNat / 8)) - 1 - z) ≠ some 0))

/-- 44_stream.md R190: ENCS on a message, then DECS on the `OUTLEN` bytes produced. -/
def Obligations.StreamCommandsRoundTrip : Prop :=
  ∀ (s t : State) (p : List Byte), s.kv = true → legalWidth s.ew.toNat → s.mlen.toNat ≤ s.build.mbufBytes →
    p.length = s.mlen.toNat →
    (∀ k, k < p.length → memRead s.mem (0x1000 + k) = some (p.getD k 0)) →
    exec .encs s = .next t →
    ∃ u, exec (.decs false) { t with mlen := t.outlen } = .next u ∧ u.err = .success ∧
      (∀ k, k < p.length → memRead u.mem (0x1000 + k) = some (p.getD k 0)) ∧
      (∀ k, p.length ≤ k → k < t.outlen.toNat → memRead u.mem (0x1000 + k) = some 0) ∧
      (s.estrip = false → u.outlen = t.outlen) ∧
      (s.estrip = true → (u.outlen = s.mlen ↔ p = [] ∨ p.getLast? ≠ some 0))

/-! ### Whole-machine rules -/

/-- 40_command_control.md R111: the schedule, `KV` and the latched parameters change in no step but a reset and a step
of a KEYSETUP that passes validation. -/
def Obligations.SchedulePersists : Prop :=
  ∀ s t : State, Sound s → step s = .next t →
    (∀ es, s.inputs ≠ .reset :: es) →
    ¬ (s.busy = true ∧ decodeWord s.opr = .command .keysetup ∧ legalWidth s.wordbits.toNat ∧
        s.rounds.toNat ≤ 255 ∧ s.keylen.toNat ≤ 255) →
    t.kv = s.kv ∧ t.ew = s.ew ∧ t.er = s.er ∧ t.estrip = s.estrip ∧ t.sram = s.sram

/-- Every step, from every state whose memory and internal RAMs are in canonical form, keeps that form. -/
def Obligations.MemoryStaysCanonical : Prop :=
  ∀ s t : State, ramsCanonical s = true → step s = .next t → ramsCanonical t = true

/-- 10_state.md R45: `PH = IDLE` exactly when `STATUS.BUSY` = 0, kept by every step and true at reset. -/
def Obligations.IdleExactlyWhenNotBusy : Prop :=
  (∀ s t : State, (s.ph = .idle ↔ s.busy = false) → step s = .next t → (t.ph = .idle ↔ t.busy = false)) ∧
  (State.reset.ph = .idle ↔ State.reset.busy = false)

/-- 10_state.md R40, R41, R44, R45, 20_memory.md R52: every step keeps the whole invariant `Sound`: the phase belongs
to the command; in the phases that use them `i`, `j`, `rc`, `blk`, and in those of KEYSETUP `k`, are in the ranges of
R44; the latched parameters are legal, a schedule held has been written, and every cell of memory lies in a buffer of
the map. (What `Sound` says of `begun`, and of `k` in the stream phases, where R44 gives `k` no use, is the model's
choice, log entry 5: `k` is at most 2, and `rc` is at most `ER` when `k` = 1.) -/
def Obligations.SoundnessIsKept : Prop := ∀ s t : State, Sound s → step s = .next t → Sound t

/-- The state after reset satisfies `Sound` (with PH = IDLE its clauses of log entry 5 ask nothing). -/
def Obligations.ResetIsSound : Prop := Sound State.reset

/-- 40_command_control.md R106, 43_block_cipher.md R168: ENCB and DECB made piece by piece reach the state that the
whole command gives, after the number of pieces 70_reset_and_hazards.md R245 counts. The division into pieces is the
model's, log entry 5. -/
def Obligations.BlockPiecesReachTheCommand : Prop :=
  ∀ (s : State) (i : Instr), i = .encb ∨ i = .decb → decodeWord s.opr = .command i → atStart s = true →
    (s.kv = true → legalWidth s.ew.toNat) →
    exec i s = .next (enginePieces (referencePieces i s) s)

/-- 40_command_control.md R106, 42_key_schedule.md R145 to R148: KEYSETUP made piece by piece (alignment, expansion by
the recurrence, mixing) reaches the state that the whole command gives. The division into pieces is the model's, log
entry 5; the premise says that the entries of `S` are listed by rising index, which every step keeps
(MemoryStaysCanonical). -/
def Obligations.KeysetupPiecesReachTheCommand : Prop :=
  ∀ s : State, decodeWord s.opr = .command .keysetup → atStart s = true → cellsRising s.sram = true →
    exec .keysetup s = .next (enginePieces (referencePieces .keysetup s) s)

/-- 40_command_control.md R106, 44_stream.md R180: ENCS and DECS made piece by piece reach the state that the whole
command gives. The division into pieces is the model's, log entry 5. -/
def Obligations.StreamPiecesReachTheCommand : Prop :=
  ∀ (s : State) (i : Instr), i = .encs ∨ (∃ more, i = .decs more) → decodeWord s.opr = .command i →
    atStart s = true → (s.kv = true → legalWidth s.ew.toNat) →
    exec i s = .next (enginePieces (referencePieces i s) s)

/-- 40_command_control.md R105, R107: from every sound state with a command under way and no event pending, the engine
reaches the completion, within the largest count of 70_reset_and_hazards.md R245. The bound counts the pieces of log
entry 5, whose division is the model's; the spec's rule asks only for a finite number of steps. -/
def Obligations.EveryCommandCompletes : Prop :=
  ∀ s : State, Sound s → s.busy = true → s.inputs = [] →
    ∃ (n : Nat) (t : State), n ≤ 264194 ∧ Host.Core.run Sys2Proof.core n s = .next t ∧
      t.busy = false ∧ t.done = true ∧ t.ph = .idle

/-- 20_memory.md R63, R61: a write that is no bus error to `CMD`, an operand register, `DIN`, `KEY` or `MBUF` while
`BUSY` = 1 is acknowledged, changes none of them and sets `LOST`; writes to `CTRL` and `STATUS` take effect, busy or
idle: to `CTRL` on `IE` alone (10_state.md R25), to `STATUS` on the two W1C bits alone (R26). -/
def Obligations.WritesWhileBusyAreDropped : Prop :=
  ∀ (s : State) (tr : Transfer) (es : List Event), s.inputs = .hostTransfer tr :: es →
    tr.we = true → busErrorCause s.build tr = none →
    (s.busy = true →
      tr.addr.toNat ∈ [0x010, 0x014, 0x018, 0x01C, 0x020, 0x024, 0x028] ∨
        (0x0040 ≤ tr.addr.toNat ∧ tr.addr.toNat < 0x0050) ∨ 0x0100 ≤ tr.addr.toNat →
      step s = .next { s with
        inputs := es, lost := true, answer := { ack := true, err := false, rdata := 0 } }) ∧
    (tr.addr.toNat = 0x008 → step s = .next { s with
        inputs := es, ie := tr.wdata.getLsbD 0, answer := { ack := true, err := false, rdata := 0 } }) ∧
    (tr.addr.toNat = 0x00C → step s = .next { s with
        inputs := es, done := s.done && !tr.wdata.getLsbD 1, lost := s.lost && !tr.wdata.getLsbD 3,
        answer := { ack := true, err := false, rdata := 0 } })

/-- 20_memory.md R63: no step but a reset changes an operand of a command while `BUSY` = 1: the operand registers and
the bytes of `DIN` and `KEY` stay, and a host step changes no byte of memory at all. (That `OPR` stays at the
completion too is the model's, log entry 13.) -/
def Obligations.BusyFreezesOperands : Prop :=
  ∀ s t : State, s.busy = true → (∀ es, s.inputs ≠ .reset :: es) → step s = .next t →
    t.wordbits = s.wordbits ∧ t.rounds = s.rounds ∧ t.keylen = s.keylen ∧ t.strip = s.strip ∧
    t.dlen = s.dlen ∧ t.mlen = s.mlen ∧ t.opr = s.opr ∧
    (∀ x, (0x0040 ≤ x ∧ x < 0x0050) ∨ (0x0100 ≤ x ∧ x < 0x0200) → memRead t.mem x = memRead s.mem x) ∧
    (∀ tr es, s.inputs = .hostTransfer tr :: es → t.mem = s.mem)

/-- 60_exceptions.md R221, 40_command_control.md R105: with `PH` = IDLE the engine has no step. With no event pending a
step leaves the whole state as it is, and an engine's turn among the events takes only itself off the list. (The event
list and the port's answer that stays are the model's, log entries 4 and 6.) -/
def Obligations.IdleEngineDoesNothing : Prop :=
  ∀ s : State, s.ph = .idle →
    (s.inputs = [] → step s = .next s) ∧
    (∀ e es, s.inputs = e :: es → e = .engineRun ∨ e = .enginePiece → step s = .next (afterEvent s es))

/-- 20_memory.md R62, 40_command_control.md R102: a piece of a command that is not its completion leaves `DOUT`,
`OUTLEN`, `EPARAM`, `KEYVALID`, `ERR` and `DONE` as they were. -/
def Obligations.ResultsAppearOnlyAtCompletion : Prop :=
  ∀ s : State, (enginePiece s).busy = true →
    (∀ x, 0x0050 ≤ x → x < 0x0060 → memRead (enginePiece s).mem x = memRead s.mem x) ∧
    (enginePiece s).outlen = s.outlen ∧ regRead (enginePiece s) .eparam = regRead s .eparam ∧
    (enginePiece s).kv = s.kv ∧ (enginePiece s).err = s.err ∧ (enginePiece s).done = s.done

/-! ### The host port -/

/-- 60_exceptions.md R210, R211, 20_memory.md R58: every step answers a next state, but for a host transfer that is a
bus error, whose answer is `ack` = 1, `err` = 1, `rdata` = 0; no command and no engine step stops. -/
def Obligations.OnlyBusErrorsStop : Prop :=
  ∀ s : State, (∃ t, step s = .next t) ∨
    ∃ tr es c, s.inputs = .hostTransfer tr :: es ∧ busErrorCause s.build tr = some c ∧
      step s = .fault (.busError c { ack := true, err := true, rdata := 0 })

/-- 20_memory.md R57, R52: the exact conditions of a bus error, with the reserved ranges of the map written out. -/
def Obligations.BusErrorExactlyWhen : Prop :=
  ∀ (s : State) (tr : Transfer) (es : List Event), s.inputs = .hostTransfer tr :: es →
    ((∃ f, step s = .fault f) ↔
      tr.size = 3 ∨
      tr.addr.toNat % 2 ^ tr.size.toNat ≠ 0 ∨
      (∃ o, o < 2 ^ tr.size.toNat ∧
        ((0x0034 ≤ tr.addr.toNat + o ∧ tr.addr.toNat + o ≤ 0x003F) ∨
         (0x0060 ≤ tr.addr.toNat + o ∧ tr.addr.toNat + o ≤ 0x00FF) ∨
         (0x0200 ≤ tr.addr.toNat + o ∧ tr.addr.toNat + o ≤ 0x0FFF) ∨
         0x1000 + s.build.mbufBytes ≤ tr.addr.toNat + o)) ∨
      (tr.addr.toNat ≤ 0x0033 ∧ 2 ^ tr.size.toNat ≠ 4))

/-- 20_memory.md R60, R66, R53: a read that is no bus error changes no state (the port's answer, the event list and the
draw count are not the engine's), and answers the register, or the bytes held in little-endian order on their lanes. -/
def Obligations.ReadsHaveNoSideEffect : Prop :=
  ∀ (s : State) (tr : Transfer) (es : List Event), s.inputs = .hostTransfer tr :: es → tr.we = false →
    busErrorCause s.build tr = none →
    ∃ t, step s = .next t ∧
      t = { s with inputs := es, answer := t.answer, draws := t.draws } ∧
      t.answer.ack = true ∧ t.answer.err = false ∧
      (∀ r, regAt tr.addr.toNat = some r → t.answer.rdata = regRead s r) ∧
      (0x0040 ≤ tr.addr.toNat → tr.addr.toNat < 0x1000 ∨ streamInProgress s = false → ∀ xs : List Byte,
        xs.length = 2 ^ tr.size.toNat →
        (∀ k, k < xs.length → memRead s.mem (tr.addr.toNat + k) = some (xs.getD k 0)) →
        t.answer.rdata.toNat =
          ((List.range xs.length).map fun k => (xs.getD k 0).toNat * 2 ^ (8 * (tr.addr.toNat % 4 + k))).sum)

/-- 10_state.md R28 to R33, 20_memory.md R61: while idle, a 4-byte write to an operand register is held in full (of
`STRIP`, bit 0), nothing else changes, and the register reads back the word held (of `STRIP`, bits [31:1] 0). -/
def Obligations.IdleRegisterWritesAreHeld : Prop :=
  ∀ (s : State) (v : Reg) (es : List Event), s.busy = false →
    (s.inputs = .hostTransfer (w32 0x014 v) :: es → ∃ t, step s = .next t ∧
      t = { s with inputs := es, wordbits := v, answer := { ack := true, err := false, rdata := 0 } } ∧
      regRead t .wordbits = v) ∧
    (s.inputs = .hostTransfer (w32 0x018 v) :: es → ∃ t, step s = .next t ∧
      t = { s with inputs := es, rounds := v, answer := { ack := true, err := false, rdata := 0 } } ∧
      regRead t .rounds = v) ∧
    (s.inputs = .hostTransfer (w32 0x01C v) :: es → ∃ t, step s = .next t ∧
      t = { s with inputs := es, keylen := v, answer := { ack := true, err := false, rdata := 0 } } ∧
      regRead t .keylen = v) ∧
    (s.inputs = .hostTransfer (w32 0x020 v) :: es → ∃ t, step s = .next t ∧
      t = { s with inputs := es, strip := v.getLsbD 0, answer := { ack := true, err := false, rdata := 0 } } ∧
      regRead t .strip = v &&& 1) ∧
    (s.inputs = .hostTransfer (w32 0x024 v) :: es → ∃ t, step s = .next t ∧
      t = { s with inputs := es, dlen := v, answer := { ack := true, err := false, rdata := 0 } } ∧
      regRead t .dlen = v) ∧
    (s.inputs = .hostTransfer (w32 0x028 v) :: es → ∃ t, step s = .next t ∧
      t = { s with inputs := es, mlen := v, answer := { ack := true, err := false, rdata := 0 } } ∧
      regRead t .mlen = v)

/-- 20_memory.md R67, R61, R53: while idle, an aligned write of 1, 2 or 4 bytes to `DIN`, `KEY` or `MBUF` puts byte `k`
of its value at address + `k`, leaves every other byte alone, and changes nothing else. -/
def Obligations.BufferWritesArePlacedBytewise : Prop :=
  ∀ (s : State) (tr : Transfer) (es : List Event), s.inputs = .hostTransfer tr :: es → s.busy = false →
    tr.we = true → busErrorCause s.build tr = none →
    (0x0040 ≤ tr.addr.toNat ∧ tr.addr.toNat < 0x0050) ∨ 0x0100 ≤ tr.addr.toNat →
    ∃ t, step s = .next t ∧
      t = { s with inputs := es, mem := t.mem, answer := { ack := true, err := false, rdata := 0 } } ∧
      (∀ k, k < 2 ^ tr.size.toNat → memRead t.mem (tr.addr.toNat + k) =
        some (tr.wdata.extractLsb' (8 * (tr.addr.toNat % 4 + k)) 8)) ∧
      (∀ x, x < tr.addr.toNat ∨ tr.addr.toNat + 2 ^ tr.size.toNat ≤ x → memRead t.mem x = memRead s.mem x)

/-- 20_memory.md R64, R59: a write to `ID`, `CAPS`, `OUTLEN`, `EPARAM` or `DOUT` is acknowledged and changes nothing,
`LOST` included, busy or not; a write to a reserved address is a bus error. -/
def Obligations.ReadOnlyWritesAreIgnored : Prop :=
  ∀ (s : State) (tr : Transfer) (es : List Event), s.inputs = .hostTransfer tr :: es → tr.we = true →
    (busErrorCause s.build tr = none →
      tr.addr.toNat ∈ [0x000, 0x004, 0x02C, 0x030] ∨ (0x0050 ≤ tr.addr.toNat ∧ tr.addr.toNat < 0x0060) →
      step s = .next { s with inputs := es, answer := { ack := true, err := false, rdata := 0 } }) ∧
    ((0x0034 ≤ tr.addr.toNat ∧ tr.addr.toNat < 0x0040) ∨ (0x0060 ≤ tr.addr.toNat ∧ tr.addr.toNat < 0x0100) ∨
        (0x0200 ≤ tr.addr.toNat ∧ tr.addr.toNat < 0x1000) ∨ 0x1000 + s.build.mbufBytes ≤ tr.addr.toNat →
      ∃ f, step s = .fault f)

/-- 60_exceptions.md R207, R208: `irq` is `IE and DONE`, `DONE` readable at any time; a completion, and nothing else,
raises `DONE`; a write of 1 to `STATUS.DONE`, an acceptance and a reset clear it, clearing `IE` masks it without
clearing `DONE`, and setting `IE` again with `DONE` = 1 raises it at once. -/
def Obligations.InterruptIsEnableAndDone : Prop :=
  (∀ s : State, (irq s = true ↔ s.ie = true ∧ s.done = true) ∧ (regRead s .status).getLsbD 1 = s.done) ∧
  (∀ s t : State, step s = .next t → s.done = false → t.done = true →
    s.ph ≠ .idle ∧ t.ph = .idle ∧ t.busy = false ∧ irq t = s.ie) ∧
  (∀ (s t : State) (i : Instr), exec i s = .next t → irq t = s.ie) ∧
  (∀ (s : State) (v : Reg) (es : List Event), s.inputs = .hostTransfer (w32 0x00C v) :: es →
    v.getLsbD 1 = true → ∃ t, step s = .next t ∧ t.done = false ∧ irq t = false) ∧
  (∀ (s : State) (v : Reg) (es : List Event), s.inputs = .hostTransfer (w32 0x008 v) :: es →
    ∃ t, step s = .next t ∧ t.done = s.done ∧ irq t = (v.getLsbD 0 && s.done)) ∧
  (∀ (s : State) (v : Reg) (es : List Event), s.inputs = .hostTransfer (w32 0x010 v) :: es → s.busy = false →
    ∃ t, step s = .next t ∧ t.done = false ∧ irq t = false) ∧
  (∀ (s : State) (es : List Event), s.inputs = .reset :: es →
    ∃ t, step s = .next t ∧ t.done = false ∧ irq t = false)

/-- 70_reset_and_hazards.md R230, R231: a reset edge, whatever the block is doing, puts every piece of state at its
reset value; a command under way is abandoned without a completion, and every byte of `MBUF` is unspecified. (That the
build and the event list stay and the draw count goes on is the model's, log entry 12, and so is the port's answer, all
0 after a reset, log entry 6.) -/
def Obligations.ResetEdgeClearsTheBlock : Prop :=
  ∀ (s : State) (es : List Event), s.inputs = .reset :: es →
    ∃ t, step s = .next t ∧
      t = { State.reset with build := s.build, inputs := es, draws := t.draws } ∧
      t.busy = false ∧ t.done = false ∧ t.kv = false ∧ irq t = false ∧
      ∀ x, 0x1000 ≤ x → memRead t.mem x = none

/-- 10_state.md R41, R42, 60_exceptions.md R220: no host read shows anything of `S` or `L`: the answer to every
transfer is the same whatever they hold. -/
def Obligations.ScheduleIsNotReadable : Prop :=
  ∀ (s t : State) (tr : Transfer) (es : List Event) (sram lram : EntryRam),
    s.inputs = .hostTransfer tr :: es → step s = .next t →
    ∃ t', step { s with sram := sram, lram := lram } = .next t' ∧ t' = { t with sram := sram, lram := lram }
end

