-- ==== Sys2Proof/Laws/Cells.lean ====
section
/-! SUPPORT. Lists of cells: read after write, what a write leaves alone, and the canonical form. -/

namespace Sys2Proof.Machine

variable {α : Type}

@[simp] theorem cellFind_nil (x : Nat) : cellFind x ([] : List (Nat × α)) = none := rfl

@[simp] theorem cellFind_cellSet_same (x : Nat) (v : α) (m : List (Nat × α)) :
    cellFind x (cellSet x v m) = some v := by
  induction m with
  | nil => simp [cellSet, cellFind]
  | cons c m ih =>
    obtain ⟨y, u⟩ := c
    simp only [cellSet]
    split
    · simp [cellFind]
    · split
      · simp [cellFind]
      · simp [cellFind, *]

theorem cellFind_cellSet_other {x y : Nat} (h : y ≠ x) (v : α) (m : List (Nat × α)) :
    cellFind y (cellSet x v m) = cellFind y m := by
  induction m with
  | nil => simp [cellSet, cellFind, h]
  | cons c m ih =>
    obtain ⟨z, u⟩ := c
    simp only [cellSet]
    split
    · simp [cellFind, h]
    · split
      · subst_vars; simp [cellFind, h]
      · simp [cellFind, ih]

theorem cellFind_cellSet (x y : Nat) (v : α) (m : List (Nat × α)) :
    cellFind y (cellSet x v m) = if y = x then some v else cellFind y m := by
  split
  · subst_vars; simp
  · exact cellFind_cellSet_other ‹_› v m

theorem cellFind_cellErase (x y : Nat) (m : List (Nat × α)) :
    cellFind y (cellErase x m) = if y = x then none else cellFind y m := by
  induction m with
  | nil => simp [cellErase]
  | cons c m ih =>
    obtain ⟨z, u⟩ := c
    by_cases hx : x = z
    · subst hx
      rw [cellErase, if_pos rfl, ih]
      by_cases hy : y = x <;> simp [cellFind, hy]
    · by_cases hy : y = x
      · subst hy; simp [cellErase, cellFind, ih, hx]
      · simp [cellErase, cellFind, ih, hx, hy]

/-- `cellSetFrom` lists its values at consecutive addresses and leaves every other cell alone. -/
theorem cellFind_cellSetFrom (vs : List α) (x y : Nat) (m : List (Nat × α)) :
    cellFind y (cellSetFrom x vs m) = if x ≤ y ∧ y < x + vs.length then vs[y - x]? else cellFind y m := by
  induction vs generalizing x m with
  | nil => simp only [cellSetFrom, List.length_nil]; split <;> [omega; rfl]
  | cons v vs ih =>
    rw [cellSetFrom, ih, cellFind_cellSet, List.length_cons]
    by_cases h1 : x + 1 ≤ y ∧ y < x + 1 + vs.length
    · rw [if_pos h1, if_pos (by omega), show y - x = (y - (x + 1)) + 1 by omega, List.getElem?_cons_succ]
    · rw [if_neg h1]
      by_cases h2 : y = x
      · subst h2; simp
      · rw [if_neg h2, if_neg (by omega)]

/-! ### The canonical form -/

theorem cellsAbove_cons (x : Nat) (c : Nat × α) (m : List (Nat × α)) :
    cellsAbove x (c :: m) = (decide (x < c.1) && cellsAbove x m) := rfl

theorem cellsAbove_trans {x y : Nat} (h : x < y) {m : List (Nat × α)} (hm : cellsAbove y m = true) :
    cellsAbove x m = true := by
  simp only [cellsAbove, List.all_eq_true, decide_eq_true_eq] at *
  exact fun c hc => h.trans (hm c hc)

theorem cellsAbove_cellSet {x y : Nat} (h : x < y) (v : α) {m : List (Nat × α)}
    (hm : cellsAbove x m = true) : cellsAbove x (cellSet y v m) = true := by
  induction m with
  | nil => simp [cellSet, cellsAbove, h]
  | cons c m ih =>
    obtain ⟨z, u⟩ := c
    simp only [cellsAbove_cons, Bool.and_eq_true, decide_eq_true_eq] at hm
    simp only [cellSet]
    split
    · simp [cellsAbove_cons, h, hm.1, hm.2]
    · split
      · simp [cellsAbove_cons, h, hm.2]
      · simp [cellsAbove_cons, hm.1, ih hm.2]

theorem cellsAbove_cellErase {x : Nat} (y : Nat) {m : List (Nat × α)}
    (hm : cellsAbove x m = true) : cellsAbove x (cellErase y m) = true := by
  induction m with
  | nil => rfl
  | cons c m ih =>
    obtain ⟨z, u⟩ := c
    simp only [cellsAbove_cons, Bool.and_eq_true, decide_eq_true_eq] at hm
    simp only [cellErase]
    split
    · exact ih hm.2
    · simp [cellsAbove_cons, hm.1, ih hm.2]

theorem cellsRising_cellSet (x : Nat) (v : α) {m : List (Nat × α)} (hm : cellsRising m = true) :
    cellsRising (cellSet x v m) = true := by
  induction m with
  | nil => simp [cellSet, cellsRising, cellsAbove]
  | cons c m ih =>
    obtain ⟨z, u⟩ := c
    simp only [cellsRising, Bool.and_eq_true] at hm
    simp only [cellSet]
    split
    · rename_i h
      simp [cellsRising, cellsAbove_cons, hm.1, hm.2, h, cellsAbove_trans h hm.1]
    · split
      · subst_vars; simp [cellsRising, hm.1, hm.2]
      · have h : z < x := by omega
        simp [cellsRising, cellsAbove_cellSet h v hm.1, ih hm.2]

theorem cellsRising_cellErase (x : Nat) {m : List (Nat × α)} (hm : cellsRising m = true) :
    cellsRising (cellErase x m) = true := by
  induction m with
  | nil => rfl
  | cons c m ih =>
    obtain ⟨z, u⟩ := c
    simp only [cellsRising, Bool.and_eq_true] at hm
    simp only [cellErase]
    split
    · exact ih hm.2
    · simp [cellsRising, cellsAbove_cellErase x hm.1, ih hm.2]

theorem cellsRising_cellSetFrom (vs : List α) (x : Nat) {m : List (Nat × α)} (hm : cellsRising m = true) :
    cellsRising (cellSetFrom x vs m) = true := by
  induction vs generalizing x m with
  | nil => exact hm
  | cons v vs ih => exact ih (x + 1) (cellsRising_cellSet x v hm)

theorem cellFind_none_of_above {x y : Nat} (h : x ≤ y) {m : List (Nat × α)} (hm : cellsAbove y m = true) :
    cellFind x m = none := by
  induction m with
  | nil => rfl
  | cons c m ih =>
    obtain ⟨z, u⟩ := c
    simp only [cellsAbove_cons, Bool.and_eq_true, decide_eq_true_eq] at hm
    rw [cellFind, if_neg (by omega)]
    exact ih hm.2

theorem cellFind_head (c : Nat × α) (m : List (Nat × α)) : cellFind c.1 (c :: m) = some c.2 := by
  simp [cellFind]

/-- Two lists in rising order that hold the same at every address are the same list: equal memories are equal
data. -/
theorem cells_ext {m n : List (Nat × α)} (hm : cellsRising m = true) (hn : cellsRising n = true)
    (h : ∀ x, cellFind x m = cellFind x n) : m = n := by
  induction m generalizing n with
  | nil =>
    cases n with
    | nil => rfl
    | cons d n => simpa [cellFind] using h d.1
  | cons c m ih =>
    cases n with
    | nil => simpa [cellFind] using h c.1
    | cons d n =>
      obtain ⟨y, u⟩ := c
      obtain ⟨z, v⟩ := d
      simp only [cellsRising, Bool.and_eq_true] at hm hn
      have hyz : y = z := by
        rcases Nat.lt_trichotomy y z with hlt | heq | hgt
        · have := h y
          rw [cellFind_head (y, u) m, cellFind, if_neg (by omega),
            cellFind_none_of_above (Nat.le_of_lt hlt) hn.1] at this
          simp at this
        · exact heq
        · have := h z
          rw [cellFind_head (z, v) n, cellFind, if_neg (by omega),
            cellFind_none_of_above (Nat.le_of_lt hgt) hm.1] at this
          simp at this
      subst hyz
      have huv : u = v := by simpa [cellFind] using h y
      subst huv
      rw [ih hm.2 hn.2]
      intro x
      by_cases hx : x = y
      · subst hx
        rw [cellFind_none_of_above (Nat.le_refl _) hm.1, cellFind_none_of_above (Nat.le_refl _) hn.1]
      · simpa [cellFind, hx] using h x

end Sys2Proof.Machine
end

