-- ==== Sys2Proof/Laws/Memory.lean ====
section
/-! SUPPORT. Bytes of the host address space: read after write, what a write leaves alone, and that every memory
operation keeps the canonical form. -/

namespace Sys2Proof.Machine

theorem memRead_memWrite (m : Memory) (x y : Nat) (v : Byte) :
    memRead (memWrite m x v) y = if y = x then some v else memRead m y := by
  unfold memRead memWrite
  by_cases hv : unlistedByte x = some v
  · rw [if_pos hv, cellFind_cellErase]
    by_cases hy : y = x
    · subst hy; simp [hv]
    · simp [hy]
  · rw [if_neg hv, cellFind_cellSet]
    by_cases hy : y = x
    · subst hy; simp
    · simp [hy]

@[simp] theorem memRead_memWrite_same (m : Memory) (x : Nat) (v : Byte) :
    memRead (memWrite m x v) x = some v := by simp [memRead_memWrite]

/-- What writing consecutive bytes does, at every address. -/
theorem memRead_memWriteBytes (vs : List Byte) (m : Memory) (x y : Nat) :
    memRead (memWriteBytes m x vs) y =
      if x ≤ y ∧ y < x + vs.length then vs[y - x]? else memRead m y := by
  induction vs generalizing m x with
  | nil => simp only [memWriteBytes, List.length_nil]; split <;> [omega; rfl]
  | cons v vs ih =>
    rw [memWriteBytes, ih, memRead_memWrite, List.length_cons]
    by_cases h1 : x + 1 ≤ y ∧ y < x + 1 + vs.length
    · rw [if_pos h1, if_pos (by omega), show y - x = (y - (x + 1)) + 1 by omega, List.getElem?_cons_succ]
    · rw [if_neg h1]
      by_cases h2 : y = x
      · subst h2; simp
      · rw [if_neg h2, if_neg (by omega)]

theorem memRead_memWriteBytes_in {vs : List Byte} {m : Memory} {x k : Nat} (h : k < vs.length) :
    memRead (memWriteBytes m x vs) (x + k) = some vs[k] := by
  rw [memRead_memWriteBytes, if_pos (by omega)]
  simp [show x + k - x = k by omega, h]

theorem memRead_memWriteBytes_out {vs : List Byte} {m : Memory} {x y : Nat}
    (h : y < x ∨ x + vs.length ≤ y) : memRead (memWriteBytes m x vs) y = memRead m y := by
  rw [memRead_memWriteBytes, if_neg (by omega)]

/-- A byte is what is held there when something is. -/
theorem byteAt_of_memRead {r : Reader} {m : Memory} {d x : Nat} {v : Byte} (h : memRead m x = some v) :
    byteAt r m d x = v := by simp [byteAt, h]

theorem byteAt_congr {m n : Memory} {x : Nat} (h : memRead m x = memRead n x) (r : Reader) (d : Nat) :
    byteAt r m d x = byteAt r n d x := by simp [byteAt, h]

@[simp] theorem bytesAt_length (m : Memory) (d x n : Nat) : (bytesAt m d x n).length = n := by
  simp [bytesAt]

theorem bytesAt_getElem {m : Memory} {d x n k : Nat} (h : k < (bytesAt m d x n).length) :
    (bytesAt m d x n)[k] = byteAt .engine m d (x + k) := by simp [bytesAt]

theorem bytesAt_congr {m n : Memory} {d x len : Nat}
    (h : ∀ k < len, memRead m (x + k) = memRead n (x + k)) : bytesAt m d x len = bytesAt n d x len := by
  simp only [bytesAt]
  exact List.map_congr_left fun k hk => byteAt_congr (h k (List.mem_range.mp hk)) _ d

/-- Bytes just written read back, whatever the draw. -/
theorem bytesAt_memWriteBytes_same (m : Memory) (d x : Nat) (vs : List Byte) :
    bytesAt (memWriteBytes m x vs) d x vs.length = vs := by
  apply List.ext_getElem
  · simp
  · intro k h1 h2
    rw [bytesAt_getElem, byteAt_of_memRead (memRead_memWriteBytes_in h2)]

/-! ### The canonical form -/

theorem cellsInformative_cellSet {m : Memory} {x : Nat} {v : Byte} (h : unlistedByte x ≠ some v)
    (hm : cellsInformative m = true) : cellsInformative (cellSet x v m) = true := by
  induction m with
  | nil => simpa [cellSet, cellsInformative] using h
  | cons c m ih =>
    obtain ⟨y, u⟩ := c
    simp only [cellsInformative, List.all_cons, Bool.and_eq_true, decide_eq_true_eq] at hm ih ⊢
    simp only [cellSet]
    split
    · simp only [List.all_cons, Bool.and_eq_true, decide_eq_true_eq]; exact ⟨h, hm⟩
    · split
      · simp only [List.all_cons, Bool.and_eq_true, decide_eq_true_eq]; exact ⟨h, hm.2⟩
      · simp only [List.all_cons, Bool.and_eq_true, decide_eq_true_eq]; exact ⟨hm.1, ih hm.2⟩

theorem cellsInformative_cellErase {m : Memory} (x : Nat) (hm : cellsInformative m = true) :
    cellsInformative (cellErase x m) = true := by
  induction m with
  | nil => rfl
  | cons c m ih =>
    obtain ⟨y, u⟩ := c
    simp only [cellsInformative, List.all_cons, Bool.and_eq_true, decide_eq_true_eq] at hm ih ⊢
    simp only [cellErase]
    split
    · exact ih hm.2
    · simp only [List.all_cons, Bool.and_eq_true, decide_eq_true_eq]; exact ⟨hm.1, ih hm.2⟩

theorem memWrite_wf {m : Memory} (x : Nat) (v : Byte) (hm : Memory.wf m = true) :
    Memory.wf (memWrite m x v) = true := by
  simp only [Memory.wf, Bool.and_eq_true] at hm ⊢
  unfold memWrite
  split
  · exact ⟨cellsRising_cellErase x hm.1, cellsInformative_cellErase x hm.2⟩
  · exact ⟨cellsRising_cellSet x v hm.1, cellsInformative_cellSet ‹_› hm.2⟩

theorem memWriteBytes_wf (vs : List Byte) {m : Memory} (x : Nat) (hm : Memory.wf m = true) :
    Memory.wf (memWriteBytes m x vs) = true := by
  induction vs generalizing m x with
  | nil => exact hm
  | cons v vs ih => exact ih (x + 1) (memWrite_wf x v hm)

theorem reset_mem_wf : Memory.wf State.reset.mem = true := by decide

/-- Two canonical memories that read the same everywhere are the same list. -/
theorem memory_ext {m n : Memory} (hm : Memory.wf m = true) (hn : Memory.wf n = true)
    (h : ∀ x, memRead m x = memRead n x) : m = n := by
  simp only [Memory.wf, Bool.and_eq_true] at hm hn
  refine cells_ext hm.1 hn.1 fun x => ?_
  have key : ∀ {m : Memory}, cellsInformative m = true → ∀ v, cellFind x m = some v → unlistedByte x ≠ some v := by
    intro m hi v hv
    induction m with
    | nil => simp at hv
    | cons c m ih =>
      obtain ⟨y, u⟩ := c
      simp only [cellsInformative, List.all_cons, Bool.and_eq_true, decide_eq_true_eq] at hi ih
      rw [cellFind] at hv
      split at hv
      · subst_vars; simp only [Option.some.injEq] at hv; subst hv; exact hi.1
      · exact ih hi.2 hv
  have hx := h x
  unfold memRead at hx
  cases hfm : cellFind x m with
  | none =>
    cases hfn : cellFind x n with
    | none => rfl
    | some v => rw [hfm, hfn] at hx; exact absurd hx (key hn.2 v hfn)
  | some u =>
    cases hfn : cellFind x n with
    | none => rw [hfm, hfn] at hx; exact absurd hx.symm (key hm.2 u hfm)
    | some v => rw [hfm, hfn] at hx; exact hx

/-! ### Where cells lie -/

theorem mem_cellSet {α : Type} {x : Nat} {v : α} {m : List (Nat × α)} {c : Nat × α}
    (h : c ∈ cellSet x v m) : c = (x, v) ∨ c ∈ m := by
  induction m with
  | nil => simpa [cellSet] using h
  | cons d m ih =>
    obtain ⟨y, u⟩ := d
    simp only [cellSet] at h
    split at h
    · simpa using h
    · split at h
      · simp only [List.mem_cons] at h ⊢; tauto
      · simp only [List.mem_cons] at h ⊢
        rcases h with h | h
        · exact .inr (.inl h)
        · rcases ih h with h | h <;> tauto

theorem mem_cellErase {α : Type} {x : Nat} {m : List (Nat × α)} {c : Nat × α}
    (h : c ∈ cellErase x m) : c ∈ m := by
  induction m with
  | nil => exact h
  | cons d m ih =>
    obtain ⟨y, u⟩ := d
    simp only [cellErase] at h
    split at h
    · exact List.mem_cons_of_mem _ (ih h)
    · simp only [List.mem_cons] at h ⊢
      exact h.imp id ih

/-- A cell of memory after a write of bytes is an old one or lies among the addresses written. -/
theorem mem_memWriteBytes {vs : List Byte} {m : Memory} {x : Nat} {c : Host.Cell}
    (h : c ∈ memWriteBytes m x vs) : c ∈ m ∨ (x ≤ c.1 ∧ c.1 < x + vs.length) := by
  induction vs generalizing m x with
  | nil => exact .inl h
  | cons v vs ih =>
    rcases ih h with h | h
    · unfold memWrite at h
      split at h
      · exact .inl (mem_cellErase h)
      · rcases mem_cellSet h with h | h
        · subst h; exact .inr ⟨Nat.le_refl _, by simp⟩
        · exact .inl h
    · exact .inr ⟨by omega, by simp only [List.length_cons]; omega⟩

end Sys2Proof.Machine
end

