-- ==== Sys2Proof/Laws/State.lean ====
section
/-! SUPPORT. One lemma for each field of each whole-state update that the commands share, so that no later proof
unfolds a record update: acceptance, completion, dropping an event. -/

namespace Sys2Proof.Machine

variable (s : State)

/-! ### Acceptance (40_command_control.md R101) -/

@[simp] theorem accept_build (v : Reg) : (accept v s).build = s.build := rfl
@[simp] theorem accept_inputs (v : Reg) : (accept v s).inputs = s.inputs := rfl
@[simp] theorem accept_draws (v : Reg) : (accept v s).draws = s.draws := rfl
@[simp] theorem accept_answer (v : Reg) : (accept v s).answer = s.answer := rfl
@[simp] theorem accept_ie (v : Reg) : (accept v s).ie = s.ie := rfl
@[simp] theorem accept_busy (v : Reg) : (accept v s).busy = true := rfl
@[simp] theorem accept_done (v : Reg) : (accept v s).done = false := rfl
@[simp] theorem accept_lost (v : Reg) : (accept v s).lost = s.lost := rfl
@[simp] theorem accept_err (v : Reg) : (accept v s).err = .success := rfl
@[simp] theorem accept_wordbits (v : Reg) : (accept v s).wordbits = s.wordbits := rfl
@[simp] theorem accept_rounds (v : Reg) : (accept v s).rounds = s.rounds := rfl
@[simp] theorem accept_keylen (v : Reg) : (accept v s).keylen = s.keylen := rfl
@[simp] theorem accept_strip (v : Reg) : (accept v s).strip = s.strip := rfl
@[simp] theorem accept_dlen (v : Reg) : (accept v s).dlen = s.dlen := rfl
@[simp] theorem accept_mlen (v : Reg) : (accept v s).mlen = s.mlen := rfl
@[simp] theorem accept_outlen (v : Reg) : (accept v s).outlen = s.outlen := rfl
@[simp] theorem accept_mem (v : Reg) : (accept v s).mem = s.mem := rfl
@[simp] theorem accept_ew (v : Reg) : (accept v s).ew = s.ew := rfl
@[simp] theorem accept_er (v : Reg) : (accept v s).er = s.er := rfl
@[simp] theorem accept_estrip (v : Reg) : (accept v s).estrip = s.estrip := rfl
@[simp] theorem accept_kv (v : Reg) : (accept v s).kv = s.kv := rfl
@[simp] theorem accept_sram (v : Reg) : (accept v s).sram = s.sram := rfl
@[simp] theorem accept_lram (v : Reg) : (accept v s).lram = s.lram := rfl
@[simp] theorem accept_a (v : Reg) : (accept v s).a = s.a := rfl
@[simp] theorem accept_b (v : Reg) : (accept v s).b = s.b := rfl
@[simp] theorem accept_i (v : Reg) : (accept v s).i = s.i := rfl
@[simp] theorem accept_j (v : Reg) : (accept v s).j = s.j := rfl
@[simp] theorem accept_k (v : Reg) : (accept v s).k = s.k := rfl
@[simp] theorem accept_rc (v : Reg) : (accept v s).rc = s.rc := rfl
@[simp] theorem accept_blk (v : Reg) : (accept v s).blk = s.blk := rfl
@[simp] theorem accept_ph (v : Reg) : (accept v s).ph = firstPhase (decodeWord v) := rfl
@[simp] theorem accept_begun (v : Reg) : (accept v s).begun = false := rfl
@[simp] theorem accept_opr (v : Reg) : (accept v s).opr = v := rfl

/-! ### Completion (40_command_control.md R102) -/

@[simp] theorem completeWith_build (e : ErrorCode) : (completeWith e s).build = s.build := rfl
@[simp] theorem completeWith_inputs (e : ErrorCode) : (completeWith e s).inputs = s.inputs := rfl
@[simp] theorem completeWith_draws (e : ErrorCode) : (completeWith e s).draws = s.draws := rfl
@[simp] theorem completeWith_answer (e : ErrorCode) : (completeWith e s).answer = s.answer := rfl
@[simp] theorem completeWith_ie (e : ErrorCode) : (completeWith e s).ie = s.ie := rfl
@[simp] theorem completeWith_busy (e : ErrorCode) : (completeWith e s).busy = false := rfl
@[simp] theorem completeWith_done (e : ErrorCode) : (completeWith e s).done = true := rfl
@[simp] theorem completeWith_lost (e : ErrorCode) : (completeWith e s).lost = s.lost := rfl
@[simp] theorem completeWith_err (e : ErrorCode) : (completeWith e s).err = e := rfl
@[simp] theorem completeWith_wordbits (e : ErrorCode) : (completeWith e s).wordbits = s.wordbits := rfl
@[simp] theorem completeWith_rounds (e : ErrorCode) : (completeWith e s).rounds = s.rounds := rfl
@[simp] theorem completeWith_keylen (e : ErrorCode) : (completeWith e s).keylen = s.keylen := rfl
@[simp] theorem completeWith_strip (e : ErrorCode) : (completeWith e s).strip = s.strip := rfl
@[simp] theorem completeWith_dlen (e : ErrorCode) : (completeWith e s).dlen = s.dlen := rfl
@[simp] theorem completeWith_mlen (e : ErrorCode) : (completeWith e s).mlen = s.mlen := rfl
@[simp] theorem completeWith_outlen (e : ErrorCode) : (completeWith e s).outlen = s.outlen := rfl
@[simp] theorem completeWith_mem (e : ErrorCode) : (completeWith e s).mem = s.mem := rfl
@[simp] theorem completeWith_ew (e : ErrorCode) : (completeWith e s).ew = s.ew := rfl
@[simp] theorem completeWith_er (e : ErrorCode) : (completeWith e s).er = s.er := rfl
@[simp] theorem completeWith_estrip (e : ErrorCode) : (completeWith e s).estrip = s.estrip := rfl
@[simp] theorem completeWith_kv (e : ErrorCode) : (completeWith e s).kv = s.kv := rfl
@[simp] theorem completeWith_sram (e : ErrorCode) : (completeWith e s).sram = s.sram := rfl
@[simp] theorem completeWith_lram (e : ErrorCode) : (completeWith e s).lram = s.lram := rfl
@[simp] theorem completeWith_a (e : ErrorCode) : (completeWith e s).a = 0 := rfl
@[simp] theorem completeWith_b (e : ErrorCode) : (completeWith e s).b = 0 := rfl
@[simp] theorem completeWith_i (e : ErrorCode) : (completeWith e s).i = 0 := rfl
@[simp] theorem completeWith_j (e : ErrorCode) : (completeWith e s).j = 0 := rfl
@[simp] theorem completeWith_k (e : ErrorCode) : (completeWith e s).k = 0 := rfl
@[simp] theorem completeWith_rc (e : ErrorCode) : (completeWith e s).rc = 0 := rfl
@[simp] theorem completeWith_blk (e : ErrorCode) : (completeWith e s).blk = 0 := rfl
@[simp] theorem completeWith_ph (e : ErrorCode) : (completeWith e s).ph = .idle := rfl
@[simp] theorem completeWith_begun (e : ErrorCode) : (completeWith e s).begun = false := rfl
@[simp] theorem completeWith_opr (e : ErrorCode) : (completeWith e s).opr = s.opr := rfl

/-- Raising an error is completing with its code (R103). -/
@[simp] theorem raiseError_eq (e : ErrorCode) : raiseError e s = completeWith e s := rfl

/-! ### An event off the list -/

@[simp] theorem dropEvent_build (es : List Event) : (dropEvent s es).build = s.build := rfl
@[simp] theorem dropEvent_inputs (es : List Event) : (dropEvent s es).inputs = es := rfl
@[simp] theorem dropEvent_draws (es : List Event) : (dropEvent s es).draws = s.draws := rfl
@[simp] theorem dropEvent_answer (es : List Event) : (dropEvent s es).answer = s.answer := rfl
@[simp] theorem dropEvent_ie (es : List Event) : (dropEvent s es).ie = s.ie := rfl
@[simp] theorem dropEvent_busy (es : List Event) : (dropEvent s es).busy = s.busy := rfl
@[simp] theorem dropEvent_done (es : List Event) : (dropEvent s es).done = s.done := rfl
@[simp] theorem dropEvent_lost (es : List Event) : (dropEvent s es).lost = s.lost := rfl
@[simp] theorem dropEvent_err (es : List Event) : (dropEvent s es).err = s.err := rfl
@[simp] theorem dropEvent_wordbits (es : List Event) : (dropEvent s es).wordbits = s.wordbits := rfl
@[simp] theorem dropEvent_rounds (es : List Event) : (dropEvent s es).rounds = s.rounds := rfl
@[simp] theorem dropEvent_keylen (es : List Event) : (dropEvent s es).keylen = s.keylen := rfl
@[simp] theorem dropEvent_strip (es : List Event) : (dropEvent s es).strip = s.strip := rfl
@[simp] theorem dropEvent_dlen (es : List Event) : (dropEvent s es).dlen = s.dlen := rfl
@[simp] theorem dropEvent_mlen (es : List Event) : (dropEvent s es).mlen = s.mlen := rfl
@[simp] theorem dropEvent_outlen (es : List Event) : (dropEvent s es).outlen = s.outlen := rfl
@[simp] theorem dropEvent_mem (es : List Event) : (dropEvent s es).mem = s.mem := rfl
@[simp] theorem dropEvent_ew (es : List Event) : (dropEvent s es).ew = s.ew := rfl
@[simp] theorem dropEvent_er (es : List Event) : (dropEvent s es).er = s.er := rfl
@[simp] theorem dropEvent_estrip (es : List Event) : (dropEvent s es).estrip = s.estrip := rfl
@[simp] theorem dropEvent_kv (es : List Event) : (dropEvent s es).kv = s.kv := rfl
@[simp] theorem dropEvent_sram (es : List Event) : (dropEvent s es).sram = s.sram := rfl
@[simp] theorem dropEvent_lram (es : List Event) : (dropEvent s es).lram = s.lram := rfl
@[simp] theorem dropEvent_a (es : List Event) : (dropEvent s es).a = s.a := rfl
@[simp] theorem dropEvent_b (es : List Event) : (dropEvent s es).b = s.b := rfl
@[simp] theorem dropEvent_i (es : List Event) : (dropEvent s es).i = s.i := rfl
@[simp] theorem dropEvent_j (es : List Event) : (dropEvent s es).j = s.j := rfl
@[simp] theorem dropEvent_k (es : List Event) : (dropEvent s es).k = s.k := rfl
@[simp] theorem dropEvent_rc (es : List Event) : (dropEvent s es).rc = s.rc := rfl
@[simp] theorem dropEvent_blk (es : List Event) : (dropEvent s es).blk = s.blk := rfl
@[simp] theorem dropEvent_ph (es : List Event) : (dropEvent s es).ph = s.ph := rfl
@[simp] theorem dropEvent_begun (es : List Event) : (dropEvent s es).begun = s.begun := rfl
@[simp] theorem dropEvent_opr (es : List Event) : (dropEvent s es).opr = s.opr := rfl

/-! ### One step -/

theorem step_nil (h : s.inputs = []) : step s = engineRun s := by simp [step, h]

theorem step_cons {e : Event} {es : List Event} (h : s.inputs = e :: es) :
    step s = eventStep e (dropEvent s es) := by simp [step, h]

/-- What a step can be: a move of the engine with no event pending, or the first event. -/
theorem step_cases (s : State) :
    (s.inputs = [] ∧ step s = engineRun s) ∨
      ∃ e es, s.inputs = e :: es ∧ step s = eventStep e (dropEvent s es) := by
  cases h : s.inputs with
  | nil => exact .inl ⟨rfl, step_nil s h⟩
  | cons e es => exact .inr ⟨e, es, rfl, step_cons s h⟩

end Sys2Proof.Machine
end

