-- ==== Sys2Proof/Laws/Exec.lean ====
section
/-! SUPPORT. What each command's meaning answers, by the outcome of its checks, and what ending a command does; no
meaning ever stops. -/

namespace Sys2Proof.Machine

/-! ### Ending a command -/

theorem sameOperands_refl (s : State) : SameOperands s s :=
  ⟨rfl, rfl, rfl, rfl, rfl, rfl, rfl, rfl, rfl, rfl, rfl, rfl⟩

theorem sameSchedule_refl (s : State) : SameSchedule s s := ⟨rfl, rfl, rfl, rfl, rfl, rfl⟩

theorem completed_completeWith (e : ErrorCode) (s : State) : Completed e (completeWith e s) :=
  ⟨rfl, rfl, rfl, rfl⟩

theorem sameOperands_completeWith (e : ErrorCode) (s : State) : SameOperands s (completeWith e s) :=
  ⟨rfl, rfl, rfl, rfl, rfl, rfl, rfl, rfl, rfl, rfl, rfl, rfl⟩

theorem sameSchedule_completeWith (e : ErrorCode) (s : State) : SameSchedule s (completeWith e s) :=
  ⟨rfl, rfl, rfl, rfl, rfl, rfl⟩

theorem onlyStatusChanged_completeWith (e : ErrorCode) (s : State) : OnlyStatusChanged s (completeWith e s) :=
  ⟨sameOperands_completeWith e s, sameSchedule_completeWith e s, rfl, rfl, rfl⟩

/-! ### The checks of KEYSETUP -/

theorem constants_of_legal {w : Nat} (h : legalWidth w) : ∃ p q, constants w = some (p, q) := by
  rcases h with rfl | rfl | rfl <;> exact ⟨_, _, rfl⟩

theorem constants_of_not_legal {w : Nat} (h : ¬ legalWidth w) : constants w = none := by
  simp only [legalWidth, not_or] at h
  simp [constants, h]

theorem legal_of_constants {w : Nat} {pq : Nat × Nat} (h : constants w = some pq) : legalWidth w := by
  by_contra hn
  rw [constants_of_not_legal hn] at h
  cases h

/-- What passing the checks of KEYSETUP says. -/
theorem keysetupParams_ok {s : State} {p : KeyParams} (h : keysetupParams s = .ok p) :
    legalWidth p.w ∧ p.w = s.wordbits.toNat ∧ p.r = s.rounds.toNat ∧ p.r ≤ 255 ∧ p.b = s.keylen.toNat ∧
      p.b ≤ 255 ∧ constants p.w = some (p.p, p.q) := by
  unfold keysetupParams at h
  split at h
  · cases h
  · rename_i P Q hc
    split at h
    · cases h
    · split at h
      · cases h
      · cases h
        exact ⟨legal_of_constants hc, rfl, rfl, by dsimp only; omega, rfl, by dsimp only; omega, hc⟩

theorem keysetupParams_of_legal {s : State} (hw : legalWidth s.wordbits.toNat) (hr : s.rounds.toNat ≤ 255)
    (hb : s.keylen.toNat ≤ 255) :
    ∃ p q, constants s.wordbits.toNat = some (p, q) ∧
      keysetupParams s = .ok ⟨s.wordbits.toNat, s.rounds.toNat, s.keylen.toNat, p, q⟩ := by
  obtain ⟨p, q, hc⟩ := constants_of_legal hw
  exact ⟨p, q, hc, by simp [keysetupParams, hc, Nat.not_lt.mpr hr, Nat.not_lt.mpr hb]⟩

/-- The checks read nothing but the operand registers. -/
theorem keysetupParams_congr {s t : State} (h1 : t.wordbits = s.wordbits) (h2 : t.rounds = s.rounds)
    (h3 : t.keylen = s.keylen) : keysetupParams t = keysetupParams s := by
  simp only [keysetupParams, h1, h2, h3]

/-! ### What each meaning answers -/

theorem exec_keysetup_ok {s : State} {p : KeyParams} (h : keysetupParams s = .ok p) :
    exec .keysetup s = .next (commitKeysetup p
      { s with sram := storeSchedule (schedule p.w p.p p.q p.r (keyBytes s p.b)) s.sram }) := by
  simp only [exec, execKeysetup, h]

theorem exec_keysetup_error {s : State} {e : ErrorCode} (h : keysetupParams s = .error e) :
    exec .keysetup s = .next (completeWith e s) := by
  simp only [exec, execKeysetup, h, raiseError_eq]

theorem exec_encb_ok {s : State} (h : blockCheck s = .success) :
    exec .encb s = .next (commitBlock (encryptBlock s (dinBlock s)) s) := by
  simp only [exec, execEncb, h]

theorem exec_encb_error {s : State} {e : ErrorCode} (h : blockCheck s = e) (he : e ≠ .success) :
    exec .encb s = .next (completeWith e s) := by
  subst h
  simp only [exec, execEncb, raiseError_eq]

theorem exec_decb_ok {s : State} (h : blockCheck s = .success) :
    exec .decb s = .next (commitBlock (decryptBlock s (dinBlock s)) s) := by
  simp only [exec, execDecb, h]

theorem exec_decb_error {s : State} {e : ErrorCode} (h : blockCheck s = e) (he : e ≠ .success) :
    exec .decb s = .next (completeWith e s) := by
  subst h
  simp only [exec, execDecb, raiseError_eq]

theorem exec_encs_ok {s : State} (h : streamCheck s = .success) :
    exec .encs s = .next (commitStream (encsBlocks s * blockLen (wordWidth s))
      { s with mem := transformBlocks s (encryptBlock s) (encsBlocks s) (encsPadded s) }) := by
  simp only [exec, execEncs, h]

theorem exec_encs_error {s : State} {e : ErrorCode} (h : streamCheck s = e) (he : e ≠ .success) :
    exec .encs s = .next (completeWith e s) := by
  subst h
  simp only [exec, execEncs, raiseError_eq]

theorem exec_decs_ok {s : State} {more : Bool} (h : streamCheck s = .success) :
    exec (.decs more) s = .next (commitStream
      (decsOutLen more s (transformBlocks s (decryptBlock s) (decsBlocks s) (decsPadded s)))
      { s with mem := transformBlocks s (decryptBlock s) (decsBlocks s) (decsPadded s) }) := by
  simp only [exec, execDecs, h]

theorem exec_decs_error {s : State} {more : Bool} {e : ErrorCode} (h : streamCheck s = e)
    (he : e ≠ .success) : exec (.decs more) s = .next (completeWith e s) := by
  subst h
  simp only [exec, execDecs, raiseError_eq]

/-- No meaning stops. -/
theorem exec_next (i : Instr) (s : State) : ∃ t, exec i s = .next t := by
  cases i with
  | nop => exact ⟨_, rfl⟩
  | keysetup =>
    cases h : keysetupParams s with
    | error e => exact ⟨_, exec_keysetup_error h⟩
    | ok p => exact ⟨_, exec_keysetup_ok h⟩
  | encb =>
    by_cases h : blockCheck s = .success
    · exact ⟨_, exec_encb_ok h⟩
    · exact ⟨_, exec_encb_error rfl h⟩
  | decb =>
    by_cases h : blockCheck s = .success
    · exact ⟨_, exec_decb_ok h⟩
    · exact ⟨_, exec_decb_error rfl h⟩
  | encs =>
    by_cases h : streamCheck s = .success
    · exact ⟨_, exec_encs_ok h⟩
    · exact ⟨_, exec_encs_error rfl h⟩
  | decs more =>
    by_cases h : streamCheck s = .success
    · exact ⟨_, exec_decs_ok h⟩
    · exact ⟨_, exec_decs_error rfl h⟩

end Sys2Proof.Machine
end

