-- ==== Sys2Proof/Laws/Engine.lean ====
section
/-! SUPPORT. What a move of the engine can be, and what no piece and no command touches. -/

namespace Sys2Proof.Machine

/-- The four kinds of engine move: idle, an illegal word, a whole command, a piece. -/
theorem engineRun_cases (s : State) :
    (s.ph = .idle ∧ engineRun s = .next s) ∨
      (s.ph ≠ .idle ∧ atStart s = true ∧ decodeWord s.opr = .illegal ∧
        engineRun s = .next (completeWith .illegalCommand s)) ∨
      (s.ph ≠ .idle ∧ atStart s = true ∧ ∃ i, decodeWord s.opr = .command i ∧ engineRun s = exec i s) ∨
      (s.ph ≠ .idle ∧ atStart s = false ∧ engineRun s = .next (enginePiece s)) := by
  unfold engineRun
  by_cases hp : s.ph = .idle
  · exact .inl ⟨hp, by rw [if_pos hp]⟩
  · rw [if_neg hp]
    by_cases ha : atStart s = true
    · rw [if_pos ha]
      cases hd : decodeWord s.opr with
      | illegal => exact .inr (.inl ⟨hp, ha, rfl, rfl⟩)
      | command i => exact .inr (.inr (.inl ⟨hp, ha, i, rfl, rfl⟩))
    · rw [if_neg ha]
      exact .inr (.inr (.inr ⟨hp, by simpa using ha, rfl⟩))

theorem firstPhase_ne_idle (d : Decoded) : firstPhase d ≠ .idle := by
  cases d with
  | illegal => simp [firstPhase]
  | command i => cases i <;> simp [firstPhase]

/-- No command changes the operands, `CTRL`, `LOST` or `OPR`. -/
theorem exec_sameOperands {i : Instr} {s t : State} (h : exec i s = .next t) : SameOperands s t := by
  cases i with
  | nop => cases h; exact sameOperands_completeWith _ _
  | keysetup =>
    cases hp : keysetupParams s with
    | error e => rw [exec_keysetup_error hp] at h; cases h; exact sameOperands_completeWith _ _
    | ok p => rw [exec_keysetup_ok hp] at h; cases h; constructor <;> rfl
  | encb =>
    by_cases hp : blockCheck s = .success
    · rw [exec_encb_ok hp] at h; cases h; constructor <;> rfl
    · rw [exec_encb_error rfl hp] at h; cases h; exact sameOperands_completeWith _ _
  | decb =>
    by_cases hp : blockCheck s = .success
    · rw [exec_decb_ok hp] at h; cases h; constructor <;> rfl
    · rw [exec_decb_error rfl hp] at h; cases h; exact sameOperands_completeWith _ _
  | encs =>
    by_cases hp : streamCheck s = .success
    · rw [exec_encs_ok hp] at h; cases h; constructor <;> rfl
    · rw [exec_encs_error rfl hp] at h; cases h; exact sameOperands_completeWith _ _
  | decs more =>
    by_cases hp : streamCheck s = .success
    · rw [exec_decs_ok hp] at h; cases h; constructor <;> rfl
    · rw [exec_decs_error rfl hp] at h; cases h; exact sameOperands_completeWith _ _

/-- Every command ends in completion: `DONE` = 1, `BUSY` = 0, `PH` = IDLE (40_command_control.md R102). -/
theorem exec_completed {i : Instr} {s t : State} (h : exec i s = .next t) : Completed t.err t := by
  cases i with
  | nop => cases h; exact ⟨rfl, rfl, rfl, rfl⟩
  | keysetup =>
    cases hp : keysetupParams s with
    | error e => rw [exec_keysetup_error hp] at h; cases h; exact ⟨rfl, rfl, rfl, rfl⟩
    | ok p => rw [exec_keysetup_ok hp] at h; cases h; exact ⟨rfl, rfl, rfl, rfl⟩
  | encb =>
    by_cases hp : blockCheck s = .success
    · rw [exec_encb_ok hp] at h; cases h; exact ⟨rfl, rfl, rfl, rfl⟩
    · rw [exec_encb_error rfl hp] at h; cases h; exact ⟨rfl, rfl, rfl, rfl⟩
  | decb =>
    by_cases hp : blockCheck s = .success
    · rw [exec_decb_ok hp] at h; cases h; exact ⟨rfl, rfl, rfl, rfl⟩
    · rw [exec_decb_error rfl hp] at h; cases h; exact ⟨rfl, rfl, rfl, rfl⟩
  | encs =>
    by_cases hp : streamCheck s = .success
    · rw [exec_encs_ok hp] at h; cases h; exact ⟨rfl, rfl, rfl, rfl⟩
    · rw [exec_encs_error rfl hp] at h; cases h; exact ⟨rfl, rfl, rfl, rfl⟩
  | decs more =>
    by_cases hp : streamCheck s = .success
    · rw [exec_decs_ok hp] at h; cases h; exact ⟨rfl, rfl, rfl, rfl⟩
    · rw [exec_decs_error rfl hp] at h; cases h; exact ⟨rfl, rfl, rfl, rfl⟩

/-- No piece changes the operands, `CTRL`, `LOST` or `OPR`. -/
theorem enginePiece_sameOperands (s : State) : SameOperands s (enginePiece s) := by
  cases hp : s.ph <;> simp only [enginePiece, hp]
  · exact sameOperands_refl s
  · unfold setupAlignPiece
    split <;> [skip; split <;> [skip; (dsimp only; split)]] <;> constructor <;> rfl
  · unfold setupExpandPiece
    split <;> [skip; (dsimp only; split)] <;> constructor <;> rfl
  · unfold setupMixPiece
    split <;> [skip; (dsimp only; split)] <;> constructor <;> rfl
  · unfold blockEncPiece
    split <;> [split; split] <;> constructor <;> rfl
  · unfold blockDecPiece
    split <;> [split; split] <;> constructor <;> rfl
  · unfold streamEncPiece streamBegin streamStore
    split <;> [split <;> [split; skip]; (split <;> [skip; split <;> [split; (dsimp only; split)]])] <;>
      constructor <;> rfl
  · unfold streamDecPiece streamBegin streamStore
    split <;> [split <;> [split; skip]; (split <;> [skip; split <;> [split; (dsimp only; split)]])] <;>
      constructor <;> rfl
  · unfold finishPiece
    split <;> [skip; skip; split; skip; skip; skip; skip] <;> constructor <;> rfl

/-- The memory after a piece: as before, or with bytes written in `MBUF`, or with the result of a block command in
`DOUT`, and then the command has completed. -/
theorem enginePiece_mem (s : State) :
    (enginePiece s).mem = s.mem ∨
      (∃ x ys, (enginePiece s).mem = memWriteBytes s.mem x ys ∧ mbufBase ≤ x) ∨
      (enginePiece s = commitBlock (blockOut (halves s)) s ∧ (enginePiece s).busy = false) := by
  have store : ∀ nb, (streamStore nb s).mem =
      memWriteBytes s.mem (mbufBlockAddr s s.blk.toNat) (blockOut (halves s)) := by
    intro nb; unfold streamStore; dsimp only; split <;> rfl
  have start : ∀ nb m, (streamBegin nb m s).mem = m := by intro nb m; unfold streamBegin; split <;> rfl
  cases hp : s.ph <;> simp only [enginePiece, hp]
  · exact .inl trivial
  · left; unfold setupAlignPiece; split <;> [skip; split <;> [skip; (dsimp only; split)]] <;> rfl
  · left; unfold setupExpandPiece; split <;> [skip; (dsimp only; split)] <;> rfl
  · left; unfold setupMixPiece; split <;> [skip; (dsimp only; split)] <;> rfl
  · left; unfold blockEncPiece; split <;> [split; split] <;> rfl
  · left; unfold blockDecPiece; split <;> [split; split] <;> rfl
  · unfold streamEncPiece
    split
    · split
      · exact .inr (.inl ⟨_, _, start _ _, Nat.le_add_right _ _⟩)
      · exact .inl rfl
    · split
      · exact .inl rfl
      · split
        · left; split <;> rfl
        · exact .inr (.inl ⟨_, _, store _, Nat.le_add_right _ _⟩)
  · unfold streamDecPiece
    split
    · split
      · exact .inr (.inl ⟨_, _, start _ _, Nat.le_add_right _ _⟩)
      · exact .inl rfl
    · split
      · exact .inl rfl
      · split
        · left; split <;> rfl
        · exact .inr (.inl ⟨_, _, store _, Nat.le_add_right _ _⟩)
  · unfold finishPiece
    split <;> [exact .inl rfl; exact .inl rfl; (split <;> exact .inl rfl); exact .inr (.inr ⟨rfl, rfl⟩);
      exact .inr (.inr ⟨rfl, rfl⟩); exact .inl rfl; exact .inl rfl]

end Sys2Proof.Machine
end

