-- ==== Sys2Proof/Laws/HostPort.lean ====
section
/-! SUPPORT. What the host port can do, said once: the map, the two outcomes of a transfer, and the shapes of the
state a write leaves. -/

namespace Sys2Proof.Machine

/-! ### The map -/

/-- The reserved ranges of the map (20_memory.md R52). -/
theorem regionOf_isNone (p : BuildParams) (x : Nat) :
    (regionOf p x).isNone = true ↔
      (0x0034 ≤ x ∧ x ≤ 0x003F) ∨ (0x0060 ≤ x ∧ x ≤ 0x00FF) ∨ (0x0200 ≤ x ∧ x ≤ 0x0FFF) ∨
        0x1000 + p.mbufBytes ≤ x := by
  unfold regionOf
  split <;> [skip; split <;> [skip; split <;> [skip; split <;> [skip; split]]]] <;> simp <;> omega

theorem regionOf_registers (p : BuildParams) (x : Nat) : regionOf p x = some .registers ↔ x ≤ 0x33 := by
  unfold regionOf
  split <;> [skip; split <;> [skip; split <;> [skip; split <;> [skip; split]]]] <;> simp <;> omega

theorem mbufBytes_range (p : BuildParams) : p.mbufBytes % 16 = 0 ∧ 16 ≤ p.mbufBytes ∧ p.mbufBytes ≤ 4096 := by
  have := p.mbufUnits.isLt
  simp only [BuildParams.mbufBytes]
  omega

/-! ### Transfers -/

/-- A size code that is no bus error names `2 ^ size` bytes. -/
theorem sizeBytes_of_no_error {p : BuildParams} {t : Transfer} (h : busErrorCause p t = none) :
    sizeBytes t.size = some (2 ^ t.size.toNat) ∧ t.size.toNat < 3 := by
  have hlt := t.size.isLt
  unfold busErrorCause at h
  unfold sizeBytes at h ⊢
  generalize t.size.toNat = k at *
  have : k = 0 ∨ k = 1 ∨ k = 2 ∨ k = 3 := by omega
  rcases this with rfl | rfl | rfl | rfl <;> simp at h ⊢

/-- The three outcomes of a transfer: a bus error, a write, a read. -/
theorem hostTransfer_cases (t : Transfer) (s : State) :
    (∃ c, busErrorCause s.build t = some c ∧ hostTransfer t s = .fault (.busError c busErrorAnswer)) ∨
      (busErrorCause s.build t = none ∧ t.we = true ∧
        hostTransfer t s = .next (hostWriteAnswered s t.addr.toNat (2 ^ t.size.toNat) (writeValue t))) ∨
      (busErrorCause s.build t = none ∧ t.we = false ∧
        hostTransfer t s = .next (hostRead s t.addr.toNat (2 ^ t.size.toNat))) := by
  unfold hostTransfer
  cases hb : busErrorCause s.build t with
  | some c => exact .inl ⟨c, rfl, rfl⟩
  | none =>
    rw [(sizeBytes_of_no_error hb).1]
    cases t.we <;> simp

/-- What a transfer that is no bus error may rely on: a size, alignment, mapped bytes, whole registers. -/
theorem no_error_facts {p : BuildParams} {t : Transfer} (h : busErrorCause p t = none) :
    t.size.toNat < 3 ∧ t.addr.toNat % 2 ^ t.size.toNat = 0 ∧
      (∀ o, o < 2 ^ t.size.toNat → (regionOf p (t.addr.toNat + o)).isNone = false) ∧
      (t.addr.toNat ≤ 0x33 → 2 ^ t.size.toNat = 4) := by
  obtain ⟨hs, hlt⟩ := sizeBytes_of_no_error h
  unfold busErrorCause at h
  rw [hs] at h
  dsimp only at h
  split at h
  · cases h
  · split at h
    · cases h
    · rename_i hal hno
      split at h
      · cases h
      · rename_i hreg
        refine ⟨hlt, by simpa using hal, fun o ho => ?_, fun hx => ?_⟩
        · by_contra hc
          exact hno (List.any_eq_true.mpr ⟨o, List.mem_range.mpr ho, eq_true_of_ne_false hc⟩)
        · by_contra hc
          exact hreg ⟨(regionOf_registers p _).mpr hx, hc⟩

/-! ### Writes -/

theorem hostWrite_register (s : State) {x : Nat} {r : RegName} (n : Nat) (v : Reg) (h : regAt x = some r)
    (hx : x < 0x34) : hostWrite s x n v = regWrite s r v := by
  unfold hostWrite
  rw [show regionOf s.build x = some .registers by unfold regionOf; rw [if_pos hx], h]

/-- Everything a write can do: while busy, only `IE`, `DONE` and `LOST` change; while idle, either a command is
accepted, or operand registers, `IE`, `DONE`, `LOST` and the written bytes change. -/
theorem hostWrite_cases (s : State) (x n : Nat) (v : Reg) :
    (s.busy = true ∧ ∃ ie done lost, hostWrite s x n v = { s with ie := ie, done := done, lost := lost }) ∨
      (s.busy = false ∧ hostWrite s x n v = accept v s) ∨
      (s.busy = false ∧ ∃ ie done lost wordbits rounds keylen strip dlen mlen mem,
        hostWrite s x n v =
          { s with
            ie := ie, done := done, lost := lost, wordbits := wordbits, rounds := rounds, keylen := keylen
            strip := strip, dlen := dlen, mlen := mlen, mem := mem } ∧
        (mem = s.mem ∨ mem = memWriteBytes s.mem x (leBytes n v) ∧ 0x34 ≤ x)) := by
  by_cases hb : s.busy = true
  · left
    refine ⟨hb, ?_⟩
    unfold hostWrite
    split
    · split
      · rename_i r _
        cases r <;> unfold regWrite <;> dsimp only <;> first | exact ⟨_, _, _, rfl⟩ | (rw [if_pos hb]; exact ⟨_, _, _, rfl⟩)
      · exact ⟨_, _, _, rfl⟩
    · exact ⟨_, _, _, rfl⟩
    · rw [if_pos hb]; exact ⟨_, _, _, rfl⟩
  · right
    have hi : s.busy = false := by simpa using hb
    unfold hostWrite
    split
    · split
      · rename_i r _
        cases r <;> unfold regWrite <;> dsimp only
        case cmd => left; rw [if_neg hb]; exact ⟨hi, rfl⟩
        all_goals
          right
          refine ⟨hi, ?_⟩
          first
          | exact ⟨_, _, _, _, _, _, _, _, _, _, rfl, .inl rfl⟩
          | (rw [if_neg hb]; exact ⟨_, _, _, _, _, _, _, _, _, _, rfl, .inl rfl⟩)
      · exact .inr ⟨hi, _, _, _, _, _, _, _, _, _, _, rfl, .inl rfl⟩
    · exact .inr ⟨hi, _, _, _, _, _, _, _, _, _, _, rfl, .inl rfl⟩
    · rename_i hr _
      right
      rw [if_neg hb]
      have : ¬ x ≤ 0x33 := fun hx => hr ((regionOf_registers s.build x).mpr hx)
      exact ⟨hi, _, _, _, _, _, _, _, _, _, _, rfl, .inr ⟨rfl, by omega⟩⟩

end Sys2Proof.Machine
end

