-- ==== Sys2Proof/Laws/PerInstr.lean ====
section
/-! SUPPORT. The family `EncodingCanonical`: what holds of every instruction as syntax, one lemma per constructor. -/

namespace Sys2Proof.Laws.EncodingCanonical

/-- The instruction is well formed, its command word has no reserved bit set (30_encoding.md R84), and its bytes on
the bus decode to it with nothing left over (R89). -/
def Statement (i : Instr) : Prop :=
  Instr.wellFormed i = true ∧ wordField (encode i) 9 23 = 0 ∧ wordField (encode i) 4 4 = 0 ∧
    decodeBytes (encodeBytes i) = some (.command i, [])

theorem nop : Statement .nop := by unfold Statement; decide
theorem keysetup : Statement .keysetup := by unfold Statement; decide
theorem encb : Statement .encb := by unfold Statement; decide
theorem decb : Statement .decb := by unfold Statement; decide
theorem encs : Statement .encs := by unfold Statement; decide
theorem decs (more : Bool) : Statement (.decs more) := by cases more <;> (unfold Statement; decide)

end Sys2Proof.Laws.EncodingCanonical
end

