-- ==== Sys2Proof/Laws/Sequencer.lean ====
section
/-! SUPPORT. How `sequencerSound` is met in each phase, one lemma per phase, and the entries of an internal RAM. -/

namespace Sys2Proof.Machine

theorem entriesPresent_iff {ram : EntryRam} {n : Nat} :
    entriesPresent ram n = true ↔ ∀ x, x < n → (cellFind x ram).isSome = true := by
  simp [entriesPresent]

theorem entriesPresent_cellSet {ram : EntryRam} {n : Nat} (x : Nat) (v : Long) (h : entriesPresent ram n = true) :
    entriesPresent (cellSet x v ram) n = true := by
  rw [entriesPresent_iff] at h ⊢
  intro y hy
  rw [cellFind_cellSet]
  split <;> [rfl; exact h y hy]

theorem entriesPresent_succ {ram : EntryRam} {n : Nat} (v : Long) (h : entriesPresent ram n = true) :
    entriesPresent (cellSet n v ram) (n + 1) = true := by
  rw [entriesPresent_iff] at h ⊢
  intro y hy
  rw [cellFind_cellSet]
  split <;> [rfl; exact h y (by omega)]

variable {t : State} {p : KeyParams}

/-- In its first phase a command of which no piece has been made stands soundly. -/
theorem sequencerSound_of_atStart (h : atStart t = true) : sequencerSound t = true := by
  simp only [atStart, Bool.and_eq_true, beq_iff_eq, Bool.not_eq_true'] at h
  obtain ⟨hp, hb⟩ := h
  cases hd : decodeWord t.opr with
  | illegal => simp [sequencerSound, hp, hd, firstPhase]
  | command i =>
    cases i with
    | decs more => cases more <;> simp [sequencerSound, hp, hd, hb, firstPhase]
    | _ => simp [sequencerSound, hp, hd, hb, firstPhase]

theorem sequencerSound_idle (hp : t.ph = .idle) : sequencerSound t = true := by simp [sequencerSound, hp]

theorem sequencerSound_setupAlign (hp : t.ph = .setupAlign) (hd : decodeWord t.opr = .command .keysetup)
    (hk : keysetupParams t = .ok p) (h1 : t.k.toNat < alignedLen p.w p.b)
    (h2 : entriesPresent t.lram t.k.toNat = true) : sequencerSound t = true := by
  simp [sequencerSound, hp, hd, hk, h1, h2]

theorem sequencerSound_setupExpand (hp : t.ph = .setupExpand) (hd : decodeWord t.opr = .command .keysetup)
    (hk : keysetupParams t = .ok p) (h1 : t.k.toNat < scheduleLen p.r)
    (h2 : entriesPresent t.sram t.k.toNat = true) (h3 : entriesPresent t.lram (alignedLen p.w p.b) = true) :
    sequencerSound t = true := by
  simp [sequencerSound, hp, hd, hk, h1, h2, h3]

theorem sequencerSound_setupMix (hp : t.ph = .setupMix) (hd : decodeWord t.opr = .command .keysetup)
    (hk : keysetupParams t = .ok p) (h1 : t.k.toNat < mixCount (alignedLen p.w p.b) (scheduleLen p.r))
    (h2 : t.i.toNat < scheduleLen p.r) (h3 : t.j.toNat < alignedLen p.w p.b)
    (h4 : entriesPresent t.sram (scheduleLen p.r) = true)
    (h5 : entriesPresent t.lram (alignedLen p.w p.b) = true) : sequencerSound t = true := by
  simp [sequencerSound, hp, hd, hk, h1, h2, h3, h4, h5]

theorem sequencerSound_finishKeysetup (hp : t.ph = .finish) (hd : decodeWord t.opr = .command .keysetup)
    (hk : keysetupParams t = .ok p) (h1 : entriesPresent t.sram (scheduleLen p.r) = true) :
    sequencerSound t = true := by
  simp [sequencerSound, hp, hd, hk, h1]

theorem sequencerSound_blockEnc (hp : t.ph = .blockEnc) (hd : decodeWord t.opr = .command .encb)
    (hc : blockCheck t = .success) (h1 : t.rc.toNat ≤ t.er.toNat) : sequencerSound t = true := by
  simp [sequencerSound, hp, hd, hc, h1]

theorem sequencerSound_blockDec (hp : t.ph = .blockDec) (hd : decodeWord t.opr = .command .decb)
    (hc : blockCheck t = .success) (h1 : t.rc.toNat ≤ t.er.toNat) : sequencerSound t = true := by
  simp [sequencerSound, hp, hd, hc, h1]

theorem sequencerSound_finishBlock (hp : t.ph = .finish)
    (hd : decodeWord t.opr = .command .encb ∨ decodeWord t.opr = .command .decb) (hc : blockCheck t = .success) :
    sequencerSound t = true := by
  rcases hd with hd | hd <;> simp [sequencerSound, hp, hd, hc]

theorem sequencerSound_streamEnc (hp : t.ph = .streamEnc) (hd : decodeWord t.opr = .command .encs)
    (hc : streamCheck t = .success) (h1 : t.blk.toNat < encsBlocks t) (h2 : t.k.toNat ≤ 2)
    (h3 : t.k ≠ 1 ∨ t.rc.toNat ≤ t.er.toNat) : sequencerSound t = true := by
  simp [sequencerSound, hp, hd, hc, h1, h2]
  exact .inr (by simpa using h3)

theorem sequencerSound_streamDec (hp : t.ph = .streamDec) (hd : ∃ more, decodeWord t.opr = .command (.decs more))
    (hc : streamCheck t = .success) (h1 : t.blk.toNat < decsBlocks t) (h2 : t.k.toNat ≤ 2)
    (h3 : t.k ≠ 1 ∨ t.rc.toNat ≤ t.er.toNat) : sequencerSound t = true := by
  obtain ⟨more, hd⟩ := hd
  cases more <;> simp [sequencerSound, hp, hd, hc, h1, h2] <;> exact .inr (by simpa using h3)

theorem sequencerSound_finishStream (hp : t.ph = .finish)
    (hd : decodeWord t.opr = .command .encs ∨ ∃ more, decodeWord t.opr = .command (.decs more))
    (hc : streamCheck t = .success) : sequencerSound t = true := by
  rcases hd with hd | ⟨more, hd⟩ <;> simp [sequencerSound, hp, hd, hc]

end Sys2Proof.Machine
end

