-- ==== Sys2Proof/Laws/Stream.lean ====
section
/-! SUPPORT. Blocks of bytes and the stream unit: what padding and transforming blocks leave in `MBUF`, the bounds of
the block counts, and what `trailingZeros` counts. -/

namespace Sys2Proof.Machine

theorem blockOut_length {w : Nat} (ab : BitVec w × BitVec w) : (blockOut ab).length = blockLen w := by
  simp [blockOut, blockLen, wordLen, leBytes]
  omega

theorem encryptBlock_length (s : State) (xs : List Byte) :
    (encryptBlock s xs).length = blockLen (wordWidth s) := blockOut_length _

theorem decryptBlock_length (s : State) (xs : List Byte) :
    (decryptBlock s xs).length = blockLen (wordWidth s) := blockOut_length _

theorem blockLen_of_legal {w : Nat} (h : legalWidth w) : blockLen w = 4 ∨ blockLen w = 8 ∨ blockLen w = 16 := by
  rcases h with rfl | rfl | rfl <;> decide

/-- What `commitBlock` leaves in `DOUT` and elsewhere. -/
theorem memRead_commitBlock {s : State} {ys : List Byte} (h : ys.length ≤ 16) (x : Nat) :
    memRead (commitBlock ys s).mem x =
      if doutBase ≤ x ∧ x < doutBase + 16 then (ys ++ List.replicate (16 - ys.length) 0)[x - doutBase]?
      else memRead s.mem x := by
  simp only [commitBlock, completeWith_mem]
  rw [memRead_memWriteBytes, show (ys ++ List.replicate (16 - ys.length) (0 : Byte)).length = 16 by simp; omega]

/-- What padding leaves: zeros from the end of the segment up to `stop`, everything else as before. -/
theorem memRead_padSegment (m : Memory) (len stop x : Nat) :
    memRead (padSegment m len stop) x =
      if mbufBase + len ≤ x ∧ x < mbufBase + len + (stop - len) then some 0 else memRead m x := by
  rw [padSegment, memRead_memWriteBytes, List.length_replicate]
  split
  · rw [List.getElem?_replicate, if_pos (by omega)]
  · rfl

/-- What transforming `n` blocks leaves: block `q < n` is `f` of the block as it was, everything else as before. -/
theorem memRead_transformBlocks (s : State) (f : List Byte → List Byte)
    (hf : ∀ xs, (f xs).length = blockLen (wordWidth s)) (n : Nat) (m : Memory) :
    (∀ q k, q < n → k < blockLen (wordWidth s) →
      memRead (transformBlocks s f n m) (mbufBlockAddr s q + k) = (f (mbufBlock s m q))[k]?) ∧
    (∀ x, x < mbufBase ∨ mbufBlockAddr s n ≤ x → memRead (transformBlocks s f n m) x = memRead m x) := by
  induction n with
  | zero => exact ⟨fun q k h => absurd h (Nat.not_lt_zero _), fun x _ => rfl⟩
  | succ n ih =>
    obtain ⟨ih1, ih2⟩ := ih
    have hb : mbufBlock s (transformBlocks s f n m) n = mbufBlock s m n :=
      bytesAt_congr fun k _ => ih2 _ (.inr (Nat.le_add_right _ _))
    simp only [transformBlocks, transformBlock, hb]
    constructor
    · intro q k hq hk
      rw [memRead_memWriteBytes, hf]
      by_cases h : q = n
      · subst h
        rw [if_pos (by omega), Nat.add_sub_cancel_left]
      · have hqn : q < n := by omega
        have := Nat.mul_le_mul_right (blockLen (wordWidth s)) hqn
        rw [Nat.succ_mul] at this
        rw [if_neg (by simp only [mbufBlockAddr]; omega)]
        exact ih1 q k hqn hk
    · intro x hx
      simp only [mbufBlockAddr, Nat.succ_mul] at hx ih2 ⊢
      rw [memRead_memWriteBytes_out (by rw [hf]; omega)]
      exact ih2 x (by omega)

/-- ENCS: the segment and its padding fit, and there is a block (44_stream.md R182). -/
theorem encsBlocks_bounds {s : State} (hw : legalWidth (wordWidth s)) (hm : segmentLen s ≤ s.build.mbufBytes) :
    segmentLen s ≤ encsBlocks s * blockLen (wordWidth s) ∧
      encsBlocks s * blockLen (wordWidth s) ≤ s.build.mbufBytes ∧ 1 ≤ encsBlocks s := by
  have := mbufBytes_range s.build
  simp only [encsBlocks, encBlocks]
  rcases blockLen_of_legal hw with h | h | h <;> (rw [h]; split <;> omega)

/-- DECS: the blocks fit (44_stream.md R185). -/
theorem decsBlocks_bounds {s : State} (hw : legalWidth (wordWidth s)) (hm : segmentLen s ≤ s.build.mbufBytes) :
    decsBlocks s * blockLen (wordWidth s) ≤ s.build.mbufBytes := by
  have := mbufBytes_range s.build
  simp only [decsBlocks, decBlocks]
  rcases blockLen_of_legal hw with h | h | h <;> (rw [h]; split <;> omega)

/-! ### Trailing zeros -/

theorem trailingZeros_le (xs : List Byte) : trailingZeros xs ≤ xs.length := by
  have := List.takeWhile_prefix (l := xs.reverse) (· == (0 : Byte))
  simpa [trailingZeros] using this.length_le

/-- The counted bytes are 0. -/
theorem trailingZeros_zero {xs : List Byte} {k : Nat} (hk : k < trailingZeros xs) :
    xs[xs.length - 1 - k]? = some 0 := by
  have hle := trailingZeros_le xs
  have hp := List.takeWhile_prefix (l := xs.reverse) (· == (0 : Byte))
  simp only [trailingZeros] at hk hle
  have hz := List.mem_takeWhile_imp (List.getElem_mem hk)
  have := hp.getElem hk
  rw [List.getElem_reverse] at this
  rw [List.getElem?_eq_getElem (by omega), ← this]
  simpa using hz

/-- The byte before the counted ones is not 0. -/
theorem trailingZeros_stop {xs : List Byte} (hk : trailingZeros xs < xs.length) :
    xs[xs.length - 1 - trailingZeros xs]? ≠ some 0 := by
  have h := List.takeWhile_append_dropWhile (l := xs.reverse) (p := (· == (0 : Byte)))
  intro hc
  set tw := xs.reverse.takeWhile (· == (0 : Byte))
  set dw := xs.reverse.dropWhile (· == (0 : Byte))
  rw [show trailingZeros xs = tw.length from rfl] at hk hc
  have hne : dw ≠ [] := by
    intro h0
    rw [h0, List.append_nil] at h
    have := congrArg List.length h
    simp at this
    omega
  have hh : (dw.head hne == 0) = false := List.head_dropWhile_not (· == (0 : Byte)) hne
  have : xs.reverse[tw.length]? = some 0 := by rw [List.getElem?_reverse hk]; exact hc
  rw [← h, List.getElem?_append_right (le_refl _), Nat.sub_self, ← List.head?_eq_getElem?,
    List.head?_eq_some_head hne] at this
  rw [Option.some.inj this] at hh
  simp at hh

end Sys2Proof.Machine
end

