-- ==== Sys2Proof/Laws/WordArith.lean ====
section
/-! SUPPORT. The datapath's word operations in the library's terms, and byte packing digit by digit. -/

namespace Sys2Proof.Machine

variable {w : Nat}

theorem rotl_of_mod_zero (v : BitVec w) {s : Nat} (h : s % w = 0) : rotl v s = v := by simp [rotl, h]

theorem rotr_of_mod_zero (v : BitVec w) {s : Nat} (h : s % w = 0) : rotr v s = v := by simp [rotr, h]

/-- The two parts of a rotated word share no bit, so that adding them is joining them. -/
theorem ofNat_shifts (v : BitVec w) {t : Nat} (ht : t < w) :
    BitVec.ofNat w (v.toNat * 2 ^ t % 2 ^ w + v.toNat / 2 ^ (w - t)) = v <<< t ||| v >>> (w - t) := by
  have hdisj : v <<< t &&& v >>> (w - t) = 0#w := by
    ext i hi
    simp only [BitVec.getElem_and, BitVec.getElem_shiftLeft, BitVec.getElem_ushiftRight, BitVec.getElem_zero,
      Bool.and_eq_false_iff]
    by_cases h : i < t
    · left; simp [h]
    · right
      apply BitVec.getLsbD_of_ge
      omega
  rw [← BitVec.add_eq_or_of_and_eq_zero _ _ hdisj]
  apply BitVec.eq_of_toNat_eq
  simp [BitVec.toNat_add, BitVec.toNat_shiftLeft, BitVec.toNat_ushiftRight, Nat.shiftLeft_eq,
    Nat.shiftRight_eq_div_pow]

theorem rotl_eq_rotateLeft (v : BitVec w) (s : Nat) : rotl v s = v.rotateLeft s := by
  rcases Nat.eq_zero_or_pos w with rfl | hw
  · exact Subsingleton.elim _ _
  have hlt : s % w < w := Nat.mod_lt _ hw
  simp only [rotl, BitVec.rotateLeft, BitVec.rotateLeftAux]
  split
  · rename_i h
    rw [h, Nat.sub_zero]
    ext i hi
    simp
  · exact ofNat_shifts v hlt

theorem rotr_eq_rotl (v : BitVec w) {s : Nat} (h : s % w ≠ 0) : rotr v s = rotl v (w - s % w) := by
  rcases Nat.eq_zero_or_pos w with rfl | hw
  · exact Subsingleton.elim _ _
  have hlt : s % w < w := Nat.mod_lt _ hw
  have h' : (w - s % w) % w = w - s % w := Nat.mod_eq_of_lt (by omega)
  simp only [rotr, rotl, h', if_neg h, if_neg (show ¬ w - s % w = 0 by omega)]
  rw [show w - (w - s % w) = s % w by omega, Nat.add_comm]

theorem rotr_eq_rotateRight (v : BitVec w) (s : Nat) : rotr v s = v.rotateRight s := by
  rcases Nat.eq_zero_or_pos w with rfl | hw
  · exact Subsingleton.elim _ _
  by_cases h : s % w = 0
  · rw [rotr_of_mod_zero v h]
    simp only [BitVec.rotateRight, BitVec.rotateRightAux, h, Nat.sub_zero]
    ext i hi
    simp
  · have hlt : s % w < w := Nat.mod_lt _ hw
    rw [rotr_eq_rotl v h, rotl_eq_rotateLeft]
    simp only [BitVec.rotateRight, BitVec.rotateRightAux, BitVec.rotateLeft, BitVec.rotateLeftAux]
    rw [Nat.mod_eq_of_lt (show w - s % w < w by omega), show w - (w - s % w) = s % w by omega, BitVec.or_comm]

/-! ### Byte packing -/

@[simp] theorem leBytes_length (u : Nat) (v : BitVec w) : (leBytes u v).length = u := by simp [leBytes]

theorem leBytes_getElem {u k : Nat} (v : BitVec w) (h : k < (leBytes u v).length) :
    (leBytes u v)[k] = BitVec.ofNat 8 (v.toNat / 2 ^ (8 * k)) := by simp [leBytes]

theorem leBytes_getElem? {u k : Nat} (v : BitVec w) (h : k < u) :
    (leBytes u v)[k]? = some (BitVec.ofNat 8 (v.toNat / 2 ^ (8 * k))) := by
  rw [List.getElem?_eq_getElem (by simpa using h), leBytes_getElem]

theorem leValue_lt (xs : List Byte) : leValue xs < 2 ^ (8 * xs.length) := by
  induction xs with
  | nil => simp [leValue]
  | cons x xs ih =>
    have hx := x.isLt
    rw [leValue, List.length_cons, Nat.mul_succ, Nat.pow_add]
    omega

/-- Digit `k` of a packed value is byte `k`, and 0 past the end. -/
theorem leValue_digit (xs : List Byte) (k : Nat) :
    leValue xs / 2 ^ (8 * k) % 256 = (xs.getD k 0).toNat := by
  induction xs generalizing k with
  | nil => simp [leValue]
  | cons x xs ih =>
    have hx := x.isLt
    cases k with
    | zero => simp [leValue]; omega
    | succ k =>
      rw [List.getD_cons_succ, ← ih k, leValue, Nat.mul_succ, Nat.pow_add, Nat.mul_comm (2 ^ (8 * k)),
        ← Nat.div_div_eq_div_mul]
      congr 2
      omega

/-- A value of `n` bytes is what its digits pack to. -/
theorem leValue_ext {xs : List Byte} {n : Nat} (hn : n < 2 ^ (8 * xs.length))
    (h : ∀ k, k < xs.length → n / 2 ^ (8 * k) % 256 = (xs.getD k 0).toNat) : leValue xs = n := by
  induction xs generalizing n with
  | nil => simp at hn; simp [leValue, hn]
  | cons x xs ih =>
    have h0 := h 0 (by simp)
    simp only [Nat.mul_zero, Nat.pow_zero, Nat.div_one, List.getD_cons_zero] at h0
    rw [leValue, ih (n := n / 256)]
    · omega
    · rw [List.length_cons, Nat.mul_succ, Nat.pow_add] at hn; omega
    · intro k hk
      have := h (k + 1) (by simpa using hk)
      rw [List.getD_cons_succ, Nat.mul_succ, Nat.pow_add, Nat.mul_comm (2 ^ (8 * k)),
        ← Nat.div_div_eq_div_mul] at this
      exact this

end Sys2Proof.Machine
end

