-- ==== Sys2Proof/Tests/Slice0.lean ====
section
/-! SUPPORT. Small tests of the model, their expected values from spec/95_test_vectors.md or worked out by hand from
the rule named, and one witness for the hypotheses of each statement that has some. -/

namespace Sys2Proof.Tests

open Sys2Proof Sys2Proof.Machine

/-! ### States -/

/-- The state after reset of a machine with a given tail policy and the default message buffer. -/
def machine (policy : TailPolicy) : State := { State.reset with build := { mbufUnits := 255, tailPolicy := policy } }

/-- RC5-16/0/0 with the schedule of KS-1, `DLEN` = 4. -/
def keyed (policy : TailPolicy) : State :=
  { machine policy with
    ew := 16, kv := true, dlen := 4, sram := [(0, 0x7865), (1, 0x33F4)] }

/-- `keyed` with bytes in `MBUF` and a segment length. -/
def message (policy : TailPolicy) (xs : List Byte) : State :=
  { keyed policy with mem := memWriteBytes [] 0x1000 xs, mlen := BitVec.ofNat 32 xs.length }

/-- The operands of a KEYSETUP in an idle machine. -/
def operands (w r b : Reg) : State := { machine .drop with wordbits := w, rounds := r, keylen := b }

/-- One field of the state an outcome carries. -/
def after {α : Type} (o : Host.Outcome State Fault Refusal) (f : State → α) : Option α :=
  match o with
  | .next s => some (f s)
  | .fault _ => none
  | .refused _ => none

/-- `s` with one host transfer to come. -/
def withTransfer (t : Transfer) (s : State) : State := { s with inputs := [.hostTransfer t] }

/-! ### Well-formedness: an ill-formed term for each check -/

theorem test_wf_refuses_size_three : Transfer.sizeLegal { we := false, addr := 0, size := 3, wdata := 0 } = false := by
  decide
theorem test_wf_refuses_misaligned : Transfer.aligned { we := true, addr := 0x1002, size := 2, wdata := 0 } = false := by
  decide
theorem test_wf_whole :
    Transfer.wellFormed { we := false, addr := 0, size := 3, wdata := 0 } = false ∧
      Transfer.wellFormed { we := true, addr := 0x1002, size := 2, wdata := 0 } = false ∧
      Transfer.wellFormed { we := true, addr := 0x1003, size := 0, wdata := 0x77000000 } = true := by decide

/-! ### Decoding: each word from its fields `[31:9]`, `MORE`, `[7:4]`, `OPC` (30_encoding.md R81, R82) -/

theorem test_decode_nop : decodeWord (0#23 ++ 0#1 ++ 0b0000#4 ++ 0b0000#4) = .command .nop := by decide
theorem test_decode_keysetup : decodeWord (0#23 ++ 0#1 ++ 0b0000#4 ++ 0b0001#4) = .command .keysetup := by decide
theorem test_decode_encb : decodeWord (0#23 ++ 0#1 ++ 0b0000#4 ++ 0b0010#4) = .command .encb := by decide
theorem test_decode_decb : decodeWord (0#23 ++ 0#1 ++ 0b0000#4 ++ 0b0011#4) = .command .decb := by decide
theorem test_decode_encs : decodeWord (0#23 ++ 0#1 ++ 0b0000#4 ++ 0b0100#4) = .command .encs := by decide
theorem test_decode_decs : decodeWord (0#23 ++ 0#1 ++ 0b0000#4 ++ 0b0101#4) = .command (.decs false) := by decide
theorem test_decode_decs_more : decodeWord (0#23 ++ 1#1 ++ 0b0000#4 ++ 0b0101#4) = .command (.decs true) := by
  decide
/-- CE-9: four illegal words. -/
theorem test_decode_illegal :
    decodeWord 0x00000007 = .illegal ∧ decodeWord 0x00000102 = .illegal ∧ decodeWord 0x00000015 = .illegal ∧
      decodeWord 0x80000001 = .illegal := by decide
theorem test_encode :
    encode .nop = 0 ∧ encode .keysetup = 1 ∧ encode .encb = 2 ∧ encode .decb = 3 ∧ encode .encs = 4 ∧
      encode (.decs false) = 5 ∧ encode (.decs true) = 0x105 := by decide
/-- The bus moves the least significant byte first (20_memory.md R53). -/
theorem test_decode_bytes : decodeBytes [0x05, 0x01, 0x00, 0x00, 0xAA] = some (.command (.decs true), [0xAA]) := by
  decide
theorem test_decode_table_words :
    decodeTableWord 32 0x105 = some (.decs true) ∧ decodeTableWord 32 4 = some .encs ∧ decodeTableWord 32 6 = none := by
  decide

/-! ### A placed word is run by the next step -/

theorem test_fetch_keysetup : step (State.reset.withFetchWord 32 1) = exec .keysetup (accept 1 State.reset) := by rfl
theorem test_fetch_decs_more :
    step (State.reset.withFetchWord 32 0x105) = exec (.decs true) (accept 0x105 State.reset) := by rfl

/-! ### Word arithmetic (95_test_vectors.md 2.1) -/

/-- WA-3, WA-5, WA-6, WA-7. -/
theorem test_rotl :
    rotl 0x80000001#32 1 = 3#32 ∧ rotl 0x1234#16 20 = 0x2341#16 ∧ rotl 1#64 65 = 2#64 ∧
      rotl 0x12345678#32 0xFFFFFFFF = 0x091A2B3C#32 := by decide
/-- WA-4, WA-8. -/
theorem test_rotr : rotr 3#32 1 = 0x80000001#32 ∧ rotr 1#16 0x10 = 1#16 := by decide
/-- WA-10. -/
theorem test_packing : leWord 32 [1, 2, 3, 4] = 0x04030201#32 ∧ leBytes 2 0xB7E1#16 = [0xE1, 0xB7] := by decide

/-! ### Key schedule (95_test_vectors.md 2.2 to 2.4) -/

/-- AL-1, AL-3, AL-4. -/
theorem test_align :
    align 32 [] = [0#32] ∧ align 32 [1, 2, 3, 4, 5] = [0x04030201#32, 5#32] ∧
      align 16 [1, 2, 3] = [0x0201#16, 3#16] := by decide
/-- EX-2, EX-5. -/
theorem test_expand :
    expand 16 0xB7E1 0x9E37 1 = [0xB7E1#16, 0x5618#16, 0xF44F#16, 0x9286#16] ∧
      expand 64 0xB7E151628AED2A6B 0x9E3779B97F4A7C15 0 = [0xB7E151628AED2A6B#64, 0x5618CB1C0A37A680#64] := by decide
/-- KS-1 and KS-4: the whole schedule. -/
theorem test_schedule :
    schedule 16 0xB7E1 0x9E37 0 [] = [0x7865#16, 0x33F4#16] ∧
      schedule 16 0xB7E1 0x9E37 1 [1, 2, 3] = [0x68D4#16, 0xEEFF#16, 0x047C#16, 0xF307#16] := by decide

/-! ### Block transform (95_test_vectors.md KV-1, BL-5, BL-6) -/

/-- A block encrypted under the schedule of a key. -/
def ciphertext (w p q r : Nat) (key block : List Byte) : List Byte :=
  let s := schedule w p q r key
  blockOut (encipher (fun x => s.getD x 0) r (blockIn w block))

theorem test_known_vector :
    ciphertext 32 0xB7E15163 0x9E3779B9 12 (List.replicate 16 0) (List.replicate 8 0) =
      [0x21, 0xA5, 0xDB, 0xEE, 0x15, 0x4B, 0x8F, 0x6D] := by decide +kernel
theorem test_vector_width_16 :
    ciphertext 16 0xB7E1 0x9E37 12 [0, 1, 2, 3] [0, 1, 2, 3] = [0x24, 0x98, 0x70, 0x57] := by decide +kernel
theorem test_vector_width_64 :
    ciphertext 64 0xB7E151628AED2A6B 0x9E3779B97F4A7C15 12 ((List.range 16).map (BitVec.ofNat 8))
        ((List.range 16).map (BitVec.ofNat 8)) =
      [0x75, 0xDA, 0x0D, 0x75, 0x00, 0x94, 0x18, 0x4E, 0x21, 0x86, 0x22, 0xC0, 0xBF, 0xC1, 0x6D, 0xF0] := by
  decide +kernel

/-! ### Commands -/

/-- CE-13. -/
theorem test_nop : after (exec .nop { machine .drop with kv := true }) statusWord = some 0x06 := by decide
/-- KS-1 as a command. -/
theorem test_keysetup :
    after (exec .keysetup (operands 16 0 0)) (fun t => (t.sram, statusWord t, eparamWord t)) =
      some ([(0, 0x7865), (1, 0x33F4)], 0x06, 0x10) := by decide
/-- CE-1, CE-2, CE-4, CE-5. -/
theorem test_keysetup_errors :
    after (exec .keysetup (operands 24 12 16)) statusWord = some 0x12 ∧
      after (exec .keysetup (operands 32 256 0)) statusWord = some 0x22 ∧
      after (exec .keysetup (operands 24 256 300)) statusWord = some 0x12 ∧
      after (exec .keysetup (operands 64 0 256)) statusWord = some 0x32 := by decide
/-- BL-1, BC-2: `DOUT[4 .. 15]` are 0 whatever they held, and `DIN[4 .. 15]` are ignored. -/
theorem test_encb :
    after (exec .encb { keyed .drop with mem := memWriteBytes [] 0x44 (List.replicate 20 0xFF) })
      (fun t => bytesAt t.mem 0 0x50 16) =
      some [0x65, 0x78, 0xF4, 0x33, 0, 0, 0, 0, 0, 0, 0, 0, 0, 0, 0, 0] := by decide
/-- CE-7, CE-8 and the like of CE-6. -/
theorem test_encb_errors :
    after (exec .encb { machine .drop with dlen := 4 }) statusWord = some 0x52 ∧
      after (exec .encb { keyed .drop with dlen := 8 }) statusWord = some 0x46 := by decide
/-- BL-1, the other way. -/
theorem test_decb :
    after (exec .decb (keyed .drop)) (fun t => bytesAt t.mem 0 0x50 4) = some [0x9B, 0x87, 0x0C, 0xCC] := by decide
theorem test_decb_error : after (exec .decb (machine .drop)) statusWord = some 0x52 := by decide
/-- By hand from 44_stream.md R182 to R184 with the schedule of KS-1: 41 42 43, padded to one block, is the words
0x4241 and 0x0043; with 0x7865 and 0x33F4 added they are 0xBAA6 and 0x3437. -/
theorem test_encs :
    after (exec .encs (message .drop [0x41, 0x42, 0x43])) (fun t => (bytesAt t.mem 0 0x1000 4, t.outlen)) =
      some ([0xA6, 0xBA, 0x37, 0x34], 4) := by decide
/-- The like of CE-10, and the like of ST-5: an empty message gives one block of BL-1. -/
theorem test_encs_corners :
    after (exec .encs { keyed .drop with mlen := 4097 }) statusWord = some 0x76 ∧
      after (exec .encs (message .drop [])) (fun t => (bytesAt t.mem 0 0x1000 4, t.outlen)) =
        some ([0x65, 0x78, 0xF4, 0x33], 4) := by decide
/-- The block of `test_encs` with stripping, and with `MORE` (44_stream.md R186). -/
theorem test_decs_strips :
    after (exec (.decs false) { message .drop [0xA6, 0xBA, 0x37, 0x34] with estrip := true })
        (fun t => (bytesAt t.mem 0 0x1000 4, t.outlen)) = some ([0x41, 0x42, 0x43, 0], 3) ∧
      after (exec (.decs true) { message .drop [0xA6, 0xBA, 0x37, 0x34] with estrip := true }) (fun t => t.outlen) =
        some 4 := by decide
/-- A tail of one byte under both policies (44_stream.md R185): left as it is, or padded and decrypted: the words
0x0041 and 0 less 0x7865 and 0x33F4 are 0x87DC and 0xCC0C. -/
theorem test_decs_tail :
    after (exec (.decs false) (message .drop [0xA6, 0xBA, 0x37, 0x34, 0x41]))
        (fun t => (memRead t.mem 0x1004, t.outlen)) = some (some 0x41, 4) ∧
      after (exec (.decs false) (message .pad [0xA6, 0xBA, 0x37, 0x34, 0x41]))
        (fun t => (bytesAt t.mem 0 0x1004 4, t.outlen)) = some ([0xDC, 0x87, 0x0C, 0xCC], 8) := by decide

/-! ### The engine piece by piece: the counts of 70_reset_and_hazards.md R245 -/

theorem test_pieces_keysetup :
    referencePieces .keysetup (accept 1 (operands 16 0 0)) = 1 + 2 + 6 + 2 ∧
      (enginePieces 10 (accept 1 (operands 16 0 0))).ph = .finish ∧
      .next (enginePieces 11 (accept 1 (operands 16 0 0))) = exec .keysetup (accept 1 (operands 16 0 0)) := by
  refine ⟨by decide, by decide, by rfl⟩
/-- R145: the piece after the checks writes `L[0]`, at index `k` = 0 (10_state.md R44); the word of AL-4. -/
theorem test_pieces_align :
    (enginePieces 1 (accept 1 { operands 16 0 3 with mem := memWriteBytes [] 0x100 [1, 2, 3] })).k = 0 ∧
      (enginePieces 2 (accept 1 { operands 16 0 3 with mem := memWriteBytes [] 0x100 [1, 2, 3] })).lram =
        [(0, 0x0201)] ∧
      (enginePieces 2 (accept 1 { operands 16 0 3 with mem := memWriteBytes [] 0x100 [1, 2, 3] })).k = 1 := by decide
theorem test_pieces_encb :
    .next (enginePieces 3 (accept 2 (keyed .drop))) = exec .encb (accept 2 (keyed .drop)) := by rfl

/-! ### Host port (95_test_vectors.md 2.8) -/

/-- HP-1, HP-2. -/
theorem test_port_reads :
    after (step (withTransfer (r32 0x000) (machine .drop))) (fun t => t.answer) =
        some { ack := true, err := false, rdata := 0x52433501 } ∧
      after (step (withTransfer (r32 0x010) (machine .drop))) (fun t => t.answer.rdata) = some 0 := by decide
/-- HP-3, HP-4, HP-5, HP-9. -/
theorem test_port_bus_errors :
    busErrorCause (machine .drop).build (w16 0x00C 0) = some .registerSize ∧
      busErrorCause (machine .drop).build (r32 0x034) = some .reservedAddress ∧
      busErrorCause (machine .drop).build (w32 0x1002 0) = some .misaligned ∧
      busErrorCause (machine .drop).build { we := false, addr := 0, size := 3, wdata := 0 } = some .illegalSize := by
  decide
/-- HP-10. -/
theorem test_port_beyond_buffer :
    busErrorCause { mbufUnits := 127, tailPolicy := .drop } (w32 0x1800 0) = some .reservedAddress ∧
      busErrorCause { mbufUnits := 127, tailPolicy := .drop } (w32 0x17FC 0) = none := by decide
/-- HP-7, HP-8. -/
theorem test_port_writes :
    after (step (withTransfer (w32 0x100 0x04030201) (machine .drop))) (fun t => bytesAt t.mem 0 0x100 4) =
        some [1, 2, 3, 4] ∧
      after (step (withTransfer { we := true, addr := 0x1003, size := 0, wdata := 0x77000000 } (machine .drop)))
        (fun t => t.mem) = some [(0x1003, 0x77)] := by decide
/-- HP-6, CE-14. -/
theorem test_port_status :
    after (step (withTransfer (w32 0x000 0xFFFFFFFF) (machine .drop))) (fun t => t.lost) = some false ∧
      after (step (withTransfer (w32 0x00C 0x2) { machine .drop with done := true, kv := true, ie := true }))
        (fun t => (statusWord t, irq t)) = some (0x04, false) := by decide
/-- 20_memory.md R63: a write to `WORDBITS` while busy is dropped and `LOST` set. -/
theorem test_port_busy :
    after (step (withTransfer (w32 0x014 32) (accept 0 (machine .drop)))) (fun t => (t.wordbits, statusWord t)) =
      some (0, 0x09) := by decide
/-- A write keeps the canonical form: writing what an unlisted byte reads as takes the cell off the list. -/
theorem test_memory_canonical : memWrite (memWrite [] 0x100 5) 0x100 0 = [] ∧ memWrite [] 0x1000 0 = [(0x1000, 0)] := by
  decide

/-! ### Witnesses: a concrete state and operands that meet the hypotheses of each statement that has some, named
after the statement -/

/-- `w32` of a word to `CMD` is the next transfer. -/
def command (v : Reg) (s : State) : State := withTransfer (w32 0x010 v) s

theorem reset_inv : Sound State.reset := ⟨rfl, rfl, rfl, rfl, rfl, rfl⟩

theorem witness_CapsReportsTheFixedBuild : ∃ t, step State.reset = .next t := ⟨_, rfl⟩

theorem witness_TableWordsDecode : (6 : Nat) ≤ (6 : Fin 16).val ∧ (6 : Nat) ≤ (15 : Fin 16).val := by decide

theorem witness_ReservedWordsAreIllegal :
    (0x10 : Reg).extractLsb' 4 4 ≠ 0 ∧ (0x200 : Reg).extractLsb' 9 23 ≠ 0 ∧
      (0x102 : Reg).getLsbD 8 = true ∧ (0x102 : Reg).extractLsb' 0 4 ≠ 5 := by decide

theorem witness_StepRunsTheAcceptedCommand :
    decodeWord (accept 1 (machine .pad)).opr = .command .keysetup ∧ Instr.wellFormed .keysetup = true ∧
      atStart (accept 1 (machine .pad)) = true ∧ (accept 1 (machine .pad)).inputs = [] ∧
      decodeWord { accept 2 (machine .pad) with inputs := [.engineRun] }.opr = .command .encb ∧
      Instr.wellFormed .encb = true ∧ atStart { accept 2 (machine .pad) with inputs := [.engineRun] } = true ∧
      { accept 2 (machine .pad) with inputs := [.engineRun] }.inputs = .engineRun :: [] := by decide

theorem witness_CommandWriteAcceptedExactlyWhenIdle :
    (command 1 (machine .drop)).inputs = .hostTransfer (w32 0x010 1) :: [] ∧
      (command 1 (machine .drop)).busy = false ∧ (command 1 (accept 0 (machine .drop))).busy = true := by decide

theorem witness_IllegalWordCompletesWithCodeSix :
    decodeWord (accept 0x102 (machine .drop)).opr = .illegal ∧ atStart (accept 0x102 (machine .drop)) = true ∧
      (accept 0x102 (machine .drop)).inputs = [] ∧
      decodeWord { accept 7 (machine .drop) with inputs := [.engineRun] }.opr = .illegal ∧
      atStart { accept 7 (machine .drop) with inputs := [.engineRun] } = true ∧
      { accept 7 (machine .drop) with inputs := [.engineRun] }.inputs = .engineRun :: [] := by decide

theorem witness_NopOnlyCompletes : (keyed .drop).lost = false ∧ (keyed .drop).kv = true := by decide

theorem witness_KeysetupChecksInOrder :
    ¬ legalWidth (operands 24 256 300).wordbits.toNat ∧
      (legalWidth (operands 32 256 0).wordbits.toNat ∧ 255 < (operands 32 256 0).rounds.toNat) ∧
      (legalWidth (operands 64 255 256).wordbits.toNat ∧ (operands 64 255 256).rounds.toNat ≤ 255 ∧
        255 < (operands 64 255 256).keylen.toNat) := by decide

theorem witness_BlockChecksInOrder :
    (machine .drop).kv = false ∧ (keyed .drop).kv = true ∧
      { keyed .drop with dlen := 5 }.dlen.toNat ≠ 2 * ({ keyed .drop with dlen := 5 }.ew.toNat / 8) := by decide

theorem witness_StreamChecksInOrder :
    (machine .drop).kv = false ∧ { keyed .pad with mlen := 4097 }.kv = true ∧
      { keyed .pad with mlen := 4097 }.build.mbufBytes < { keyed .pad with mlen := 4097 }.mlen.toNat := by decide

theorem witness_FailedCommandFailsAgain :
    ∃ t, exec .encb (machine .drop) = .next t ∧ t.err ≠ .success ∧
      (accept 2 (machine .drop)).wordbits = (machine .drop).wordbits ∧
      (accept 2 (machine .drop)).rounds = (machine .drop).rounds ∧
      (accept 2 (machine .drop)).keylen = (machine .drop).keylen ∧
      (accept 2 (machine .drop)).dlen = (machine .drop).dlen ∧
      (accept 2 (machine .drop)).mlen = (machine .drop).mlen ∧ (accept 2 (machine .drop)).kv = (machine .drop).kv ∧
      (accept 2 (machine .drop)).ew = (machine .drop).ew ∧ (accept 2 (machine .drop)).build = (machine .drop).build :=
  ⟨_, rfl, by decide⟩

/-- The least and the greatest operands. -/
theorem witness_KeysetupCommitsTheSchedule :
    (legalWidth (operands 16 0 0).wordbits.toNat ∧ (operands 16 0 0).rounds.toNat ≤ 255 ∧
      (operands 16 0 0).keylen.toNat ≤ 255) ∧
    (legalWidth (operands 64 255 255).wordbits.toNat ∧ (operands 64 255 255).rounds.toNat ≤ 255 ∧
      (operands 64 255 255).keylen.toNat ≤ 255) := by decide

theorem witness_AlignedKeyIsLittleEndian :
    legalWidth 16 ∧ legalWidth 32 ∧ legalWidth 64 ∧ ([1, 2, 3] : List Byte).length ≤ 255 ∧
      1 < (align 16 [1, 2, 3]).length ∧ 1 < 16 / 8 := by decide

/-- AL-7. -/
theorem witness_KeyPaddingIsImmaterial :
    legalWidth 32 ∧ ([1] : List Byte) ≠ [] ∧ ([1] : List Byte).length + 1 ≤ (align 32 [1]).length * (32 / 8) := by
  decide

theorem witness_ExpansionIsTheRecurrence : 0 < 2 * (0 + 1) ∧ 0 + 1 < 2 * (0 + 1) ∧ 511 < 2 * (255 + 1) := by decide

theorem witness_ConstantsOfTheThreeWidths : ¬ legalWidth 24 ∧ constants 16 = some (0xB7E1, 0x9E37) := by decide

/-- The first step of KS-1, and the operands of a step. -/
theorem witness_MixingStepByLine :
    ∃ m : Mix 16, m.i < m.s.length ∧ m.j < m.l.length ∧ (mixStep m).a = 0xBF0D ∧ (mixStep m).b = 0xB7E1 :=
  ⟨{ s := expand 16 0xB7E1 0x9E37 0, l := align 16 [], a := 0, b := 0, i := 0, j := 0 }, by decide⟩

/-- One round with the schedule of constant entries 1. -/
theorem witness_TransformsByLine :
    encipher (fun _ => 1 : Nat → BitVec 16) 0 (0, 0) = (1, 1) ∧
      (1 : BitVec 16) = rotl ((1 : BitVec 16) ^^^ 1) 1 + 1 ∧ (1 : BitVec 16) = rotl ((1 : BitVec 16) ^^^ 1) 1 + 1 := by
  decide

theorem witness_MixingCursorsWrap : align 16 [] ≠ [] ∧ expand 16 0xB7E1 0x9E37 0 ≠ [] := by decide

/-- Two states that differ beyond the key. -/
theorem witness_KeysetupReadsOnlyItsOperands :
    ∃ t, legalWidth (operands 16 0 1).wordbits.toNat ∧ (operands 16 0 1).rounds.toNat ≤ 255 ∧
      (operands 16 0 1).keylen.toNat ≤ 255 ∧
      { operands 16 0 1 with mem := [(0x101, 7)] }.wordbits = (operands 16 0 1).wordbits ∧
      { operands 16 0 1 with mem := [(0x101, 7)] }.rounds = (operands 16 0 1).rounds ∧
      { operands 16 0 1 with mem := [(0x101, 7)] }.keylen = (operands 16 0 1).keylen ∧
      { operands 16 0 1 with mem := [(0x101, 7)] }.strip = (operands 16 0 1).strip ∧
      (∀ k, k < (operands 16 0 1).keylen.toNat →
        memRead { operands 16 0 1 with mem := [(0x101, 7)] }.mem (0x0100 + k) =
          memRead (operands 16 0 1).mem (0x0100 + k)) ∧
      exec .keysetup (operands 16 0 1) = .next t :=
  ⟨_, by decide, by decide, by decide, rfl, rfl, rfl, rfl, by decide, rfl⟩

theorem witness_rotations : 0 < 32 ∧ 31 < 32 ∧ 1 % 32 ≠ 0 ∧ 32 % 32 = 0 ∧ legalWidth 16 := by decide

theorem witness_LittleEndianPackingInverts :
    legalWidth 64 ∧ ([1, 2, 3, 4, 5, 6, 7, 8] : List Byte).length = 64 / 8 ∧ 7 < 64 / 8 := by decide

/-- Two schedules that differ from entry `T` on. -/
theorem witness_CipherReadsOnlyTheSchedule :
    ∀ x, x < 2 * (0 + 1) → (fun _ => 1 : Nat → BitVec 16) x = (fun y => if y < 2 then 1 else 0 : Nat → BitVec 16) x := by
  decide

theorem witness_blockCommands :
    (keyed .drop).kv = true ∧ legalWidth (keyed .drop).ew.toNat ∧
      (keyed .drop).dlen.toNat = 2 * ((keyed .drop).ew.toNat / 8) := by decide

theorem witness_BlockCommandsRoundTrip :
    (∃ t, exec .encb (keyed .drop) = .next t) ∧ ∃ t, exec .decb (keyed .drop) = .next t := ⟨⟨_, rfl⟩, _, rfl⟩

/-- An empty segment and one of the whole buffer. -/
theorem witness_EncsEncryptsEveryBlock :
    ((message .drop []).kv = true ∧ legalWidth (message .drop []).ew.toNat ∧
      (message .drop []).mlen.toNat ≤ (message .drop []).build.mbufBytes) ∧
    ({ keyed .pad with mlen := 4096 }.kv = true ∧ legalWidth { keyed .pad with mlen := 4096 }.ew.toNat ∧
      { keyed .pad with mlen := 4096 }.mlen.toNat ≤ { keyed .pad with mlen := 4096 }.build.mbufBytes) := by decide

/-- A tail of one byte, with stripping, under both policies. -/
theorem witness_DecsDecryptsByThePolicy :
    ∀ policy, policy = .drop ∨ policy = .pad →
      { message policy [1, 2, 3, 4, 5] with estrip := true }.kv = true ∧
      legalWidth { message policy [1, 2, 3, 4, 5] with estrip := true }.ew.toNat ∧
      { message policy [1, 2, 3, 4, 5] with estrip := true }.mlen.toNat ≤
        { message policy [1, 2, 3, 4, 5] with estrip := true }.build.mbufBytes ∧
      { message policy [1, 2, 3, 4, 5] with estrip := true }.mlen.toNat %
        (2 * ({ message policy [1, 2, 3, 4, 5] with estrip := true }.ew.toNat / 8)) ≠ 0 := by
  intro policy h
  rcases h with rfl | rfl <;> decide

/-- The hypotheses of StreamCommandsRoundTrip for a message held in `MBUF`. -/
def streamMessage (p : List Byte) (s : State) : Prop :=
  s.kv = true ∧ legalWidth s.ew.toNat ∧ s.mlen.toNat ≤ s.build.mbufBytes ∧ p.length = s.mlen.toNat ∧
    (∀ k, k < p.length → memRead s.mem (0x1000 + k) = some (p.getD k 0)) ∧ ∃ t, exec .encs s = .next t

/-- A message, the empty message and a message that ends in a zero byte, the last with stripping. -/
theorem witness_StreamCommandsRoundTrip :
    streamMessage [0x41, 0x42, 0x43] (message .drop [0x41, 0x42, 0x43]) ∧ streamMessage [] (message .drop []) ∧
      streamMessage [0x41, 0] { message .pad [0x41, 0] with estrip := true } :=
  ⟨⟨rfl, by decide, by decide, by decide, by decide, _, rfl⟩,
    ⟨rfl, by decide, by decide, by decide, by decide, _, rfl⟩,
    ⟨rfl, by decide, by decide, by decide, by decide, _, rfl⟩⟩

/-- A sound state with a command that is no KEYSETUP under way. -/
theorem witness_sound_busy :
    Sound (accept 2 (machine .drop)) ∧ (accept 2 (machine .drop)).busy = true ∧
      (accept 2 (machine .drop)).inputs = [] ∧ ∃ t, step (accept 2 (machine .drop)) = .next t :=
  ⟨⟨by decide, by decide, by decide, by decide, by decide, by decide⟩, rfl, rfl, _, rfl⟩

theorem witness_SchedulePersists :
    (∀ es, (accept 2 (machine .drop)).inputs ≠ .reset :: es) ∧
      ¬ ((accept 2 (machine .drop)).busy = true ∧ decodeWord (accept 2 (machine .drop)).opr = .command .keysetup ∧
        legalWidth (accept 2 (machine .drop)).wordbits.toNat ∧ (accept 2 (machine .drop)).rounds.toNat ≤ 255 ∧
        (accept 2 (machine .drop)).keylen.toNat ≤ 255) := by
  constructor
  · intro es h; cases h
  · decide

theorem witness_MemoryStaysCanonical : ramsCanonical (message .drop [1, 2, 3]) = true := by decide

theorem witness_IdleExactlyWhenNotBusy : (accept 1 (machine .drop)).ph = .idle ↔ (accept 1 (machine .drop)).busy = false := by
  decide

/-- What the statements about pieces ask of a command word accepted in a state. -/
def startsSound (v : Reg) (i : Instr) (s : State) : Prop :=
  decodeWord (accept v s).opr = .command i ∧ atStart (accept v s) = true ∧
    ((accept v s).kv = true → legalWidth (accept v s).ew.toNat)

theorem witness_BlockPiecesReachTheCommand :
    startsSound 2 .encb (keyed .drop) ∧ startsSound 3 .decb (keyed .drop) ∧ startsSound 2 .encb (machine .drop) :=
  ⟨⟨by decide, by decide, by decide⟩, ⟨by decide, by decide, by decide⟩, ⟨by decide, by decide, by decide⟩⟩

theorem witness_KeysetupPiecesReachTheCommand :
    decodeWord (accept 1 (operands 16 0 0)).opr = .command .keysetup ∧ atStart (accept 1 (operands 16 0 0)) = true ∧
      cellsRising (accept 1 (operands 16 0 0)).sram = true := by decide

theorem witness_StreamPiecesReachTheCommand :
    startsSound 4 .encs (message .drop [1, 2, 3]) ∧ startsSound 5 (.decs false) (message .drop [1]) ∧
      startsSound 0x105 (.decs true) (message .pad [1]) :=
  ⟨⟨by decide, by decide, by decide⟩, ⟨by decide, by decide, by decide⟩, ⟨by decide, by decide, by decide⟩⟩

/-- An idle engine, with no event and with an engine's turn to come. -/
theorem witness_IdleEngineDoesNothing :
    (machine .drop).ph = .idle ∧ (machine .drop).inputs = [] ∧
      { machine .drop with inputs := [.enginePiece] }.ph = .idle ∧
      { machine .drop with inputs := [.enginePiece] }.inputs = .enginePiece :: [] := by decide

theorem witness_BusyFreezesOperands :
    (∀ es, (withTransfer (w32 0x014 1) (accept 2 (machine .drop))).inputs ≠ .reset :: es) ∧
      ∃ t, step (withTransfer (w32 0x014 1) (accept 2 (machine .drop))) = .next t := by
  constructor
  · intro es h; cases h
  · exact ⟨_, rfl⟩

theorem witness_ResultsAppearOnlyAtCompletion : (enginePiece (accept 2 (keyed .drop))).busy = true := by decide

/-- Writes to an operand register, to `DIN`, to `KEY`, to `MBUF`, to `CTRL` and to `STATUS`, none a bus error. -/
theorem witness_writes :
    ∀ x ∈ [0x010, 0x028, 0x040, 0x04C, 0x100, 0x1FC, 0x1000, 0x1FFC, 0x008, 0x00C],
      busErrorCause (machine .drop).build (w32 x 5) = none ∧ (w32 x 5).we = true ∧ (w32 x 5).addr.toNat = x := by decide

theorem witness_busy_transfer :
    (withTransfer (w32 0x028 5) (accept 2 (machine .drop))).busy = true ∧
      (withTransfer (w32 0x028 5) (accept 2 (machine .drop))).inputs = .hostTransfer (w32 0x028 5) :: [] := by decide

theorem witness_idle_transfer :
    (withTransfer (w8 0x1003 5) (machine .drop)).busy = false ∧
      (withTransfer (w8 0x1003 5) (machine .drop)).inputs = .hostTransfer (w8 0x1003 5) :: [] ∧
      (w8 0x1003 5).we = true ∧ busErrorCause (machine .drop).build (w8 0x1003 5) = none := by decide

/-- Writes to `CTRL` and `STATUS`, idle and busy. -/
theorem witness_WritesWhileBusyAreDropped :
    (withTransfer (w32 0x008 1) (machine .drop)).inputs = .hostTransfer (w32 0x008 1) :: [] ∧
      (withTransfer (w32 0x008 1) (machine .drop)).busy = false ∧ (w32 0x008 1).addr.toNat = 0x008 ∧
      (withTransfer (w32 0x00C 8) (accept 2 (machine .drop))).inputs = .hostTransfer (w32 0x00C 8) :: [] ∧
      (withTransfer (w32 0x00C 8) (accept 2 (machine .drop))).busy = true ∧ (w32 0x00C 8).addr.toNat = 0x00C := by
  decide

/-- Bits [31:1] of a write to `STRIP` are ignored. -/
theorem witness_IdleRegisterWritesAreHeld :
    (withTransfer (w32 0x020 0xFFFFFFFF) (machine .drop)).busy = false ∧
      (withTransfer (w32 0x020 0xFFFFFFFF) (machine .drop)).inputs = .hostTransfer (w32 0x020 0xFFFFFFFF) :: [] ∧
      after (step (withTransfer (w32 0x020 0xFFFFFFFF) (machine .drop))) (fun t => regRead t .strip) = some 1 := by
  decide

/-- The last register and the last byte of `KEY` are read without a bus error. -/
theorem witness_ReadsHaveNoSideEffect :
    (r32 0x030).we = false ∧ busErrorCause (machine .drop).build (r32 0x030) = none ∧
      regAt (r32 0x030).addr.toNat = some .eparam ∧
      (r8 0x1FF).we = false ∧ busErrorCause (machine .drop).build (r8 0x1FF) = none ∧
      0x0040 ≤ (r8 0x1FF).addr.toNat ∧ ([0] : List Byte).length = 2 ^ (r8 0x1FF).size.toNat ∧
      (∀ k, k < ([0] : List Byte).length →
        memRead (machine .drop).mem ((r8 0x1FF).addr.toNat + k) = some (([0] : List Byte).getD k 0)) := by decide

/-- The read-only places, and a reserved address. -/
theorem witness_ReadOnlyWritesAreIgnored :
    (∀ x ∈ [0x000, 0x004, 0x02C, 0x030, 0x050, 0x05C],
      busErrorCause (machine .drop).build (w32 x 5) = none ∧ (w32 x 5).addr.toNat = x) ∧
      0x0034 ≤ (w32 0x03C 5).addr.toNat ∧ (w32 0x03C 5).addr.toNat < 0x0040 := by decide

theorem witness_InterruptIsEnableAndDone :
    (∃ t, step (accept 0 (machine .drop)) = .next t ∧ (accept 0 (machine .drop)).done = false ∧ t.done = true) ∧
      (0x2 : Reg).getLsbD 1 = true ∧
      (withTransfer (w32 0x00C 2) (machine .drop)).inputs = .hostTransfer (w32 0x00C 2) :: [] ∧
      (withTransfer (w32 0x008 1) (machine .drop)).inputs = .hostTransfer (w32 0x008 1) :: [] ∧
      (command 2 { machine .drop with done := true, ie := true }).busy = false ∧
      (command 2 { machine .drop with done := true, ie := true }).inputs = .hostTransfer (w32 0x010 2) :: [] ∧
      { machine .drop with done := true, ie := true, inputs := [.reset] }.inputs = .reset :: [] :=
  ⟨⟨_, rfl, rfl, rfl⟩, by decide, rfl, rfl, rfl, rfl, rfl⟩

theorem witness_ResetEdgeClearsTheBlock :
    { accept 2 (machine .drop) with inputs := [.reset] }.inputs = .reset :: [] := by decide

theorem witness_ScheduleIsNotReadable :
    ∃ t, (withTransfer (r32 0x050) (keyed .drop)).inputs = .hostTransfer (r32 0x050) :: [] ∧
      step (withTransfer (r32 0x050) (keyed .drop)) = .next t := ⟨_, rfl, rfl⟩

end Sys2Proof.Tests
end

section
/-! SUPPORT. The bits of the words the host reads (10_state.md R24 to R35), one lemma per word, and the statements on
register views. -/

namespace Sys2Proof.Machine

/-! ### Bit `x` of a register as the host reads it -/

/-- Bits of `STATUS` (10_state.md R26). -/
theorem getLsbD_statusWord (s : State) (x : Nat) :
    (statusWord s).getLsbD x =
      if x = 0 then s.busy else if x = 1 then s.done else if x = 2 then s.kv else if x = 3 then s.lost
      else (errorNumber s.err).getLsbD (x - 4) := by
  refine (BitVec.getLsbD_append (n := 24 + 4 + 1 + 1 + 1)).trans ?_
  simp only [BitVec.getLsbD_append, BitVec.getLsbD_ofBool, BitVec.getLsbD_zero]
  rcases x with _ | _ | _ | _ | x <;> simp
  exact BitVec.lt_of_getLsbD

/-- Bits of `EPARAM` (10_state.md R35). -/
theorem getLsbD_eparamWord (s : State) (x : Nat) :
    (eparamWord s).getLsbD x =
      if x < 8 then s.ew.getLsbD x else if x < 16 then s.er.getLsbD (x - 8) else decide (x = 16) && s.estrip := by
  refine (BitVec.getLsbD_append (n := 15 + 1 + 8)).trans ?_
  simp only [BitVec.getLsbD_append, BitVec.getLsbD_ofBool, BitVec.getLsbD_zero]
  rcases Nat.lt_trichotomy x 16 with hx | rfl | hx
  · simp [hx, show x - 8 < 8 by omega]
  · simp
  · simp [show ¬ x < 16 by omega, show x ≠ 16 by omega, show ¬ x - 8 < 8 by omega, show ¬ x - 8 - 8 < 1 by omega]

/-- Bits of `CAPS` (10_state.md R24). -/
theorem getLsbD_capsWord (p : BuildParams) (x : Nat) :
    (capsWord p).getLsbD x =
      if x < 16 then (BitVec.ofNat 16 p.mbufBytes).getLsbD x else decide (x = 16) && (p.tailPolicy == .pad) := by
  refine (BitVec.getLsbD_append (n := 15 + 1)).trans ?_
  simp only [BitVec.getLsbD_append, BitVec.getLsbD_ofBool, BitVec.getLsbD_zero]
  rcases Nat.lt_trichotomy x 16 with hx | rfl | hx
  · simp [hx]
  · simp
  · simp [show ¬ x < 16 by omega, show x ≠ 16 by omega, show ¬ x - 16 = 0 by omega]

/-- A register with one bit in use (`CTRL`, `STRIP`) reads that bit, and 0 above it (10_state.md R25, R31). -/
theorem getLsbD_flagWord (b : Bool) (x : Nat) :
    (0#31 ++ BitVec.ofBool b : Reg).getLsbD x = (decide (x = 0) && b) := by
  refine BitVec.getLsbD_append.trans ?_
  rcases x with _ | x <;> simp

theorem flagWord_bit_zero (b : Bool) : (0#31 ++ BitVec.ofBool b : Reg).getLsbD 0 = b := by
  rw [getLsbD_flagWord, decide_eq_true rfl, Bool.true_and]

theorem flagWord_upper_bits (b : Bool) : (0#31 ++ BitVec.ofBool b : Reg).extractLsb' 1 31 = 0 := by
  apply BitVec.eq_of_getLsbD_eq
  intro x hx
  simp only [BitVec.getLsbD_extractLsb', getLsbD_flagWord]
  simp

/-- Keeping bit 0 of a written word is masking it with 1 (10_state.md R31). -/
theorem flagWord_getLsbD_zero (v : Reg) : (0#31 ++ BitVec.ofBool (v.getLsbD 0) : Reg) = v &&& 1 := by
  apply BitVec.eq_of_getLsbD_eq
  intro x hx
  rw [getLsbD_flagWord, BitVec.getLsbD_and]
  rcases x with _ | x <;> simp

theorem statusWord_error_field (s : State) : (statusWord s).extractLsb' 4 4 = errorNumber s.err := by
  apply BitVec.eq_of_getLsbD_eq
  intro x hx
  simp only [BitVec.getLsbD_extractLsb', hx, decide_true, Bool.true_and, getLsbD_statusWord]
  simp [show 4 + x ≠ 1 by omega, show 4 + x ≠ 2 by omega, show 4 + x ≠ 3 by omega]

theorem statusWord_upper_bits (s : State) : (statusWord s).extractLsb' 8 24 = 0 := by
  apply BitVec.eq_of_getLsbD_eq
  intro x hx
  simp only [BitVec.getLsbD_extractLsb', getLsbD_statusWord]
  simp [show 8 + x ≠ 1 by omega, show 8 + x ≠ 2 by omega, show 8 + x ≠ 3 by omega]
  exact fun _ => BitVec.getLsbD_of_ge _ _ (by omega)

theorem eparamWord_ew_field (s : State) : (eparamWord s).extractLsb' 0 8 = s.ew := by
  apply BitVec.eq_of_getLsbD_eq
  intro x hx
  simp only [BitVec.getLsbD_extractLsb', Nat.zero_add, hx, decide_true, Bool.true_and, getLsbD_eparamWord, if_true]

theorem eparamWord_er_field (s : State) : (eparamWord s).extractLsb' 8 8 = s.er := by
  apply BitVec.eq_of_getLsbD_eq
  intro x hx
  simp only [BitVec.getLsbD_extractLsb', hx, decide_true, Bool.true_and, getLsbD_eparamWord,
    if_neg (show ¬ 8 + x < 8 by omega), if_pos (show 8 + x < 16 by omega), Nat.add_sub_cancel_left]

theorem eparamWord_upper_bits (s : State) : (eparamWord s).extractLsb' 17 15 = 0 := by
  apply BitVec.eq_of_getLsbD_eq
  intro x hx
  simp only [BitVec.getLsbD_extractLsb', getLsbD_eparamWord]
  simp [show ¬ 17 + x < 8 by omega, show ¬ 17 + x < 16 by omega, show 17 + x ≠ 16 by omega]

theorem capsWord_size_field (p : BuildParams) : (capsWord p).extractLsb' 0 16 = BitVec.ofNat 16 p.mbufBytes := by
  apply BitVec.eq_of_getLsbD_eq
  intro x hx
  simp only [BitVec.getLsbD_extractLsb', Nat.zero_add, hx, decide_true, Bool.true_and, getLsbD_capsWord, if_true]

theorem capsWord_upper_bits (p : BuildParams) : (capsWord p).extractLsb' 17 15 = 0 := by
  apply BitVec.eq_of_getLsbD_eq
  intro x hx
  simp only [BitVec.getLsbD_extractLsb', getLsbD_capsWord]
  simp [show ¬ 17 + x < 16 by omega, show 17 + x ≠ 16 by omega]

/-! ### The statements on register views -/

/-- Settles O58: the words with unused bits read by their bits, the others as they are held. -/
theorem registersReadAsTheyHold : Obligations.RegistersReadAsTheyHold := by
  intro s
  exact ⟨rfl, rfl, flagWord_bit_zero _, flagWord_upper_bits _, flagWord_bit_zero _, flagWord_upper_bits _,
    rfl, rfl, rfl, rfl, rfl, rfl⟩

/-- Settles O3, from the fields of `STATUS` and `EPARAM`; the numbers of R200 are those of `errorNumber`. -/
theorem statusAndEparamFields : Obligations.StatusAndEparamFields := by
  intro s
  have code : (regRead s .status).extractLsb' 4 4 = errorNumber s.err := statusWord_error_field s
  refine ⟨getLsbD_statusWord s 0, getLsbD_statusWord s 1, getLsbD_statusWord s 2, getLsbD_statusWord s 3,
    code.trans ?_, statusWord_upper_bits s, eparamWord_ew_field s, eparamWord_er_field s,
    getLsbD_eparamWord s 16, eparamWord_upper_bits s⟩
  cases s.err <;> rfl

/-- Settles O1: each clause is a field of the reset state, or a read of an empty list of cells. -/
theorem resetHoldsTheSpecsValues : Obligations.ResetHoldsTheSpecsValues := by
  refine ⟨rfl, rfl, ?registers, ?buffers, ?mbuf, rfl, rfl, rfl, rfl, fun x => ⟨rfl, rfl⟩,
    rfl, rfl, rfl, rfl, rfl, rfl, rfl, rfl, rfl, rfl⟩
  case registers =>
    intro r hid hcaps
    cases r with
    | id => exact absurd rfl hid
    | caps => exact absurd rfl hcaps
    | _ => rfl
  case buffers =>
    intro x hx
    exact if_pos hx
  case mbuf =>
    intro x hx
    exact if_neg (by omega)

end Sys2Proof.Machine
end

section
/-! SUPPORT. What each piece of the engine can do (Machine/Sequencer.lean), said once: one lemma per phase lists its
cases with the conditions that select them, so that no later proof unfolds a piece. -/

namespace Sys2Proof.Machine

variable (s : State)

/-! ### The phases of KEYSETUP (42_key_schedule.md R145 to R147) -/

theorem setupAlignPiece_cases :
    (∃ e, keysetupParams s = .error e ∧ setupAlignPiece s = completeWith e s) ∨
      ∃ p, keysetupParams s = .ok p ∧
        (s.begun = false ∧ setupAlignPiece s = { s with k := 0, begun := true } ∨
          s.begun = true ∧ ∃ lram, lram = cellSet s.k.toNat (toLong (alignWord p.w (keyBytes s p.b) s.k.toNat)) s.lram ∧
            (s.k.toNat + 1 = alignedLen p.w p.b ∧
                setupAlignPiece s = { s with lram := lram, ph := .setupExpand, k := 0 } ∨
              s.k.toNat + 1 ≠ alignedLen p.w p.b ∧
                setupAlignPiece s = { s with lram := lram, k := BitVec.ofNat 11 (s.k.toNat + 1) })) := by
  unfold setupAlignPiece
  split
  next e hk => exact .inl ⟨e, hk, rfl⟩
  next p hk =>
    refine .inr ⟨p, hk, ?_⟩
    split
    next hb => exact .inl ⟨hb, rfl⟩
    next hb =>
      refine .inr ⟨eq_true_of_ne_false hb, _, rfl, ?_⟩
      dsimp only
      split
      next hx => exact .inl ⟨hx, rfl⟩
      next hx => exact .inr ⟨hx, rfl⟩

/-- The entry that a piece of SETUP_EXPAND writes (R138). -/
def expandEntry (p : KeyParams) (s : State) : BitVec p.w :=
  if s.k.toNat = 0 then BitVec.ofNat p.w p.p
  else scheduleWord p.w s.sram (s.k.toNat - 1) + BitVec.ofNat p.w p.q

theorem setupExpandPiece_cases :
    (∃ e, keysetupParams s = .error e ∧ setupExpandPiece s = completeWith e s) ∨
      ∃ p sram, keysetupParams s = .ok p ∧ sram = cellSet s.k.toNat (toLong (expandEntry p s)) s.sram ∧
        (s.k.toNat + 1 = scheduleLen p.r ∧
            setupExpandPiece s = { s with sram := sram, ph := .setupMix, k := 0, a := 0, b := 0, i := 0, j := 0 } ∨
          s.k.toNat + 1 ≠ scheduleLen p.r ∧
            setupExpandPiece s = { s with sram := sram, k := BitVec.ofNat 11 (s.k.toNat + 1) }) := by
  unfold setupExpandPiece
  split
  next e hk => exact .inl ⟨e, hk, rfl⟩
  next p hk =>
    refine .inr ⟨p, _, hk, rfl, ?_⟩
    dsimp only
    split
    next hx => exact .inl ⟨hx, rfl⟩
    next hx => exact .inr ⟨hx, rfl⟩

/-- The two words that a piece of SETUP_MIX computes (R140). -/
def mixPair (p : KeyParams) (s : State) : BitVec p.w × BitVec p.w :=
  mixWords (scheduleWord p.w s.sram s.i.toNat) (alignedWord p.w s.lram s.j.toNat) (ofLong p.w s.a) (ofLong p.w s.b)

/-- The state after a mixing step, before the phase is seen to be over (R147). -/
def mixed (p : KeyParams) (s : State) : State :=
  { s with
    sram := cellSet s.i.toNat (toLong (mixPair p s).1) s.sram
    lram := cellSet s.j.toNat (toLong (mixPair p s).2) s.lram
    a := toLong (mixPair p s).1
    b := toLong (mixPair p s).2
    i := BitVec.ofNat 9 ((s.i.toNat + 1) % scheduleLen p.r)
    j := BitVec.ofNat 7 ((s.j.toNat + 1) % alignedLen p.w p.b)
    k := BitVec.ofNat 11 (s.k.toNat + 1) }

theorem setupMixPiece_cases :
    (∃ e, keysetupParams s = .error e ∧ setupMixPiece s = completeWith e s) ∨
      ∃ p, keysetupParams s = .ok p ∧
        (s.k.toNat + 1 = mixCount (alignedLen p.w p.b) (scheduleLen p.r) ∧
            setupMixPiece s = { mixed p s with ph := .finish, k := 0 } ∨
          s.k.toNat + 1 ≠ mixCount (alignedLen p.w p.b) (scheduleLen p.r) ∧ setupMixPiece s = mixed p s) := by
  unfold setupMixPiece
  split
  next e hk => exact .inl ⟨e, hk, rfl⟩
  next p hk =>
    refine .inr ⟨p, hk, ?_⟩
    dsimp only
    split
    next hx => exact .inl ⟨hx, rfl⟩
    next hx => exact .inr ⟨hx, rfl⟩

/-! ### The phases of a block command (43_block_cipher.md R165, R168, R170) -/

theorem blockEncPiece_cases :
    (s.begun = false ∧ blockCheck s = .success ∧
        blockEncPiece s = { loadHalves (dinBlock s) 0 s with begun := true }) ∨
      (s.begun = false ∧ blockCheck s ≠ .success ∧ blockEncPiece s = completeWith (blockCheck s) s) ∨
      (s.begun = true ∧ s.rc.toNat = s.er.toNat ∧ blockEncPiece s = { encRoundPiece s with ph := .finish }) ∨
      (s.begun = true ∧ s.rc.toNat ≠ s.er.toNat ∧ blockEncPiece s = encRoundPiece s) := by
  unfold blockEncPiece
  split
  next hb =>
    split
    next hc => exact .inl ⟨hb, hc, rfl⟩
    next hc => exact .inr (.inl ⟨hb, hc, rfl⟩)
  next hb =>
    split
    next hr => exact .inr (.inr (.inl ⟨eq_true_of_ne_false hb, hr, rfl⟩))
    next hr => exact .inr (.inr (.inr ⟨eq_true_of_ne_false hb, hr, rfl⟩))

theorem blockDecPiece_cases :
    (s.begun = false ∧ blockCheck s = .success ∧
        blockDecPiece s = { loadHalves (dinBlock s) (s.er.setWidth 9) s with begun := true }) ∨
      (s.begun = false ∧ blockCheck s ≠ .success ∧ blockDecPiece s = completeWith (blockCheck s) s) ∨
      (s.begun = true ∧ s.rc = 0 ∧ blockDecPiece s = { decRoundPiece s with ph := .finish }) ∨
      (s.begun = true ∧ s.rc ≠ 0 ∧ blockDecPiece s = decRoundPiece s) := by
  unfold blockDecPiece
  split
  next hb =>
    split
    next hc => exact .inl ⟨hb, hc, rfl⟩
    next hc => exact .inr (.inl ⟨hb, hc, rfl⟩)
  next hb =>
    split
    next hr => exact .inr (.inr (.inl ⟨eq_true_of_ne_false hb, hr, rfl⟩))
    next hr => exact .inr (.inr (.inr ⟨eq_true_of_ne_false hb, hr, rfl⟩))

/-! ### The phases of a stream command (44_stream.md R180, R184, R187) -/

/-- The state with block `blk` stored, before the last block is seen to be done. -/
def storedBlock (s : State) : State :=
  { s with
    mem := memWriteBytes s.mem (mbufBlockAddr s s.blk.toNat) (blockOut (halves s))
    blk := BitVec.ofNat 11 (s.blk.toNat + 1)
    k := 0 }

theorem streamBegin_cases (nb : Nat) (m : Memory) :
    (nb = 0 ∧ streamBegin nb m s = { s with mem := m, blk := 0, ph := .finish, begun := true }) ∨
      (nb ≠ 0 ∧ streamBegin nb m s = { s with mem := m, blk := 0, k := 0, begun := true }) := by
  unfold streamBegin
  split
  next h => exact .inl ⟨h, rfl⟩
  next h => exact .inr ⟨h, rfl⟩

theorem streamStore_cases (nb : Nat) :
    (s.blk.toNat + 1 = nb ∧ streamStore nb s = { storedBlock s with ph := .finish }) ∨
      (s.blk.toNat + 1 ≠ nb ∧ streamStore nb s = storedBlock s) := by
  unfold streamStore
  dsimp only
  split
  next h => exact .inl ⟨h, rfl⟩
  next h => exact .inr ⟨h, rfl⟩

theorem streamEncPiece_cases :
    (s.begun = false ∧ streamCheck s = .success ∧
        streamEncPiece s = streamBegin (encsBlocks s) (encsPadded s) s) ∨
      (s.begun = false ∧ streamCheck s ≠ .success ∧ streamEncPiece s = completeWith (streamCheck s) s) ∨
      (s.begun = true ∧ s.k = 0 ∧
        streamEncPiece s = { loadHalves (mbufBlock s s.mem s.blk.toNat) 0 s with k := 1 }) ∨
      (s.begun = true ∧ s.k = 1 ∧ s.rc.toNat = s.er.toNat ∧ streamEncPiece s = { encRoundPiece s with k := 2 }) ∨
      (s.begun = true ∧ s.k = 1 ∧ s.rc.toNat ≠ s.er.toNat ∧ streamEncPiece s = encRoundPiece s) ∨
      (s.begun = true ∧ s.k ≠ 0 ∧ s.k ≠ 1 ∧ streamEncPiece s = streamStore (encsBlocks s) s) := by
  unfold streamEncPiece
  split
  next hb =>
    split
    next hc => exact .inl ⟨hb, hc, rfl⟩
    next hc => exact .inr (.inl ⟨hb, hc, rfl⟩)
  next hb =>
    have hb : s.begun = true := eq_true_of_ne_false hb
    split
    next h0 => exact .inr (.inr (.inl ⟨hb, h0, rfl⟩))
    next h0 =>
      split
      next h1 =>
        split
        next hr => exact .inr (.inr (.inr (.inl ⟨hb, h1, hr, rfl⟩)))
        next hr => exact .inr (.inr (.inr (.inr (.inl ⟨hb, h1, hr, rfl⟩))))
      next h1 => exact .inr (.inr (.inr (.inr (.inr ⟨hb, h0, h1, rfl⟩))))

theorem streamDecPiece_cases :
    (s.begun = false ∧ streamCheck s = .success ∧
        streamDecPiece s = streamBegin (decsBlocks s) (decsPadded s) s) ∨
      (s.begun = false ∧ streamCheck s ≠ .success ∧ streamDecPiece s = completeWith (streamCheck s) s) ∨
      (s.begun = true ∧ s.k = 0 ∧
        streamDecPiece s = { loadHalves (mbufBlock s s.mem s.blk.toNat) (s.er.setWidth 9) s with k := 1 }) ∨
      (s.begun = true ∧ s.k = 1 ∧ s.rc = 0 ∧ streamDecPiece s = { decRoundPiece s with k := 2 }) ∨
      (s.begun = true ∧ s.k = 1 ∧ s.rc ≠ 0 ∧ streamDecPiece s = decRoundPiece s) ∨
      (s.begun = true ∧ s.k ≠ 0 ∧ s.k ≠ 1 ∧ streamDecPiece s = streamStore (decsBlocks s) s) := by
  unfold streamDecPiece
  split
  next hb =>
    split
    next hc => exact .inl ⟨hb, hc, rfl⟩
    next hc => exact .inr (.inl ⟨hb, hc, rfl⟩)
  next hb =>
    have hb : s.begun = true := eq_true_of_ne_false hb
    split
    next h0 => exact .inr (.inr (.inl ⟨hb, h0, rfl⟩))
    next h0 =>
      split
      next h1 =>
        split
        next hr => exact .inr (.inr (.inr (.inl ⟨hb, h1, hr, rfl⟩)))
        next hr => exact .inr (.inr (.inr (.inr (.inl ⟨hb, h1, hr, rfl⟩))))
      next h1 => exact .inr (.inr (.inr (.inr (.inr ⟨hb, h0, h1, rfl⟩))))

/-! ### The phase FINISH (40_command_control.md R102) -/

theorem finishPiece_cases :
    (decodeWord s.opr = .illegal ∧ finishPiece s = completeWith .illegalCommand s) ∨
      (decodeWord s.opr = .command .nop ∧ finishPiece s = completeWith .success s) ∨
      (∃ e, decodeWord s.opr = .command .keysetup ∧ keysetupParams s = .error e ∧
        finishPiece s = completeWith e s) ∨
      (∃ p, decodeWord s.opr = .command .keysetup ∧ keysetupParams s = .ok p ∧
        finishPiece s = commitKeysetup p s) ∨
      ((decodeWord s.opr = .command .encb ∨ decodeWord s.opr = .command .decb) ∧
        finishPiece s = commitBlock (blockOut (halves s)) s) ∨
      (decodeWord s.opr = .command .encs ∧
        finishPiece s = commitStream (encsBlocks s * blockLen (wordWidth s)) s) ∨
      (∃ more, decodeWord s.opr = .command (.decs more) ∧
        finishPiece s = commitStream (decsOutLen more s s.mem) s) := by
  unfold finishPiece
  split
  next hd => exact .inl ⟨hd, rfl⟩
  next hd => exact .inr (.inl ⟨hd, rfl⟩)
  next hd =>
    split
    next e hk => exact .inr (.inr (.inl ⟨e, hd, hk, rfl⟩))
    next p hk => exact .inr (.inr (.inr (.inl ⟨p, hd, hk, rfl⟩)))
  next hd => exact .inr (.inr (.inr (.inr (.inl ⟨.inl hd, rfl⟩))))
  next hd => exact .inr (.inr (.inr (.inr (.inl ⟨.inr hd, rfl⟩))))
  next hd => exact .inr (.inr (.inr (.inr (.inr (.inl ⟨hd, rfl⟩)))))
  next more hd => exact .inr (.inr (.inr (.inr (.inr (.inr ⟨more, hd, rfl⟩)))))

end Sys2Proof.Machine
end

section
/-! SUPPORT. One step as one of six moves, so that an invariant is proved move by move; the statements on what every
step keeps of the build and of `PH`, and on the host's transfers. -/

namespace Sys2Proof.Machine

/-! ### Moves -/

/-- What holds before a step and is kept by taking an event off the list, by each kind of engine move, by each kind of
transfer and by a reset, holds after the step. -/
theorem step_preserves {P : State → Prop}
    (drop : ∀ s es, P s → P (dropEvent s es))
    (complete : ∀ e s, P s → P (completeWith e s))
    (command : ∀ i s t, P s → exec i s = .next t → P t)
    (piece : ∀ s, P s → P (enginePiece s))
    (read : ∀ s x n, P s → P (hostRead s x n))
    (write : ∀ s tr, busErrorCause s.build tr = none → P s →
      P (hostWriteAnswered s tr.addr.toNat (2 ^ tr.size.toNat) (writeValue tr)))
    (reset : ∀ s, P s → P (resetEdge s))
    {s t : State} (hs : P s) (h : step s = .next t) : P t := by
  have engine : ∀ {s t : State}, P s → engineRun s = .next t → P t := by
    intro s t hs h
    obtain ⟨_, he⟩ | ⟨_, _, _, he⟩ | ⟨_, _, i, _, he⟩ | ⟨_, _, he⟩ := engineRun_cases s <;> rw [he] at h
    · cases h; exact hs
    · cases h; exact complete _ s hs
    · exact command i s t hs h
    · cases h; exact piece s hs
  obtain ⟨_, he⟩ | ⟨e, es, _, he⟩ := step_cases s <;> rw [he] at h
  · exact engine hs h
  · have hd := drop s es hs
    cases e with
    | engineRun => exact engine hd h
    | enginePiece => cases h; exact piece _ hd
    | reset => cases h; exact reset _ hd
    | hostTransfer tr =>
      rw [eventStep] at h
      obtain ⟨c, _, ht⟩ | ⟨hb, _, ht⟩ | ⟨_, _, ht⟩ := hostTransfer_cases tr (dropEvent s es) <;> rw [ht] at h <;>
        cases h
      · exact write _ tr hb hd
      · exact read _ _ _ hd

/-! ### The build -/

@[simp] theorem hostWrite_build (s : State) (x n : Nat) (v : Reg) : (hostWrite s x n v).build = s.build := by
  obtain ⟨_, _, _, _, h⟩ | ⟨_, h⟩ | ⟨_, _, _, _, _, _, _, _, _, _, _, h, _⟩ := hostWrite_cases s x n v <;> rw [h]
  rfl

theorem step_build {s t : State} (h : step s = .next t) : t.build = s.build := by
  refine step_preserves (P := fun u => u.build = s.build) (fun _ _ hu => hu) (fun _ _ hu => hu) ?command ?piece
    (fun _ _ _ hu => hu) ?write (fun _ hu => hu) rfl h
  case command => exact fun i u v hu huv => (exec_sameOperands huv).build.trans hu
  case piece => exact fun u hu => (enginePiece_sameOperands u).build.trans hu
  case write => exact fun u tr _ hu => (hostWrite_build u _ _ _).trans hu

/-- Settles O2: the fields of the word, and a build that no step changes. -/
theorem capsReportsTheFixedBuild : Obligations.CapsReportsTheFixedBuild := by
  refine ⟨fun s => ?_, fun s t h => congrArg capsWord (step_build h)⟩
  obtain ⟨h16, hmin, hmax⟩ := mbufBytes_range s.build
  have size : (regRead s .caps).extractLsb' 0 16 = BitVec.ofNat 16 s.build.mbufBytes := capsWord_size_field s.build
  have policy : (regRead s .caps).getLsbD 16 = (s.build.tailPolicy == .pad) := getLsbD_capsWord s.build 16
  refine ⟨size, ?_, ?_, capsWord_upper_bits s.build, h16, hmin, hmax⟩
  · rw [size, BitVec.toNat_ofNat, Nat.mod_eq_of_lt (by omega)]
  · rw [policy, beq_iff_eq]

/-! ### `PH` and `BUSY` -/

/-- `t` follows `s` in the course of a command: it has completed, or is under way as `s` was. -/
def CompletesOrContinues (s t : State) : Prop :=
  (t.ph = .idle ∧ t.busy = false) ∨ (t.ph ≠ .idle ∧ t.busy = s.busy)

theorem completesOrContinues_completeWith (e : ErrorCode) (s u : State) :
    CompletesOrContinues s (completeWith e u) := .inl ⟨rfl, rfl⟩

/-- A piece of a command under way completes it or leaves it under way: no other piece goes to `IDLE`. -/
theorem enginePiece_completesOrContinues {s : State} (hs : s.ph ≠ .idle) :
    CompletesOrContinues s (enginePiece s) := by
  have ends : ∀ e u, CompletesOrContinues s (completeWith e u) := fun e u => completesOrContinues_completeWith e s u
  have stay : ∀ {u : State}, u.ph = s.ph → u.busy = s.busy → CompletesOrContinues s u :=
    fun hp hb => .inr ⟨hp ▸ hs, hb⟩
  have next : ∀ {u : State}, u.ph = .setupExpand ∨ u.ph = .setupMix ∨ u.ph = .finish → u.busy = s.busy →
      CompletesOrContinues s u := by
    rintro u (hp | hp | hp) hb <;> exact .inr ⟨hp ▸ Phase.noConfusion, hb⟩
  have start : ∀ nb m, CompletesOrContinues s (streamBegin nb m s) := by
    intro nb m
    obtain ⟨_, h⟩ | ⟨_, h⟩ := streamBegin_cases s nb m <;> rw [h]
    · exact next (.inr (.inr rfl)) rfl
    · exact stay rfl rfl
  have store : ∀ nb, CompletesOrContinues s (streamStore nb s) := by
    intro nb
    obtain ⟨_, h⟩ | ⟨_, h⟩ := streamStore_cases s nb <;> rw [h]
    · exact next (.inr (.inr rfl)) rfl
    · exact stay rfl rfl
  cases hp : s.ph <;> simp only [enginePiece, hp]
  case idle => exact absurd hp hs
  case setupAlign =>
    obtain ⟨_, _, h⟩ | ⟨_, _, ⟨_, h⟩ | ⟨_, _, _, ⟨_, h⟩ | ⟨_, h⟩⟩⟩ := setupAlignPiece_cases s <;> rw [h]
    · exact ends _ _
    · exact stay rfl rfl
    · exact next (.inl rfl) rfl
    · exact stay rfl rfl
  case setupExpand =>
    obtain ⟨_, _, h⟩ | ⟨_, _, _, _, ⟨_, h⟩ | ⟨_, h⟩⟩ := setupExpandPiece_cases s <;> rw [h]
    · exact ends _ _
    · exact next (.inr (.inl rfl)) rfl
    · exact stay rfl rfl
  case setupMix =>
    obtain ⟨_, _, h⟩ | ⟨_, _, ⟨_, h⟩ | ⟨_, h⟩⟩ := setupMixPiece_cases s <;> rw [h]
    · exact ends _ _
    · exact next (.inr (.inr rfl)) rfl
    · exact stay rfl rfl
  case blockEnc =>
    obtain ⟨_, _, h⟩ | ⟨_, _, h⟩ | ⟨_, _, h⟩ | ⟨_, _, h⟩ := blockEncPiece_cases s <;> rw [h]
    · exact stay rfl rfl
    · exact ends _ _
    · exact next (.inr (.inr rfl)) rfl
    · exact stay rfl rfl
  case blockDec =>
    obtain ⟨_, _, h⟩ | ⟨_, _, h⟩ | ⟨_, _, h⟩ | ⟨_, _, h⟩ := blockDecPiece_cases s <;> rw [h]
    · exact stay rfl rfl
    · exact ends _ _
    · exact next (.inr (.inr rfl)) rfl
    · exact stay rfl rfl
  case streamEnc =>
    obtain ⟨_, _, h⟩ | ⟨_, _, h⟩ | ⟨_, _, h⟩ | ⟨_, _, _, h⟩ | ⟨_, _, _, h⟩ | ⟨_, _, _, h⟩ :=
      streamEncPiece_cases s <;> rw [h]
    · exact start _ _
    · exact ends _ _
    · exact stay rfl rfl
    · exact stay rfl rfl
    · exact stay rfl rfl
    · exact store _
  case streamDec =>
    obtain ⟨_, _, h⟩ | ⟨_, _, h⟩ | ⟨_, _, h⟩ | ⟨_, _, _, h⟩ | ⟨_, _, _, h⟩ | ⟨_, _, _, h⟩ :=
      streamDecPiece_cases s <;> rw [h]
    · exact start _ _
    · exact ends _ _
    · exact stay rfl rfl
    · exact stay rfl rfl
    · exact stay rfl rfl
    · exact store _
  case finish =>
    obtain ⟨_, h⟩ | ⟨_, h⟩ | ⟨_, _, _, h⟩ | ⟨_, _, _, h⟩ | ⟨_, h⟩ | ⟨_, h⟩ | ⟨_, _, h⟩ := finishPiece_cases s <;>
      rw [h] <;> exact ends _ _

/-- `PH = IDLE` exactly when `BUSY = 0` (10_state.md R45), as the statements have it. -/
def IdleIffNotBusy (s : State) : Prop := s.ph = .idle ↔ s.busy = false

theorem idleIffNotBusy_completed {e : ErrorCode} {t : State} (h : Completed e t) : IdleIffNotBusy t :=
  iff_of_true h.ph h.busy

theorem enginePiece_idleIffNotBusy {s : State} (hs : IdleIffNotBusy s) : IdleIffNotBusy (enginePiece s) := by
  by_cases hp : s.ph = .idle
  · rwa [show enginePiece s = s by simp only [enginePiece, hp]]
  · obtain ⟨h1, h2⟩ | ⟨h1, h2⟩ := enginePiece_completesOrContinues hp
    · exact iff_of_true h1 h2
    · exact iff_of_false h1 (h2 ▸ fun hb => hp (hs.mpr hb))

theorem hostWrite_idleIffNotBusy {s : State} (x n : Nat) (v : Reg) (hs : IdleIffNotBusy s) :
    IdleIffNotBusy (hostWrite s x n v) := by
  obtain ⟨_, _, _, _, h⟩ | ⟨_, h⟩ | ⟨_, _, _, _, _, _, _, _, _, _, _, h, _⟩ := hostWrite_cases s x n v <;> rw [h]
  · exact hs
  · exact iff_of_false (firstPhase_ne_idle _) Bool.noConfusion
  · exact hs

theorem step_idleIffNotBusy {s t : State} (hs : IdleIffNotBusy s) (h : step s = .next t) : IdleIffNotBusy t :=
  step_preserves (P := IdleIffNotBusy) (fun _ _ hs => hs)
    (fun e s _ => idleIffNotBusy_completed (completed_completeWith e s))
    (fun _ _ _ _ h => idleIffNotBusy_completed (exec_completed h))
    (fun _ hs => enginePiece_idleIffNotBusy hs) (fun _ _ _ hs => hs)
    (fun _ _ _ hs => hostWrite_idleIffNotBusy _ _ _ hs) (fun _ _ => iff_of_true rfl rfl) hs h

/-- Settles O39, by the moves a step can be. -/
theorem idleExactlyWhenNotBusy : Obligations.IdleExactlyWhenNotBusy :=
  ⟨fun _ _ hs h => step_idleIffNotBusy hs h, iff_of_true rfl rfl⟩

/-! ### Transfers and the internal RAMs -/

theorem hostRead_withRams (s : State) (sram lram : EntryRam) (x n : Nat) :
    hostRead { s with sram := sram, lram := lram } x n = { hostRead s x n with sram := sram, lram := lram } := rfl

theorem regWrite_withRams (s : State) (sram lram : EntryRam) (r : RegName) (v : Reg) :
    regWrite { s with sram := sram, lram := lram } r v = { regWrite s r v with sram := sram, lram := lram } := by
  cases hb : s.busy <;> cases r <;> simp only [regWrite, hb] <;> rfl

theorem hostWrite_withRams (s : State) (sram lram : EntryRam) (x n : Nat) (v : Reg) :
    hostWrite { s with sram := sram, lram := lram } x n v = { hostWrite s x n v with sram := sram, lram := lram } := by
  unfold hostWrite
  dsimp only
  split
  · split
    · exact regWrite_withRams s sram lram _ v
    · rfl
  · rfl
  · cases s.busy <;> rfl

/-- A transfer that gives a next state gives the same one, but for the RAMs, whatever they hold. -/
theorem hostTransfer_withRams {s t : State} {tr : Transfer} (sram lram : EntryRam)
    (h : hostTransfer tr s = .next t) :
    hostTransfer tr { s with sram := sram, lram := lram } = .next { t with sram := sram, lram := lram } := by
  obtain ⟨c, _, ht⟩ | ⟨hb, hwe, ht⟩ | ⟨hb, hwe, ht⟩ := hostTransfer_cases tr s <;> rw [ht] at h <;> cases h <;>
    simp only [hostTransfer, hb, (sizeBytes_of_no_error hb).1, hwe]
  · simp only [if_true, hostWriteAnswered, hostWrite_withRams]
  · simp [hostRead_withRams]

/-- Settles O57: neither a read nor a write of the host looks at an internal RAM. -/
theorem scheduleIsNotReadable : Obligations.ScheduleIsNotReadable := by
  intro s t tr es sram lram hin h
  rw [step_cons s hin] at h
  exact ⟨_, (step_cons { s with sram := sram, lram := lram } hin).trans (hostTransfer_withRams sram lram h), rfl⟩

/-! ### A 4-byte write to a register -/

theorem regAt_offset {x : Nat} {r : RegName} (h : regAt x = some r) : x ≤ 0x30 ∧ x % 4 = 0 := by
  unfold regAt at h
  split at h
  case h_14 => cases h
  all_goals decide

theorem w32_addr {x : Nat} (v : Reg) (h : x < 8192) : (w32 x v).addr.toNat = x :=
  (BitVec.toNat_ofNat x 13).trans (Nat.mod_eq_of_lt h)

theorem writeValue_w32 {x : Nat} (v : Reg) (h4 : x % 4 = 0) : writeValue (w32 x v) = v := by
  simp [writeValue, laneShift, h4, w32]

theorem busErrorCause_w32_register {x : Nat} {r : RegName} (p : BuildParams) (v : Reg) (h : regAt x = some r) :
    busErrorCause p (w32 x v) = none := by
  obtain ⟨hx, h4⟩ := regAt_offset h
  have mapped : ((List.range 4).any fun o => (regionOf p (x + o)).isNone) = false := by
    simp only [List.any_eq_false, List.mem_range]
    intro o ho
    rw [(regionOf_registers p (x + o)).mpr (by omega)]
    simp
  have size : sizeBytes (w32 x v).size = some 4 := rfl
  simp [busErrorCause, size, w32_addr v (show x < 8192 by omega), h4, mapped]

/-- A 4-byte write at a register's offset is that register's write, answered without error (20_memory.md R61). -/
theorem hostTransfer_w32_register {x : Nat} {r : RegName} (s : State) (v : Reg) (h : regAt x = some r) :
    hostTransfer (w32 x v) s =
      .next { regWrite s r v with answer := { ack := true, err := false, rdata := 0 } } := by
  obtain ⟨hx, h4⟩ := regAt_offset h
  have size : sizeBytes (w32 x v).size = some 4 := rfl
  simp only [hostTransfer, busErrorCause_w32_register s.build v h, size, w32_addr v (show x < 8192 by omega),
    writeValue_w32 v h4, hostWriteAnswered,
    hostWrite_register s 4 v h (show x < 0x34 by omega)]
  rfl

/-- A step whose event is such a write, from what the register's write gives. -/
theorem step_w32_register {x : Nat} {r : RegName} {s t : State} {v : Reg} {es : List Event}
    (h : regAt x = some r) (hin : s.inputs = .hostTransfer (w32 x v) :: es)
    (hw : regWrite (dropEvent s es) r v = t) :
    step s = .next { t with answer := { ack := true, err := false, rdata := 0 } } := by
  rw [step_cons s hin, eventStep, hostTransfer_w32_register _ v h, hw]

/-- While idle each operand register takes the word written, `STRIP` its bit 0 (10_state.md R28 to R33). -/
theorem regWrite_operand_idle {s : State} (hb : s.busy = false) (v : Reg) :
    regWrite s .wordbits v = { s with wordbits := v } ∧ regWrite s .rounds v = { s with rounds := v } ∧
      regWrite s .keylen v = { s with keylen := v } ∧ regWrite s .strip v = { s with strip := v.getLsbD 0 } ∧
      regWrite s .dlen v = { s with dlen := v } ∧ regWrite s .mlen v = { s with mlen := v } := by
  simp only [regWrite, hb, Bool.false_eq_true, if_false, and_self]

/-- Settles O51: each clause is a register's write with `BUSY` = 0, and `STRIP` reads back the bit kept. -/
theorem idleRegisterWritesAreHeld : Obligations.IdleRegisterWritesAreHeld := by
  intro s v es hb
  obtain ⟨hwordbits, hrounds, hkeylen, hstrip, hdlen, hmlen⟩ := regWrite_operand_idle (s := dropEvent s es) hb v
  exact ⟨fun hin => ⟨_, step_w32_register rfl hin hwordbits, rfl, rfl⟩,
    fun hin => ⟨_, step_w32_register rfl hin hrounds, rfl, rfl⟩,
    fun hin => ⟨_, step_w32_register rfl hin hkeylen, rfl, rfl⟩,
    fun hin => ⟨_, step_w32_register rfl hin hstrip, rfl, flagWord_getLsbD_zero v⟩,
    fun hin => ⟨_, step_w32_register rfl hin hdlen, rfl, rfl⟩,
    fun hin => ⟨_, step_w32_register rfl hin hmlen, rfl, rfl⟩⟩

end Sys2Proof.Machine
end

section
/-! SUPPORT. The invariant `Sound` (Safety.lean), clause by clause: memory inside the map, the latched parameters and
the schedule, where the sequencer stands; then each move of a step keeps it. -/

namespace Sys2Proof.Machine

/-! ### Memory inside the buffers of the map (20_memory.md R52) -/

/-- The address lies in `DIN`, `DOUT`, `KEY` or `MBUF`. -/
def Buffered (p : BuildParams) (x : Nat) : Prop := (regionOf p x).isNone = false ∧ 0x34 ≤ x

/-- Memory is canonical and every cell listed lies in a buffer. -/
structure MemoryOk (p : BuildParams) (m : Memory) : Prop where
  wf     : Memory.wf m = true
  mapped : ∀ c ∈ m, Buffered p c.1

theorem buffered_iff (p : BuildParams) (x : Nat) :
    Buffered p x ↔ (0x40 ≤ x ∧ x < 0x60) ∨ (0x100 ≤ x ∧ x < 0x200) ∨ (0x1000 ≤ x ∧ x < 0x1000 + p.mbufBytes) := by
  rw [Buffered, ← Bool.not_eq_true, regionOf_isNone]
  omega

theorem cellsMapped_iff {s : State} : cellsMapped s = true ↔ ∀ c ∈ s.mem, Buffered s.build c.1 := by
  simp only [cellsMapped, List.all_eq_true]
  refine forall₂_congr fun c _ => ?_
  have hregs := regionOf_registers s.build c.1
  unfold Buffered
  cases hr : regionOf s.build c.1 with
  | none => simp
  | some r => cases r <;> simp [hr] at hregs ⊢ <;> omega

theorem MemoryOk.writeBytes {p : BuildParams} {m : Memory} (h : MemoryOk p m) {x : Nat} {vs : List Byte}
    (hx : ∀ y, x ≤ y → y < x + vs.length → Buffered p y) : MemoryOk p (memWriteBytes m x vs) where
  wf := memWriteBytes_wf vs x h.wf
  mapped c hc := (mem_memWriteBytes hc).elim (h.mapped c) fun hy => hx c.1 hy.1 hy.2

/-- Padding up to a block boundary inside `MBUF` (44_stream.md R183, R185). -/
theorem MemoryOk.pad {p : BuildParams} {m : Memory} (h : MemoryOk p m) (len : Nat) {stop : Nat}
    (hs : stop ≤ p.mbufBytes) : MemoryOk p (padSegment m len stop) := by
  refine h.writeBytes fun y h1 h2 => (buffered_iff p y).mpr ?_
  rw [List.length_replicate] at h2
  simp only [mbufBase] at h1 h2
  omega

/-- Storing a block that lies inside `MBUF`. -/
theorem MemoryOk.writeBlock {s : State} {m : Memory} (h : MemoryOk s.build m) {q n : Nat} (hq : q < n)
    (hn : n * blockLen (wordWidth s) ≤ s.build.mbufBytes) {ys : List Byte}
    (hy : ys.length = blockLen (wordWidth s)) : MemoryOk s.build (memWriteBytes m (mbufBlockAddr s q) ys) := by
  refine h.writeBytes fun y h1 h2 => (buffered_iff _ y).mpr ?_
  have := Nat.mul_le_mul_right (blockLen (wordWidth s)) (Nat.succ_le_of_lt hq)
  rw [Nat.succ_mul] at this
  simp only [mbufBlockAddr, mbufBase, hy] at h1 h2
  omega

theorem MemoryOk.transform {s : State} {f : List Byte → List Byte}
    (hf : ∀ xs, (f xs).length = blockLen (wordWidth s)) {n : Nat} {m : Memory} (h : MemoryOk s.build m)
    (hn : n * blockLen (wordWidth s) ≤ s.build.mbufBytes) : MemoryOk s.build (transformBlocks s f n m) := by
  induction n with
  | zero => exact h
  | succ n ih =>
    exact (ih ((Nat.mul_le_mul_right _ n.le_succ).trans hn)).writeBlock n.lt_succ_self hn (hf _)

/-! ### What the clauses of `Sound` but those on the sequencer say -/

/-- The clauses on memory, on the internal RAMs and on the schedule held. -/
structure Stored (s : State) : Prop where
  memory   : MemoryOk s.build s.mem
  sRising  : cellsRising s.sram = true
  lRising  : cellsRising s.lram = true
  latched  : latchedLegal s = true
  schedule : schedulePresent s = true

theorem sound_iff {s : State} : Sound s ↔ Stored s ∧ IdleIffNotBusy s ∧ sequencerSound s = true := by
  have phase : phaseMatchesBusy s = true ↔ IdleIffNotBusy s := by
    unfold phaseMatchesBusy IdleIffNotBusy
    cases s.busy <;> simp
  constructor
  · intro h
    have hc := h.canonical
    simp only [ramsCanonical, Bool.and_eq_true] at hc
    obtain ⟨⟨hm, hs⟩, hl⟩ := hc
    exact ⟨⟨⟨hm, cellsMapped_iff.mp h.mapped⟩, hs, hl, h.latched, h.schedule⟩, phase.mp h.phase, h.sequencer⟩
  · rintro ⟨h, hp, hq⟩
    refine ⟨phase.mpr hp, ?_, cellsMapped_iff.mpr h.memory.mapped, h.latched, h.schedule, hq⟩
    simp only [ramsCanonical, h.memory.wf, h.sRising, h.lRising, Bool.and_self]

theorem Stored.legalWidth {s : State} (h : Stored s) (hkv : s.kv = true) : legalWidth (wordWidth s) := by
  have hl := h.latched
  simp only [latchedLegal, hkv, if_true, Bool.or_eq_true, beq_iff_eq, or_assoc] at hl
  exact hl.imp (congrArg BitVec.toNat) (Or.imp (congrArg BitVec.toNat) (congrArg BitVec.toNat))

/-- Writing an entry of `S` keeps a schedule held present. -/
theorem Stored.schedule_cellSet {s : State} (h : Stored s) (x : Nat) (v : Long) :
    schedulePresent { s with sram := cellSet x v s.sram } = true := by
  have hs := h.schedule
  simp only [schedulePresent, Bool.or_eq_true] at hs ⊢
  exact hs.imp_right (entriesPresent_cellSet x v)

/-! ### The checks of the commands -/

theorem blockCheck_eq_success {s : State} :
    blockCheck s = .success ↔ s.kv = true ∧ s.dlen.toNat = blockLen (wordWidth s) := by
  unfold blockCheck
  split
  next hk => simp [hk]
  next hk =>
    split
    next hd => simp [hd]
    next hd => simpa [hk] using hd

theorem streamCheck_eq_success {s : State} :
    streamCheck s = .success ↔ s.kv = true ∧ segmentLen s ≤ s.build.mbufBytes := by
  unfold streamCheck
  split
  next hk => simp [hk]
  next hk =>
    split
    next hm => simp [hm]
    next hm => simpa [hk] using hm

/-- The sizes of a KEYSETUP that passes its checks fit their cursors (42_key_schedule.md R136, R139, R149). -/
theorem keysetup_sizes {s : State} {p : KeyParams} (h : keysetupParams s = .ok p) :
    1 ≤ alignedLen p.w p.b ∧ alignedLen p.w p.b ≤ 128 ∧ 1 ≤ scheduleLen p.r ∧ scheduleLen p.r ≤ 512 ∧
      1 ≤ mixCount (alignedLen p.w p.b) (scheduleLen p.r) ∧
      mixCount (alignedLen p.w p.b) (scheduleLen p.r) ≤ 1536 := by
  obtain ⟨hw, _, _, hr, _, hb, _⟩ := keysetupParams_ok h
  have hc : 1 ≤ alignedLen p.w p.b ∧ alignedLen p.w p.b ≤ 128 := by
    simp only [alignedLen, wordLen]
    obtain hw | hw | hw := hw <;> rw [hw] <;> omega
  simp only [scheduleLen, mixCount]
  omega

/-- A number of blocks inside `MBUF` fits the block index (10_state.md R44). -/
theorem blocks_le {s : State} (hw : legalWidth (wordWidth s)) {n : Nat}
    (hn : n * blockLen (wordWidth s) ≤ s.build.mbufBytes) : n ≤ 1024 := by
  obtain ⟨_, _, hmax⟩ := mbufBytes_range s.build
  obtain hb | hb | hb := blockLen_of_legal hw <;> rw [hb] at hn <;> omega

theorem toNat_counter {n x : Nat} (h : x < 2 ^ n) : (BitVec.ofNat n x).toNat = x :=
  (BitVec.toNat_ofNat x n).trans (Nat.mod_eq_of_lt h)

/-! ### The length of a schedule -/

theorem mixSteps_s_length {w : Nat} (n : Nat) (m : Mix w) : (mixSteps n m).s.length = m.s.length := by
  induction n generalizing m with
  | zero => rfl
  | succ n ih => exact (ih (mixStep m)).trans List.length_set

theorem schedule_length (w p q r : Nat) (key : List Byte) : (schedule w p q r key).length = scheduleLen r := by
  rw [schedule, mix, mixSteps_s_length, expand, List.length_map, List.length_range]

theorem entriesPresent_storeSchedule {w : Nat} (sched : List (BitVec w)) (ram : EntryRam) :
    entriesPresent (storeSchedule sched ram) sched.length = true := by
  rw [entriesPresent_iff]
  intro x hx
  rw [storeSchedule, cellFind_cellSetFrom, if_pos (by simpa using hx)]
  simpa using hx

/-! ### Where the sequencer stands, phase by phase: the converses of the lemmas of Laws/Sequencer.lean -/

section
variable {s : State} (h : sequencerSound s = true)
include h

theorem sequencerSound_setupAlign_inv (hp : s.ph = .setupAlign) :
    decodeWord s.opr = .command .keysetup ∧ (s.begun = true → ∃ p, keysetupParams s = .ok p ∧
      s.k.toNat < alignedLen p.w p.b ∧ entriesPresent s.lram s.k.toNat = true) := by
  simp only [sequencerSound, hp, Bool.and_eq_true, Bool.or_eq_true, beq_iff_eq, Bool.not_eq_true'] at h
  refine h.imp_right fun h hb => ?_
  have hpiece := h.resolve_left (ne_false_of_eq_true hb)
  cases hk : keysetupParams s with
  | error e => simp [hk] at hpiece
  | ok p =>
    simp only [hk, Bool.and_eq_true, decide_eq_true_eq] at hpiece
    exact ⟨p, rfl, hpiece⟩

theorem sequencerSound_setupExpand_inv (hp : s.ph = .setupExpand) :
    ∃ p, decodeWord s.opr = .command .keysetup ∧ keysetupParams s = .ok p ∧ s.k.toNat < scheduleLen p.r ∧
      entriesPresent s.sram s.k.toNat = true ∧ entriesPresent s.lram (alignedLen p.w p.b) = true := by
  cases hk : keysetupParams s with
  | error e => simp [sequencerSound, hp, hk] at h
  | ok p =>
    simp only [sequencerSound, hp, hk, Bool.and_eq_true, beq_iff_eq, decide_eq_true_eq, and_assoc] at h
    exact ⟨p, h.1, rfl, h.2⟩

theorem sequencerSound_setupMix_inv (hp : s.ph = .setupMix) :
    ∃ p, decodeWord s.opr = .command .keysetup ∧ keysetupParams s = .ok p ∧
      s.k.toNat < mixCount (alignedLen p.w p.b) (scheduleLen p.r) ∧ s.i.toNat < scheduleLen p.r ∧
      s.j.toNat < alignedLen p.w p.b ∧ entriesPresent s.sram (scheduleLen p.r) = true ∧
      entriesPresent s.lram (alignedLen p.w p.b) = true := by
  cases hk : keysetupParams s with
  | error e => simp [sequencerSound, hp, hk] at h
  | ok p =>
    simp only [sequencerSound, hp, hk, Bool.and_eq_true, beq_iff_eq, decide_eq_true_eq, and_assoc] at h
    exact ⟨p, h.1, rfl, h.2⟩

theorem sequencerSound_blockEnc_inv (hp : s.ph = .blockEnc) :
    decodeWord s.opr = .command .encb ∧ (s.begun = true → blockCheck s = .success ∧ s.rc.toNat ≤ s.er.toNat) := by
  simp only [sequencerSound, hp, Bool.and_eq_true, Bool.or_eq_true, beq_iff_eq, decide_eq_true_eq,
    Bool.not_eq_true'] at h
  exact h.imp_right fun h hb => h.resolve_left (ne_false_of_eq_true hb)

theorem sequencerSound_blockDec_inv (hp : s.ph = .blockDec) :
    decodeWord s.opr = .command .decb ∧ (s.begun = true → blockCheck s = .success ∧ s.rc.toNat ≤ s.er.toNat) := by
  simp only [sequencerSound, hp, Bool.and_eq_true, Bool.or_eq_true, beq_iff_eq, decide_eq_true_eq,
    Bool.not_eq_true'] at h
  exact h.imp_right fun h hb => h.resolve_left (ne_false_of_eq_true hb)

theorem sequencerSound_streamEnc_inv (hp : s.ph = .streamEnc) :
    decodeWord s.opr = .command .encs ∧ (s.begun = true → streamCheck s = .success ∧
      s.blk.toNat < encsBlocks s ∧ s.k.toNat ≤ 2 ∧ (s.k = 1 → s.rc.toNat ≤ s.er.toNat)) := by
  simp only [sequencerSound, hp, Bool.and_eq_true, Bool.or_eq_true, beq_iff_eq, decide_eq_true_eq,
    Bool.not_eq_true', bne_iff_ne, and_assoc] at h
  exact h.imp_right fun h hb => (h.resolve_left (ne_false_of_eq_true hb)).imp_right
    (And.imp_right (And.imp_right fun h hk => h.resolve_left (not_not_intro hk)))

theorem sequencerSound_streamDec_inv (hp : s.ph = .streamDec) :
    (∃ more, decodeWord s.opr = .command (.decs more)) ∧ (s.begun = true → streamCheck s = .success ∧
      s.blk.toNat < decsBlocks s ∧ s.k.toNat ≤ 2 ∧ (s.k = 1 → s.rc.toNat ≤ s.er.toNat)) := by
  simp only [sequencerSound, hp, Bool.and_eq_true, Bool.or_eq_true, beq_iff_eq, decide_eq_true_eq,
    Bool.not_eq_true', bne_iff_ne, and_assoc] at h
  exact h.imp (fun hd => hd.elim (⟨_, ·⟩) (⟨_, ·⟩)) fun h hb => (h.resolve_left (ne_false_of_eq_true hb)).imp_right
    (And.imp_right (And.imp_right fun h hk => h.resolve_left (not_not_intro hk)))

theorem sequencerSound_finishKeysetup_inv {p : KeyParams} (hp : s.ph = .finish)
    (hd : decodeWord s.opr = .command .keysetup) (hk : keysetupParams s = .ok p) :
    entriesPresent s.sram (scheduleLen p.r) = true := by
  simpa only [sequencerSound, hp, hd, hk] using h

theorem sequencerSound_finishBlock_inv (hp : s.ph = .finish)
    (hd : decodeWord s.opr = .command .encb ∨ decodeWord s.opr = .command .decb) : blockCheck s = .success := by
  obtain hd | hd := hd <;> simpa only [sequencerSound, hp, hd, beq_iff_eq] using h

end

end Sys2Proof.Machine
end

section
/-! SUPPORT. Each move of a step keeps `Sound`, and the statements on `Sound`. -/

namespace Sys2Proof.Machine

variable {s : State}

/-! ### Commits -/

theorem stored_completeWith (h : Stored s) (e : ErrorCode) : Stored (completeWith e s) :=
  ⟨h.memory, h.sRising, h.lRising, h.latched, h.schedule⟩

/-- A KEYSETUP commits legal parameters over a schedule just written (10_state.md R40, R41). -/
theorem stored_commitKeysetup {p : KeyParams} (hk : keysetupParams s = .ok p) {u : State}
    (hm : MemoryOk u.build u.mem) (hr : cellsRising u.sram = true)
    (hs : entriesPresent u.sram (scheduleLen p.r) = true) : Stored (commitKeysetup p u) := by
  obtain ⟨hw, _, _, hr255, _⟩ := keysetupParams_ok hk
  have er : (BitVec.ofNat 8 p.r).toNat = p.r := toNat_counter (by omega)
  refine ⟨hm, hr, rfl, ?_, ?_⟩
  · simp only [latchedLegal, commitKeysetup, completeWith_kv, completeWith_ew, if_true]
    obtain hw | hw | hw := hw <;> rw [hw] <;> rfl
  · simp only [schedulePresent, commitKeysetup, completeWith_kv, completeWith_er, completeWith_sram, er, hs,
      Bool.or_true]

theorem stored_commitBlock (h : Stored s) {ys : List Byte} (hy : ys.length ≤ 16) : Stored (commitBlock ys s) := by
  refine ⟨h.memory.writeBytes fun y h1 h2 => (buffered_iff _ y).mpr ?_, h.sRising, h.lRising, h.latched,
    h.schedule⟩
  rw [List.length_append, List.length_replicate] at h2
  simp only [doutBase] at h1 h2
  omega

theorem stored_commitStream (h : Stored s) {m : Memory} (hm : MemoryOk s.build m) (ol : Nat) :
    Stored (commitStream ol { s with mem := m }) :=
  ⟨hm, h.sRising, h.lRising, h.latched, h.schedule⟩

theorem blockLen_le_of_blockCheck (h : Stored s) (hc : blockCheck s = .success) : blockLen (wordWidth s) ≤ 16 := by
  obtain hb | hb | hb := blockLen_of_legal (h.legalWidth (blockCheck_eq_success.mp hc).1) <;> omega

/-- The blocks of an ENCS that passes its checks lie inside `MBUF`. -/
theorem encsBlocks_fit (h : Stored s) (hc : streamCheck s = .success) :
    encsBlocks s * blockLen (wordWidth s) ≤ s.build.mbufBytes :=
  (encsBlocks_bounds (h.legalWidth (streamCheck_eq_success.mp hc).1) (streamCheck_eq_success.mp hc).2).2.1

/-- The blocks of a DECS that passes its checks lie inside `MBUF`. -/
theorem decsBlocks_fit (h : Stored s) (hc : streamCheck s = .success) :
    decsBlocks s * blockLen (wordWidth s) ≤ s.build.mbufBytes :=
  decsBlocks_bounds (h.legalWidth (streamCheck_eq_success.mp hc).1) (streamCheck_eq_success.mp hc).2

/-! ### A whole command -/

theorem stored_exec (h : Stored s) {i : Instr} {t : State} (hx : exec i s = .next t) : Stored t := by
  cases i with
  | nop => cases hx; exact stored_completeWith h _
  | keysetup =>
    cases hk : keysetupParams s with
    | error e => rw [exec_keysetup_error hk] at hx; cases hx; exact stored_completeWith h _
    | ok p =>
      rw [exec_keysetup_ok hk] at hx
      cases hx
      refine stored_commitKeysetup hk h.memory (cellsRising_cellSetFrom _ _ h.sRising) ?_
      have := entriesPresent_storeSchedule (schedule p.w p.p p.q p.r (keyBytes s p.b)) s.sram
      rwa [schedule_length] at this
  | encb =>
    by_cases hc : blockCheck s = .success
    · rw [exec_encb_ok hc] at hx
      cases hx
      exact stored_commitBlock h ((encryptBlock_length s _).trans_le (blockLen_le_of_blockCheck h hc))
    · rw [exec_encb_error rfl hc] at hx; cases hx; exact stored_completeWith h _
  | decb =>
    by_cases hc : blockCheck s = .success
    · rw [exec_decb_ok hc] at hx
      cases hx
      exact stored_commitBlock h ((decryptBlock_length s _).trans_le (blockLen_le_of_blockCheck h hc))
    · rw [exec_decb_error rfl hc] at hx; cases hx; exact stored_completeWith h _
  | encs =>
    by_cases hc : streamCheck s = .success
    · have fit := encsBlocks_fit h hc
      rw [exec_encs_ok hc] at hx
      cases hx
      exact stored_commitStream h ((h.memory.pad _ fit).transform (encryptBlock_length s) fit) _
    · rw [exec_encs_error rfl hc] at hx; cases hx; exact stored_completeWith h _
  | decs more =>
    by_cases hc : streamCheck s = .success
    · have fit := decsBlocks_fit h hc
      rw [exec_decs_ok hc] at hx
      cases hx
      exact stored_commitStream h ((h.memory.pad _ fit).transform (decryptBlock_length s) fit) _
    · rw [exec_decs_error rfl hc] at hx; cases hx; exact stored_completeWith h _

/-- A completed command leaves the sequencer idle. -/
theorem sound_of_completed {t : State} {e : ErrorCode} (h : Stored t) (hc : Completed e t) : Sound t :=
  sound_iff.mpr ⟨h, idleIffNotBusy_completed hc, sequencerSound_idle hc.ph⟩

theorem sound_exec (h : Sound s) {i : Instr} {t : State} (hx : exec i s = .next t) : Sound t :=
  sound_of_completed (stored_exec (sound_iff.mp h).1 hx) (exec_completed hx)

theorem sound_completeWith (h : Sound s) (e : ErrorCode) : Sound (completeWith e s) :=
  sound_of_completed (stored_completeWith (sound_iff.mp h).1 e) (completed_completeWith e s)

/-! ### A piece of a command -/

/-- What a piece has to keep beside `PH` and `BUSY`, which `enginePiece_idleIffNotBusy` keeps. -/
def StoredAndPlaced (t : State) : Prop := Stored t ∧ sequencerSound t = true

theorem storedAndPlaced_completeWith (h : Stored s) (e : ErrorCode) : StoredAndPlaced (completeWith e s) :=
  ⟨stored_completeWith h e, sequencerSound_idle rfl⟩

section
variable (h : Stored s) (hq : sequencerSound s = true)
include h hq

theorem setupAlignPiece_keeps (hp : s.ph = .setupAlign) : StoredAndPlaced (setupAlignPiece s) := by
  obtain ⟨hd, hbegun⟩ := sequencerSound_setupAlign_inv hq hp
  obtain ⟨e, _, ht⟩ | ⟨p, hk, ⟨_, ht⟩ | ⟨hb, lram, hl, hcase⟩⟩ := setupAlignPiece_cases s
  · rw [ht]; exact storedAndPlaced_completeWith h e
  · obtain ⟨hc1, _⟩ := keysetup_sizes hk
    rw [ht]
    exact ⟨⟨h.memory, h.sRising, h.lRising, h.latched, h.schedule⟩, sequencerSound_setupAlign hp hd hk hc1 rfl⟩
  · obtain ⟨p', hk', hlt, hpre⟩ := hbegun hb
    obtain rfl : p = p' := Except.ok.inj (hk.symm.trans hk')
    have ⟨_, hc128, ht1, _⟩ := keysetup_sizes hk
    have rising : cellsRising lram = true := hl ▸ cellsRising_cellSet _ _ h.lRising
    have present : entriesPresent lram (s.k.toNat + 1) = true := hl ▸ entriesPresent_succ _ hpre
    obtain ⟨hlast, ht⟩ | ⟨hnext, ht⟩ := hcase <;> rw [ht] <;>
      refine ⟨⟨h.memory, h.sRising, rising, h.latched, h.schedule⟩, ?_⟩
    · exact sequencerSound_setupExpand rfl hd hk ht1 rfl (hlast ▸ present)
    · have hk1 : (BitVec.ofNat 11 (s.k.toNat + 1)).toNat = s.k.toNat + 1 := toNat_counter (by omega)
      exact sequencerSound_setupAlign hp hd hk (hk1.trans_lt (by omega))
        ((congrArg (entriesPresent lram) hk1).trans present)

theorem setupExpandPiece_keeps (hp : s.ph = .setupExpand) : StoredAndPlaced (setupExpandPiece s) := by
  obtain ⟨p', hd, hk', hlt, hpre, hlpre⟩ := sequencerSound_setupExpand_inv hq hp
  obtain ⟨e, _, ht⟩ | ⟨p, sram, hk, hs, hcase⟩ := setupExpandPiece_cases s
  · rw [ht]; exact storedAndPlaced_completeWith h e
  · obtain rfl : p = p' := Except.ok.inj (hk.symm.trans hk')
    have ⟨hc1, _, ht1, ht512, hn1, _⟩ := keysetup_sizes hk
    have rising : cellsRising sram = true := hs ▸ cellsRising_cellSet _ _ h.sRising
    have held : schedulePresent { s with sram := sram } = true := hs ▸ h.schedule_cellSet _ _
    have present : entriesPresent sram (s.k.toNat + 1) = true := hs ▸ entriesPresent_succ _ hpre
    obtain ⟨hlast, ht⟩ | ⟨hnext, ht⟩ := hcase <;> rw [ht] <;>
      refine ⟨⟨h.memory, rising, h.lRising, h.latched, held⟩, ?_⟩
    · exact sequencerSound_setupMix rfl hd hk hn1 ht1 hc1 (hlast ▸ present) hlpre
    · have hk1 : (BitVec.ofNat 11 (s.k.toNat + 1)).toNat = s.k.toNat + 1 := toNat_counter (by omega)
      exact sequencerSound_setupExpand hp hd hk (hk1.trans_lt (by omega))
        ((congrArg (entriesPresent sram) hk1).trans present) hlpre

theorem setupMixPiece_keeps (hp : s.ph = .setupMix) : StoredAndPlaced (setupMixPiece s) := by
  obtain ⟨p', hd, hk', hlt, _, _, hspre, hlpre⟩ := sequencerSound_setupMix_inv hq hp
  obtain ⟨e, _, ht⟩ | ⟨p, hk, hcase⟩ := setupMixPiece_cases s
  · rw [ht]; exact storedAndPlaced_completeWith h e
  · obtain rfl : p = p' := Except.ok.inj (hk.symm.trans hk')
    have ⟨hc1, hc128, ht1, ht512, _, hn⟩ := keysetup_sizes hk
    have present : entriesPresent (mixed p s).sram (scheduleLen p.r) = true := entriesPresent_cellSet _ _ hspre
    have stored : Stored (mixed p s) := ⟨h.memory, cellsRising_cellSet _ _ h.sRising,
      cellsRising_cellSet _ _ h.lRising, h.latched, h.schedule_cellSet _ _⟩
    obtain ⟨_, ht⟩ | ⟨hnext, ht⟩ := hcase <;> rw [ht]
    · exact ⟨⟨stored.memory, stored.sRising, stored.lRising, stored.latched, stored.schedule⟩,
        sequencerSound_finishKeysetup rfl hd hk present⟩
    · have hi := Nat.mod_lt (s.i.toNat + 1) ht1
      have hj := Nat.mod_lt (s.j.toNat + 1) hc1
      have hk1 : (mixed p s).k.toNat = s.k.toNat + 1 := toNat_counter (by omega)
      have hi1 : (mixed p s).i.toNat = (s.i.toNat + 1) % scheduleLen p.r := toNat_counter (by omega)
      have hj1 : (mixed p s).j.toNat = (s.j.toNat + 1) % alignedLen p.w p.b := toNat_counter (by omega)
      exact ⟨stored, sequencerSound_setupMix hp hd hk (hk1.trans_lt (by omega)) (hi1.trans_lt hi) (hj1.trans_lt hj)
        present (entriesPresent_cellSet _ _ hlpre)⟩

end

/-- A round of encryption before the last counts `rc` up and stays in range (R44). -/
theorem encRoundPiece_rc_le (hr : s.rc.toNat ≤ s.er.toNat) (hne : s.rc.toNat ≠ s.er.toNat) :
    (encRoundPiece s).rc.toNat ≤ s.er.toNat := by
  have hrc : (encRoundPiece s).rc.toNat = s.rc.toNat + 1 :=
    toNat_counter (by have := s.er.isLt; omega)
  omega

/-- A round of decryption counts `rc` down and stays in range (R44). -/
theorem decRoundPiece_rc_le (hr : s.rc.toNat ≤ s.er.toNat) : (decRoundPiece s).rc.toNat ≤ s.er.toNat := by
  have hrc : (decRoundPiece s).rc.toNat = s.rc.toNat - 1 :=
    toNat_counter (by have := s.rc.isLt; omega)
  omega

/-- The round counter that decryption starts from is `ER`. -/
theorem setWidth_er_le : (s.er.setWidth 9).toNat ≤ s.er.toNat := by
  rw [BitVec.toNat_setWidth]
  exact Nat.mod_le _ _

/-- The fields `Stored` speaks of are untouched by the working registers, the counters and the phase. -/
theorem Stored.of_working (h : Stored s) {u : State}
    (hu : u = { s with
      a := u.a, b := u.b, i := u.i, j := u.j, k := u.k, rc := u.rc, blk := u.blk, ph := u.ph, begun := u.begun }) :
    Stored u := by
  rw [hu]
  exact ⟨h.memory, h.sRising, h.lRising, h.latched, h.schedule⟩

section
variable (h : Stored s) (hq : sequencerSound s = true)
include h hq

theorem blockEncPiece_keeps (hp : s.ph = .blockEnc) : StoredAndPlaced (blockEncPiece s) := by
  obtain ⟨hd, hbegun⟩ := sequencerSound_blockEnc_inv hq hp
  obtain ⟨_, hc, ht⟩ | ⟨_, _, ht⟩ | ⟨hb, _, ht⟩ | ⟨hb, hne, ht⟩ := blockEncPiece_cases s <;> rw [ht]
  · exact ⟨h.of_working rfl, sequencerSound_blockEnc hp hd hc (Nat.zero_le _)⟩
  · exact storedAndPlaced_completeWith h _
  · exact ⟨h.of_working rfl, sequencerSound_finishBlock rfl (.inl hd) (hbegun hb).1⟩
  · obtain ⟨hc, hr⟩ := hbegun hb
    exact ⟨h.of_working rfl, sequencerSound_blockEnc hp hd hc (encRoundPiece_rc_le hr hne)⟩

theorem blockDecPiece_keeps (hp : s.ph = .blockDec) : StoredAndPlaced (blockDecPiece s) := by
  obtain ⟨hd, hbegun⟩ := sequencerSound_blockDec_inv hq hp
  obtain ⟨_, hc, ht⟩ | ⟨_, _, ht⟩ | ⟨hb, _, ht⟩ | ⟨hb, _, ht⟩ := blockDecPiece_cases s <;> rw [ht]
  · exact ⟨h.of_working rfl, sequencerSound_blockDec hp hd hc setWidth_er_le⟩
  · exact storedAndPlaced_completeWith h _
  · exact ⟨h.of_working rfl, sequencerSound_finishBlock rfl (.inr hd) (hbegun hb).1⟩
  · obtain ⟨hc, hr⟩ := hbegun hb
    exact ⟨h.of_working rfl, sequencerSound_blockDec hp hd hc (decRoundPiece_rc_le hr)⟩

end

theorem stored_withMem (h : Stored s) {m : Memory} (hm : MemoryOk s.build m) : Stored { s with mem := m } :=
  ⟨hm, h.sRising, h.lRising, h.latched, h.schedule⟩

/-- The start of a stream command: the padded buffer, and the first block unless there is none. -/
theorem streamBegin_keeps (h : Stored s) {nb : Nat} {m : Memory} (hm : MemoryOk s.build m)
    (finish : sequencerSound { s with mem := m, blk := 0, ph := .finish, begun := true } = true)
    (first : 0 < nb → sequencerSound { s with mem := m, blk := 0, k := 0, begun := true } = true) :
    StoredAndPlaced (streamBegin nb m s) := by
  have stored := stored_withMem h hm
  obtain ⟨_, ht⟩ | ⟨hnb, ht⟩ := streamBegin_cases s nb m <;> rw [ht]
  · exact ⟨stored.of_working rfl, finish⟩
  · exact ⟨stored.of_working rfl, first (Nat.pos_of_ne_zero hnb)⟩

/-- The store of a block: the index of the next one is in range (R44), unless it was the last. -/
theorem streamStore_keeps (h : Stored s) (hw : legalWidth (wordWidth s)) {nb : Nat} (hlt : s.blk.toNat < nb)
    (fit : nb * blockLen (wordWidth s) ≤ s.build.mbufBytes)
    (finish : sequencerSound { storedBlock s with ph := .finish } = true)
    (following : (storedBlock s).blk.toNat < nb → sequencerSound (storedBlock s) = true) :
    StoredAndPlaced (streamStore nb s) := by
  have stored : Stored (storedBlock s) :=
    (stored_withMem h (h.memory.writeBlock hlt fit (blockOut_length _))).of_working rfl
  obtain ⟨_, ht⟩ | ⟨hne, ht⟩ := streamStore_cases s nb <;> rw [ht]
  · exact ⟨stored.of_working rfl, finish⟩
  · have hnb := blocks_le hw fit
    have hblk : (storedBlock s).blk.toNat = s.blk.toNat + 1 := toNat_counter (by omega)
    exact ⟨stored, following (by omega)⟩

section
variable (h : Stored s) (hq : sequencerSound s = true)
include h hq

theorem streamEncPiece_keeps (hp : s.ph = .streamEnc) : StoredAndPlaced (streamEncPiece s) := by
  obtain ⟨hd, hbegun⟩ := sequencerSound_streamEnc_inv hq hp
  obtain ⟨_, hc, ht⟩ | ⟨_, _, ht⟩ | ⟨hb, _, ht⟩ | ⟨hb, _, _, ht⟩ | ⟨hb, hk1, hne, ht⟩ | ⟨hb, _, _, ht⟩ :=
    streamEncPiece_cases s <;> rw [ht]
  · exact streamBegin_keeps h (h.memory.pad _ (encsBlocks_fit h hc)) (sequencerSound_finishStream rfl (.inl hd) hc)
      fun hnb => sequencerSound_streamEnc hp hd hc hnb (Nat.zero_le 2) (.inl (show (0 : BitVec 11) ≠ 1 by decide))
  · exact storedAndPlaced_completeWith h _
  · obtain ⟨hc, hlt, _, _⟩ := hbegun hb
    exact ⟨h.of_working rfl, sequencerSound_streamEnc hp hd hc hlt (Nat.le_succ 1) (.inr (Nat.zero_le _))⟩
  · obtain ⟨hc, hlt, _, _⟩ := hbegun hb
    exact ⟨h.of_working rfl, sequencerSound_streamEnc hp hd hc hlt (Nat.le_refl 2)
      (.inl (show (2 : BitVec 11) ≠ 1 by decide))⟩
  · obtain ⟨hc, hlt, hk2, hr⟩ := hbegun hb
    exact ⟨h.of_working rfl, sequencerSound_streamEnc hp hd hc hlt hk2 (.inr (encRoundPiece_rc_le (hr hk1) hne))⟩
  · obtain ⟨hc, hlt, _, _⟩ := hbegun hb
    exact streamStore_keeps h (h.legalWidth (streamCheck_eq_success.mp hc).1) hlt (encsBlocks_fit h hc)
      (sequencerSound_finishStream rfl (.inl hd) hc) fun hblk =>
        sequencerSound_streamEnc hp hd hc hblk (Nat.zero_le 2) (.inl (show (0 : BitVec 11) ≠ 1 by decide))

theorem streamDecPiece_keeps (hp : s.ph = .streamDec) : StoredAndPlaced (streamDecPiece s) := by
  obtain ⟨hd, hbegun⟩ := sequencerSound_streamDec_inv hq hp
  obtain ⟨_, hc, ht⟩ | ⟨_, _, ht⟩ | ⟨hb, _, ht⟩ | ⟨hb, _, _, ht⟩ | ⟨hb, hk1, _, ht⟩ | ⟨hb, _, _, ht⟩ :=
    streamDecPiece_cases s <;> rw [ht]
  · exact streamBegin_keeps h (h.memory.pad _ (decsBlocks_fit h hc)) (sequencerSound_finishStream rfl (.inr hd) hc)
      fun hnb => sequencerSound_streamDec hp hd hc hnb (Nat.zero_le 2) (.inl (show (0 : BitVec 11) ≠ 1 by decide))
  · exact storedAndPlaced_completeWith h _
  · obtain ⟨hc, hlt, _, _⟩ := hbegun hb
    exact ⟨h.of_working rfl, sequencerSound_streamDec hp hd hc hlt (Nat.le_succ 1) (.inr setWidth_er_le)⟩
  · obtain ⟨hc, hlt, _, _⟩ := hbegun hb
    exact ⟨h.of_working rfl, sequencerSound_streamDec hp hd hc hlt (Nat.le_refl 2)
      (.inl (show (2 : BitVec 11) ≠ 1 by decide))⟩
  · obtain ⟨hc, hlt, hk2, hr⟩ := hbegun hb
    exact ⟨h.of_working rfl, sequencerSound_streamDec hp hd hc hlt hk2 (.inr (decRoundPiece_rc_le (hr hk1)))⟩
  · obtain ⟨hc, hlt, _, _⟩ := hbegun hb
    exact streamStore_keeps h (h.legalWidth (streamCheck_eq_success.mp hc).1) hlt (decsBlocks_fit h hc)
      (sequencerSound_finishStream rfl (.inr hd) hc) fun hblk =>
        sequencerSound_streamDec hp hd hc hblk (Nat.zero_le 2) (.inl (show (0 : BitVec 11) ≠ 1 by decide))

theorem finishPiece_keeps (hp : s.ph = .finish) : StoredAndPlaced (finishPiece s) := by
  obtain ⟨_, ht⟩ | ⟨_, ht⟩ | ⟨_, _, _, ht⟩ | ⟨p, hd, hk, ht⟩ | ⟨hd, ht⟩ | ⟨_, ht⟩ | ⟨_, _, ht⟩ :=
    finishPiece_cases s <;> rw [ht]
  · exact storedAndPlaced_completeWith h _
  · exact storedAndPlaced_completeWith h _
  · exact storedAndPlaced_completeWith h _
  · exact ⟨stored_commitKeysetup hk h.memory h.sRising (sequencerSound_finishKeysetup_inv hq hp hd hk),
      sequencerSound_idle rfl⟩
  · have hc := sequencerSound_finishBlock_inv hq hp hd
    exact ⟨stored_commitBlock h ((blockOut_length _).trans_le (blockLen_le_of_blockCheck h hc)), sequencerSound_idle rfl⟩
  · exact ⟨stored_commitStream h h.memory _, sequencerSound_idle rfl⟩
  · exact ⟨stored_commitStream h h.memory _, sequencerSound_idle rfl⟩

theorem enginePiece_keeps : StoredAndPlaced (enginePiece s) := by
  cases hp : s.ph <;> simp only [enginePiece, hp]
  case idle => exact ⟨h, hq⟩
  case setupAlign => exact setupAlignPiece_keeps h hq hp
  case setupExpand => exact setupExpandPiece_keeps h hq hp
  case setupMix => exact setupMixPiece_keeps h hq hp
  case blockEnc => exact blockEncPiece_keeps h hq hp
  case blockDec => exact blockDecPiece_keeps h hq hp
  case streamEnc => exact streamEncPiece_keeps h hq hp
  case streamDec => exact streamDecPiece_keeps h hq hp
  case finish => exact finishPiece_keeps h hq hp

end

theorem sound_enginePiece (h : Sound s) : Sound (enginePiece s) := by
  obtain ⟨hst, hidle, hq⟩ := sound_iff.mp h
  obtain ⟨stored, placed⟩ := enginePiece_keeps hst hq
  exact sound_iff.mpr ⟨stored, enginePiece_idleIffNotBusy hidle, placed⟩

/-! ### Transfers and the reset -/

theorem atStart_accept (s : State) (v : Reg) : atStart (accept v s) = true := by simp [atStart]

/-- The bytes of a write that is no bus error and lies past the registers are bytes of a buffer. -/
theorem buffered_of_no_error {p : BuildParams} {t : Transfer} (hb : busErrorCause p t = none)
    (hx : 0x34 ≤ t.addr.toNat) {y : Nat} (h1 : t.addr.toNat ≤ y) (h2 : y < t.addr.toNat + 2 ^ t.size.toNat) :
    Buffered p y := by
  obtain ⟨_, _, mapped, _⟩ := no_error_facts hb
  refine ⟨?_, hx.trans h1⟩
  have := mapped (y - t.addr.toNat) (by omega)
  rwa [Nat.add_sub_of_le h1] at this

theorem sound_hostWrite (h : Sound s) {t : Transfer} (hb : busErrorCause s.build t = none) (v : Reg) :
    Sound (hostWrite s t.addr.toNat (2 ^ t.size.toNat) v) := by
  obtain ⟨stored, hidle, hq⟩ := sound_iff.mp h
  have idle := hostWrite_idleIffNotBusy t.addr.toNat (2 ^ t.size.toNat) v hidle
  obtain ⟨_, _, _, _, ht⟩ | ⟨_, ht⟩ | ⟨hnb, _, _, _, _, _, _, _, _, _, m, ht, hm⟩ :=
    hostWrite_cases s t.addr.toNat (2 ^ t.size.toNat) v <;> rw [ht] at idle ⊢
  · exact sound_iff.mpr ⟨⟨stored.memory, stored.sRising, stored.lRising, stored.latched, stored.schedule⟩, idle, hq⟩
  · exact sound_iff.mpr ⟨⟨stored.memory, stored.sRising, stored.lRising, stored.latched, stored.schedule⟩, idle,
      sequencerSound_of_atStart (atStart_accept s v)⟩
  · have written : MemoryOk s.build m := by
      obtain rfl | ⟨rfl, hx⟩ := hm
      · exact stored.memory
      · refine stored.memory.writeBytes fun y h1 h2 => buffered_of_no_error hb hx h1 ?_
        rwa [leBytes_length] at h2
    exact sound_iff.mpr ⟨⟨written, stored.sRising, stored.lRising, stored.latched, stored.schedule⟩, idle,
      sequencerSound_idle (hidle.mpr hnb)⟩

/-- No clause of `Sound` speaks of the port's answer, the draw count or the event list. -/
theorem sound_withModelFields (h : Sound s) (answer : PortAnswer) (draws : Nat) (inputs : List Event) :
    Sound { s with answer := answer, draws := draws, inputs := inputs } :=
  ⟨h.phase, h.canonical, h.mapped, h.latched, h.schedule, h.sequencer⟩

/-- The reset state is sound for every build. -/
theorem sound_reset (build : BuildParams) : Sound { State.reset with build := build } :=
  ⟨rfl, rfl, rfl, rfl, rfl, rfl⟩

/-- Settles O41: the reset state is the sound one of its own build. -/
theorem resetIsSound : Obligations.ResetIsSound := sound_reset State.reset.build

/-- Settles O40, by the moves a step can be. -/
theorem soundnessIsKept : Obligations.SoundnessIsKept := by
  intro s t hs h
  refine step_preserves (P := Sound) ?drop ?complete ?command ?piece ?read ?write ?reset hs h
  case drop => exact fun s es hs => sound_withModelFields hs s.answer s.draws es
  case complete => exact fun e s hs => sound_completeWith hs e
  case command => exact fun i s t hs hx => sound_exec hs hx
  case piece => exact fun s hs => sound_enginePiece hs
  case read => exact fun s x n hs => sound_withModelFields hs _ _ s.inputs
  case write => exact fun s tr hb hs => sound_withModelFields (sound_hostWrite hs hb (writeValue tr)) _ _ _
  case reset => exact fun s _ => sound_withModelFields (sound_reset s.build) _ _ _

end Sys2Proof.Machine
end

section
/-! SUPPORT. What a whole command and a piece of one can do to memory, to the internal RAMs and to the results, said
once; the statements on the canonical form, on the operands of a command under way, and on its results. -/

namespace Sys2Proof.Machine

variable {s t : State}

/-! ### What a command and a piece can do -/

/-- A whole command fails, or commits a schedule, a block in `DOUT`, or blocks transformed in `MBUF`. -/
theorem exec_cases {i : Instr} (h : exec i s = .next t) :
    (∃ e, t = completeWith e s) ∨
      (∃ p, t = commitKeysetup p
        { s with sram := storeSchedule (schedule p.w p.p p.q p.r (keyBytes s p.b)) s.sram }) ∨
      (∃ ys, ys.length = blockLen (wordWidth s) ∧ t = commitBlock ys s) ∨
      ∃ f n ol, (∀ xs, (f xs).length = blockLen (wordWidth s)) ∧ t = commitStream ol
        { s with mem := transformBlocks s f n (padSegment s.mem (segmentLen s) (n * blockLen (wordWidth s))) } := by
  cases i with
  | nop => cases h; exact .inl ⟨_, rfl⟩
  | keysetup =>
    cases hk : keysetupParams s with
    | error e => rw [exec_keysetup_error hk] at h; cases h; exact .inl ⟨e, rfl⟩
    | ok p => rw [exec_keysetup_ok hk] at h; cases h; exact .inr (.inl ⟨p, rfl⟩)
  | encb =>
    by_cases hc : blockCheck s = .success
    · rw [exec_encb_ok hc] at h; cases h; exact .inr (.inr (.inl ⟨_, encryptBlock_length s _, rfl⟩))
    · rw [exec_encb_error rfl hc] at h; cases h; exact .inl ⟨_, rfl⟩
  | decb =>
    by_cases hc : blockCheck s = .success
    · rw [exec_decb_ok hc] at h; cases h; exact .inr (.inr (.inl ⟨_, decryptBlock_length s _, rfl⟩))
    · rw [exec_decb_error rfl hc] at h; cases h; exact .inl ⟨_, rfl⟩
  | encs =>
    by_cases hc : streamCheck s = .success
    · rw [exec_encs_ok hc] at h; cases h; exact .inr (.inr (.inr ⟨_, _, _, encryptBlock_length s, rfl⟩))
    · rw [exec_encs_error rfl hc] at h; cases h; exact .inl ⟨_, rfl⟩
  | decs more =>
    by_cases hc : streamCheck s = .success
    · rw [exec_decs_ok hc] at h; cases h; exact .inr (.inr (.inr ⟨_, _, _, decryptBlock_length s, rfl⟩))
    · rw [exec_decs_error rfl hc] at h; cases h; exact .inl ⟨_, rfl⟩

/-- The second internal RAM is the first, or the first with one entry written. -/
def EntryWritten (ram ram' : EntryRam) : Prop := ram' = ram ∨ ∃ x v, ram' = cellSet x v ram

/-- `t` follows `s` with the command still under way: nothing differs but memory, at most one entry of each internal
RAM, the working registers, the counters and where the sequencer stands. -/
structure UnderWay (s t : State) : Prop where
  frame : t = { s with
    mem := t.mem, sram := t.sram, lram := t.lram, a := t.a, b := t.b, i := t.i, j := t.j, k := t.k
    rc := t.rc, blk := t.blk, ph := t.ph, begun := t.begun }
  sram  : EntryWritten s.sram t.sram
  lram  : EntryWritten s.lram t.lram

/-- A piece leaves the command under way, or completes it with an error or with what the command commits. -/
theorem enginePiece_cases (s : State) :
    UnderWay s (enginePiece s) ∨ (∃ e, enginePiece s = completeWith e s) ∨
      (∃ p, enginePiece s = commitKeysetup p s) ∨ (∃ ys, enginePiece s = commitBlock ys s) ∨
      ∃ ol, enginePiece s = commitStream ol s := by
  have start : ∀ nb m, UnderWay s (streamBegin nb m s) := by
    intro nb m
    obtain ⟨_, h⟩ | ⟨_, h⟩ := streamBegin_cases s nb m <;> rw [h] <;> exact ⟨rfl, .inl rfl, .inl rfl⟩
  have store : ∀ nb, UnderWay s (streamStore nb s) := by
    intro nb
    obtain ⟨_, h⟩ | ⟨_, h⟩ := streamStore_cases s nb <;> rw [h] <;> exact ⟨rfl, .inl rfl, .inl rfl⟩
  cases hp : s.ph <;> simp only [enginePiece, hp]
  case idle => exact .inl ⟨rfl, .inl rfl, .inl rfl⟩
  case setupAlign =>
    obtain ⟨e, _, h⟩ | ⟨_, _, ⟨_, h⟩ | ⟨_, _, rfl, ⟨_, h⟩ | ⟨_, h⟩⟩⟩ := setupAlignPiece_cases s <;> rw [h]
    · exact .inr (.inl ⟨e, rfl⟩)
    · exact .inl ⟨rfl, .inl rfl, .inl rfl⟩
    · exact .inl ⟨rfl, .inl rfl, .inr ⟨_, _, rfl⟩⟩
    · exact .inl ⟨rfl, .inl rfl, .inr ⟨_, _, rfl⟩⟩
  case setupExpand =>
    obtain ⟨e, _, h⟩ | ⟨_, _, _, rfl, ⟨_, h⟩ | ⟨_, h⟩⟩ := setupExpandPiece_cases s <;> rw [h]
    · exact .inr (.inl ⟨e, rfl⟩)
    · exact .inl ⟨rfl, .inr ⟨_, _, rfl⟩, .inl rfl⟩
    · exact .inl ⟨rfl, .inr ⟨_, _, rfl⟩, .inl rfl⟩
  case setupMix =>
    obtain ⟨e, _, h⟩ | ⟨_, _, ⟨_, h⟩ | ⟨_, h⟩⟩ := setupMixPiece_cases s <;> rw [h]
    · exact .inr (.inl ⟨e, rfl⟩)
    · exact .inl ⟨rfl, .inr ⟨_, _, rfl⟩, .inr ⟨_, _, rfl⟩⟩
    · exact .inl ⟨rfl, .inr ⟨_, _, rfl⟩, .inr ⟨_, _, rfl⟩⟩
  case blockEnc =>
    obtain ⟨_, _, h⟩ | ⟨_, _, h⟩ | ⟨_, _, h⟩ | ⟨_, _, h⟩ := blockEncPiece_cases s <;> rw [h]
    · exact .inl ⟨rfl, .inl rfl, .inl rfl⟩
    · exact .inr (.inl ⟨_, rfl⟩)
    · exact .inl ⟨rfl, .inl rfl, .inl rfl⟩
    · exact .inl ⟨rfl, .inl rfl, .inl rfl⟩
  case blockDec =>
    obtain ⟨_, _, h⟩ | ⟨_, _, h⟩ | ⟨_, _, h⟩ | ⟨_, _, h⟩ := blockDecPiece_cases s <;> rw [h]
    · exact .inl ⟨rfl, .inl rfl, .inl rfl⟩
    · exact .inr (.inl ⟨_, rfl⟩)
    · exact .inl ⟨rfl, .inl rfl, .inl rfl⟩
    · exact .inl ⟨rfl, .inl rfl, .inl rfl⟩
  case streamEnc =>
    obtain ⟨_, _, h⟩ | ⟨_, _, h⟩ | ⟨_, _, h⟩ | ⟨_, _, _, h⟩ | ⟨_, _, _, h⟩ | ⟨_, _, _, h⟩ :=
      streamEncPiece_cases s <;> rw [h]
    · exact .inl (start _ _)
    · exact .inr (.inl ⟨_, rfl⟩)
    · exact .inl ⟨rfl, .inl rfl, .inl rfl⟩
    · exact .inl ⟨rfl, .inl rfl, .inl rfl⟩
    · exact .inl ⟨rfl, .inl rfl, .inl rfl⟩
    · exact .inl (store _)
  case streamDec =>
    obtain ⟨_, _, h⟩ | ⟨_, _, h⟩ | ⟨_, _, h⟩ | ⟨_, _, _, h⟩ | ⟨_, _, _, h⟩ | ⟨_, _, _, h⟩ :=
      streamDecPiece_cases s <;> rw [h]
    · exact .inl (start _ _)
    · exact .inr (.inl ⟨_, rfl⟩)
    · exact .inl ⟨rfl, .inl rfl, .inl rfl⟩
    · exact .inl ⟨rfl, .inl rfl, .inl rfl⟩
    · exact .inl ⟨rfl, .inl rfl, .inl rfl⟩
    · exact .inl (store _)
  case finish =>
    obtain ⟨_, h⟩ | ⟨_, h⟩ | ⟨_, _, _, h⟩ | ⟨p, _, _, h⟩ | ⟨_, h⟩ | ⟨_, h⟩ | ⟨_, _, h⟩ := finishPiece_cases s <;>
      rw [h]
    · exact .inr (.inl ⟨_, rfl⟩)
    · exact .inr (.inl ⟨_, rfl⟩)
    · exact .inr (.inl ⟨_, rfl⟩)
    · exact .inr (.inr (.inl ⟨p, rfl⟩))
    · exact .inr (.inr (.inr (.inl ⟨_, rfl⟩)))
    · exact .inr (.inr (.inr (.inr ⟨_, rfl⟩)))
    · exact .inr (.inr (.inr (.inr ⟨_, rfl⟩)))

/-- A piece after which the engine is still busy leaves the command under way. -/
theorem underWay_of_busy (hb : (enginePiece s).busy = true) : UnderWay s (enginePiece s) := by
  obtain h | ⟨_, h⟩ | ⟨_, h⟩ | ⟨_, h⟩ | ⟨_, h⟩ := enginePiece_cases s
  · exact h
  all_goals rw [h] at hb; exact Bool.noConfusion hb

/-! ### The canonical form -/

theorem ramsCanonical_iff :
    ramsCanonical s = true ↔
      Memory.wf s.mem = true ∧ cellsRising s.sram = true ∧ cellsRising s.lram = true := by
  simp only [ramsCanonical, Bool.and_eq_true, and_assoc]

theorem EntryWritten.rising {ram ram' : EntryRam} (h : EntryWritten ram ram') (hr : cellsRising ram = true) :
    cellsRising ram' = true := by
  obtain rfl | ⟨x, v, rfl⟩ := h
  · exact hr
  · exact cellsRising_cellSet x v hr

theorem transformBlocks_wf (s : State) (f : List Byte → List Byte) (n : Nat) {m : Memory}
    (hm : Memory.wf m = true) : Memory.wf (transformBlocks s f n m) = true := by
  induction n with
  | zero => exact hm
  | succ n ih => exact memWriteBytes_wf _ _ ih

theorem ramsCanonical_exec (hs : ramsCanonical s = true) {i : Instr} (h : exec i s = .next t) :
    ramsCanonical t = true := by
  obtain ⟨hm, hsr, hl⟩ := ramsCanonical_iff.mp hs
  obtain ⟨_, rfl⟩ | ⟨_, rfl⟩ | ⟨_, _, rfl⟩ | ⟨f, n, _, _, rfl⟩ := exec_cases h <;> refine ramsCanonical_iff.mpr ?_
  · exact ⟨hm, hsr, hl⟩
  · exact ⟨hm, cellsRising_cellSetFrom _ _ hsr, rfl⟩
  · exact ⟨memWriteBytes_wf _ _ hm, hsr, hl⟩
  · exact ⟨transformBlocks_wf s f n (memWriteBytes_wf _ _ hm), hsr, hl⟩

theorem enginePiece_mem_wf (hm : Memory.wf s.mem = true) : Memory.wf (enginePiece s).mem = true := by
  obtain h | ⟨_, _, h, _⟩ | ⟨h, _⟩ := enginePiece_mem s <;> rw [h]
  · exact hm
  · exact memWriteBytes_wf _ _ hm
  · exact memWriteBytes_wf _ _ hm

theorem ramsCanonical_enginePiece (hs : ramsCanonical s = true) : ramsCanonical (enginePiece s) = true := by
  obtain ⟨hm, hsr, hl⟩ := ramsCanonical_iff.mp hs
  refine ramsCanonical_iff.mpr ⟨enginePiece_mem_wf hm, ?_⟩
  obtain h | ⟨_, h⟩ | ⟨_, h⟩ | ⟨_, h⟩ | ⟨_, h⟩ := enginePiece_cases s
  · exact ⟨h.sram.rising hsr, h.lram.rising hl⟩
  · rw [h]; exact ⟨hsr, hl⟩
  · rw [h]; exact ⟨hsr, rfl⟩
  · rw [h]; exact ⟨hsr, hl⟩
  · rw [h]; exact ⟨hsr, hl⟩

theorem ramsCanonical_hostWrite (hs : ramsCanonical s = true) (x n : Nat) (v : Reg) :
    ramsCanonical (hostWrite s x n v) = true := by
  obtain ⟨_, _, _, _, h⟩ | ⟨_, h⟩ | ⟨_, _, _, _, _, _, _, _, _, _, _, h, rfl | ⟨rfl, _⟩⟩ := hostWrite_cases s x n v <;>
    rw [h]
  · exact hs
  · exact hs
  · exact hs
  · obtain ⟨hm, hsr, hl⟩ := ramsCanonical_iff.mp hs
    exact ramsCanonical_iff.mpr ⟨memWriteBytes_wf _ _ hm, hsr, hl⟩

/-- Settles O38, by the moves a step can be: every one writes memory byte by byte and the RAMs entry by entry. -/
theorem memoryStaysCanonical : Obligations.MemoryStaysCanonical := by
  intro s t hs h
  refine step_preserves (P := fun u => ramsCanonical u = true) ?drop ?complete ?command ?piece ?read ?write ?reset hs h
  case drop => exact fun _ _ hs => hs
  case complete => exact fun _ _ hs => hs
  case command => exact fun _ _ _ hs hx => ramsCanonical_exec hs hx
  case piece => exact fun _ hs => ramsCanonical_enginePiece hs
  case read => exact fun _ _ _ hs => hs
  case write => exact fun _ _ _ hs => ramsCanonical_hostWrite hs _ _ _
  case reset => exact fun _ _ => rfl

/-! ### The operands of a command under way (20_memory.md R63) -/

/-- The bytes of `DIN` and `KEY` are the same in both memories. -/
def SameOperandBytes (m m' : Memory) : Prop :=
  ∀ x, (0x0040 ≤ x ∧ x < 0x0050) ∨ (0x0100 ≤ x ∧ x < 0x0200) → memRead m' x = memRead m x

/-- The operand registers, `OPR` and the bytes of `DIN` and `KEY` are the same in both. -/
def OperandsKept (s t : State) : Prop :=
  t.wordbits = s.wordbits ∧ t.rounds = s.rounds ∧ t.keylen = s.keylen ∧ t.strip = s.strip ∧ t.dlen = s.dlen ∧
    t.mlen = s.mlen ∧ t.opr = s.opr ∧ SameOperandBytes s.mem t.mem

theorem operandsKept_of_same (h : SameOperands s t) (hm : SameOperandBytes s.mem t.mem) : OperandsKept s t :=
  ⟨h.wordbits, h.rounds, h.keylen, h.strip, h.dlen, h.mlen, h.opr, hm⟩

theorem sameOperandBytes_refl (m : Memory) : SameOperandBytes m m := fun _ _ => rfl

theorem sameOperandBytes_writeMbuf (m : Memory) {x : Nat} (hx : mbufBase ≤ x) (ys : List Byte) :
    SameOperandBytes m (memWriteBytes m x ys) := by
  intro y hy
  simp only [mbufBase] at hx
  exact memRead_memWriteBytes_out (.inl (by omega))

/-- A result written to `DOUT` does not reach `KEY` at any width that `EW` can hold, legal or not. -/
theorem sameOperandBytes_commitBlock {ys : List Byte} (hy : ys.length = blockLen (wordWidth s)) :
    SameOperandBytes s.mem (commitBlock ys s).mem := by
  intro x hx
  have hw : wordWidth s < 256 := s.ew.isLt
  simp only [blockLen, wordLen] at hy
  refine memRead_memWriteBytes_out ?_
  simp only [doutBase, List.length_append, List.length_replicate]
  omega

theorem sameOperandBytes_transformBlocks {f : List Byte → List Byte}
    (hf : ∀ xs, (f xs).length = blockLen (wordWidth s)) (n len stop : Nat) (m : Memory) :
    SameOperandBytes m (transformBlocks s f n (padSegment m len stop)) := by
  intro x hx
  have below : x < mbufBase := by simp only [mbufBase]; omega
  rw [(memRead_transformBlocks s f hf n _).2 x (.inl below)]
  exact sameOperandBytes_writeMbuf m (Nat.le_add_right _ _) _ x hx

theorem exec_operandsKept {i : Instr} (h : exec i s = .next t) : OperandsKept s t := by
  refine operandsKept_of_same (exec_sameOperands h) ?_
  obtain ⟨_, rfl⟩ | ⟨_, rfl⟩ | ⟨_, hy, rfl⟩ | ⟨f, n, _, hf, rfl⟩ := exec_cases h
  · exact sameOperandBytes_refl _
  · exact sameOperandBytes_refl _
  · exact sameOperandBytes_commitBlock hy
  · exact sameOperandBytes_transformBlocks hf n _ _ _

theorem enginePiece_operandsKept (s : State) : OperandsKept s (enginePiece s) := by
  refine operandsKept_of_same (enginePiece_sameOperands s) ?_
  obtain h | ⟨_, ys, h, hx⟩ | ⟨h, _⟩ := enginePiece_mem s <;> rw [h]
  · exact sameOperandBytes_refl _
  · exact sameOperandBytes_writeMbuf _ hx ys
  · exact sameOperandBytes_commitBlock (blockOut_length _)

theorem engineRun_operandsKept (h : engineRun s = .next t) : OperandsKept s t := by
  obtain ⟨_, he⟩ | ⟨_, _, _, he⟩ | ⟨_, _, i, _, he⟩ | ⟨_, _, he⟩ := engineRun_cases s <;> rw [he] at h
  · cases h; exact operandsKept_of_same (sameOperands_refl s) (sameOperandBytes_refl _)
  · cases h; exact operandsKept_of_same (sameOperands_completeWith _ s) (sameOperandBytes_refl _)
  · exact exec_operandsKept h
  · cases h; exact enginePiece_operandsKept s

/-- While busy a transfer changes nothing but the port's answer, the draw count, `IE`, `DONE` and `LOST`. -/
theorem hostTransfer_busy {tr : Transfer} (hb : s.busy = true) (h : hostTransfer tr s = .next t) :
    ∃ answer draws ie done lost,
      t = { s with answer := answer, draws := draws, ie := ie, done := done, lost := lost } := by
  obtain ⟨_, _, ht⟩ | ⟨_, _, ht⟩ | ⟨_, _, ht⟩ := hostTransfer_cases tr s <;> rw [ht] at h <;> cases h
  · obtain ⟨_, _, _, _, hw⟩ | ⟨hi, _⟩ | ⟨hi, _⟩ := hostWrite_cases s tr.addr.toNat (2 ^ tr.size.toNat) (writeValue tr)
    · rw [hostWriteAnswered, hw]; exact ⟨_, _, _, _, _, rfl⟩
    · exact absurd hb (ne_true_of_eq_false hi)
    · exact absurd hb (ne_true_of_eq_false hi)
  · exact ⟨_, _, _, _, _, rfl⟩

/-- Settles O46: an engine's move writes only `DOUT` and `MBUF`, a transfer while busy only flags. -/
theorem busyFreezesOperands : Obligations.BusyFreezesOperands := by
  intro s t hb hreset h
  have transfer : ∀ tr es, s.inputs = .hostTransfer tr :: es → OperandsKept s t ∧ t.mem = s.mem := by
    intro tr es hin
    rw [step_cons s hin] at h
    obtain ⟨_, _, _, _, _, rfl⟩ := hostTransfer_busy (s := dropEvent s es) hb h
    exact ⟨⟨rfl, rfl, rfl, rfl, rfl, rfl, rfl, sameOperandBytes_refl _⟩, rfl⟩
  have kept : OperandsKept s t := by
    obtain ⟨_, he⟩ | ⟨e, es, hin, he⟩ := step_cases s
    · exact engineRun_operandsKept (he.symm.trans h)
    · cases e with
      | hostTransfer tr => exact (transfer tr es hin).1
      | engineRun => exact engineRun_operandsKept (s := dropEvent s es) (he.symm.trans h)
      | enginePiece => rw [he] at h; cases h; exact enginePiece_operandsKept (dropEvent s es)
      | reset => exact absurd hin (hreset es)
  obtain ⟨hwordbits, hrounds, hkeylen, hstrip, hdlen, hmlen, hopr, hbytes⟩ := kept
  exact ⟨hwordbits, hrounds, hkeylen, hstrip, hdlen, hmlen, hopr, hbytes, fun tr es hin => (transfer tr es hin).2⟩

/-! ### The results of a command under way (20_memory.md R62) -/

theorem enginePiece_dout (hb : (enginePiece s).busy = true) {x : Nat} (hx : x < 0x0060) :
    memRead (enginePiece s).mem x = memRead s.mem x := by
  obtain h | ⟨y, ys, h, hy⟩ | ⟨_, h⟩ := enginePiece_mem s
  · rw [h]
  · simp only [mbufBase] at hy
    rw [h, memRead_memWriteBytes_out (.inl (by omega))]
  · exact absurd hb (ne_true_of_eq_false h)

theorem UnderWay.results (h : UnderWay s t) :
    t.outlen = s.outlen ∧ regRead t .eparam = regRead s .eparam ∧ t.kv = s.kv ∧ t.err = s.err ∧
      t.done = s.done := by
  rw [h.frame]
  exact ⟨rfl, rfl, rfl, rfl, rfl⟩

/-- Settles O47: a piece that leaves the engine busy leaves the command under way, and only a commit writes `DOUT`. -/
theorem resultsAppearOnlyAtCompletion : Obligations.ResultsAppearOnlyAtCompletion :=
  fun _ hb => ⟨fun _ _ hx => enginePiece_dout hb hx, (underWay_of_busy hb).results⟩

end Sys2Proof.Machine
end

section
/-! SUPPORT. One transfer as one step, where a write goes by its address, and the bytes a transfer moves on their
lanes; the statements on bus errors, on reads, and on writes to each part of the map. -/

namespace Sys2Proof.Machine

variable {s : State} {tr : Transfer} {es : List Event}

/-! ### One transfer as one step -/

theorem step_fault (hin : s.inputs = .hostTransfer tr :: es) :
    (∃ f, step s = .fault f) ↔ busErrorCause s.build tr ≠ none := by
  rw [step_cons s hin, eventStep]
  obtain ⟨c, hb, ht⟩ | ⟨hb, _, ht⟩ | ⟨hb, _, ht⟩ := hostTransfer_cases tr (dropEvent s es) <;>
    simp only [dropEvent_build] at hb <;> simp [ht, hb]

theorem step_write (hin : s.inputs = .hostTransfer tr :: es) (hwe : tr.we = true)
    (hb : busErrorCause s.build tr = none) :
    step s = .next { hostWrite (dropEvent s es) tr.addr.toNat (2 ^ tr.size.toNat) (writeValue tr) with
      answer := { ack := true, err := false, rdata := 0 } } := by
  simp only [step_cons s hin, eventStep, hostTransfer, dropEvent_build, hb, (sizeBytes_of_no_error hb).1, hwe, if_true,
    hostWriteAnswered]

theorem step_read (hin : s.inputs = .hostTransfer tr :: es) (hwe : tr.we = false)
    (hb : busErrorCause s.build tr = none) :
    step s = .next (hostRead (dropEvent s es) tr.addr.toNat (2 ^ tr.size.toNat)) := by
  simp only [step_cons s hin, eventStep, hostTransfer, dropEvent_build, hb, (sizeBytes_of_no_error hb).1, hwe,
    Bool.false_eq_true, if_false]

/-! ### Bus errors (20_memory.md R57) -/

theorem sizeBytes_of_ne_three {size : BitVec 2} (h : size ≠ 3) : sizeBytes size = some (2 ^ size.toNat) := by
  revert size; decide

/-- No bus error, by the four conditions in the order of R57: the converse of `no_error_facts` too. -/
theorem busErrorCause_eq_none {p : BuildParams} {t : Transfer} :
    busErrorCause p t = none ↔
      t.size ≠ 3 ∧ t.addr.toNat % 2 ^ t.size.toNat = 0 ∧
        (∀ o, o < 2 ^ t.size.toNat → (regionOf p (t.addr.toNat + o)).isNone = false) ∧
        (t.addr.toNat ≤ 0x33 → 2 ^ t.size.toNat = 4) := by
  constructor
  · intro h
    obtain ⟨hsize, facts⟩ := no_error_facts h
    exact ⟨fun h3 => by rw [h3] at hsize; exact absurd hsize (by decide), facts⟩
  · rintro ⟨hsize, hal, hmap, hreg⟩
    have mapped : ((List.range (2 ^ t.size.toNat)).any fun o => (regionOf p (t.addr.toNat + o)).isNone) = false := by
      simpa only [List.any_eq_false, List.mem_range, Bool.not_eq_true] using hmap
    unfold busErrorCause
    rw [sizeBytes_of_ne_three hsize]
    dsimp only
    rw [if_neg (not_not_intro hal), mapped, if_neg Bool.false_ne_true, if_neg]
    exact fun h => h.2 (hreg ((regionOf_registers p _).mp h.1))

/-- Settles O49: the four conditions fail together exactly when the transfer is no bus error. -/
theorem busErrorExactlyWhen : Obligations.BusErrorExactlyWhen := by
  intro s tr es hin
  simp only [step_fault hin, Ne, busErrorCause_eq_none, not_and_or, not_not, not_forall, Bool.not_eq_false,
    regionOf_isNone, exists_prop]

/-- A transfer whose first byte lies in a reserved range is a bus error. -/
theorem busError_of_reserved {p : BuildParams} (h : (regionOf p tr.addr.toNat).isNone = true) :
    busErrorCause p tr ≠ none := by
  intro hb
  obtain ⟨_, _, mapped, _⟩ := no_error_facts hb
  exact ne_false_of_eq_true h (mapped 0 (Nat.two_pow_pos _))

/-! ### Where a write goes (20_memory.md R61) -/

theorem regionOf_dout (p : BuildParams) (x : Nat) : regionOf p x = some .dout ↔ 0x50 ≤ x ∧ x < 0x60 := by
  unfold regionOf
  split <;> [skip; split <;> [skip; split <;> [skip; split <;> [skip; split]]]] <;> simp <;> omega

theorem regionOf_mbuf (p : BuildParams) (x : Nat) :
    regionOf p x = some .mbuf ↔ 0x1000 ≤ x ∧ x < 0x1000 + p.mbufBytes := by
  unfold regionOf
  split <;> [skip; split <;> [skip; split <;> [skip; split <;> [skip; split]]]] <;> simp <;> omega

theorem hostWrite_dout (s : State) {x : Nat} (n : Nat) (v : Reg) (hx : 0x50 ≤ x ∧ x < 0x60) :
    hostWrite s x n v = s := by
  unfold hostWrite
  rw [(regionOf_dout s.build x).mpr hx]

/-- A write to `DIN`, `KEY` or `MBUF` puts its bytes in memory, or while busy is dropped with `LOST <- 1`. -/
theorem hostWrite_buffer (s : State) {x : Nat} (n : Nat) (v : Reg) (hx : (0x40 ≤ x ∧ x < 0x50) ∨ 0x100 ≤ x) :
    hostWrite s x n v =
      if s.busy then { s with lost := true } else { s with mem := memWriteBytes s.mem x (leBytes n v) } := by
  have hreg := regionOf_registers s.build x
  have hdout := regionOf_dout s.build x
  unfold hostWrite
  split
  next h => have := hreg.mp h; omega
  next h => have := hdout.mp h; omega
  next => rfl

/-- The registers whose writes are ignored (20_memory.md R59). -/
def readOnlyRegs : List RegName := [.id, .caps, .outlen, .eparam]

/-- The registers whose writes are dropped while busy (20_memory.md R63). -/
def droppedRegs : List RegName := [.cmd, .wordbits, .rounds, .keylen, .strip, .dlen, .mlen]

theorem regAt_readOnly : ∀ x ∈ [0x000, 0x004, 0x02C, 0x030], ∃ r ∈ readOnlyRegs, regAt x = some r := by decide

theorem regAt_dropped :
    ∀ x ∈ [0x010, 0x014, 0x018, 0x01C, 0x020, 0x024, 0x028], ∃ r ∈ droppedRegs, regAt x = some r := by decide

theorem regWrite_readOnly (s : State) (v : Reg) : ∀ r ∈ readOnlyRegs, regWrite s r v = s := by
  simp only [readOnlyRegs, List.forall_mem_cons, List.not_mem_nil, false_implies, implies_true, regWrite, and_self]

theorem regWrite_dropped (hb : s.busy = true) (v : Reg) :
    ∀ r ∈ droppedRegs, regWrite s r v = { s with lost := true } := by
  simp only [droppedRegs, List.forall_mem_cons, List.not_mem_nil, false_implies, implies_true, regWrite, hb, if_true,
    and_self]

/-- A write at a register's offset is that register's write, whatever its size. -/
theorem hostWrite_regAt (s : State) {x : Nat} {r : RegName} (n : Nat) (v : Reg) (h : regAt x = some r) :
    hostWrite s x n v = regWrite s r v := by
  obtain ⟨hx, _⟩ := regAt_offset h
  exact hostWrite_register s n v h (by omega)

theorem hostWrite_readOnly (s : State) {x : Nat} (n : Nat) (v : Reg)
    (hx : x ∈ [0x000, 0x004, 0x02C, 0x030] ∨ (0x50 ≤ x ∧ x < 0x60)) : hostWrite s x n v = s := by
  obtain hx | hx := hx
  · obtain ⟨r, hr, hat⟩ := regAt_readOnly x hx
    exact (hostWrite_regAt s n v hat).trans (regWrite_readOnly s v r hr)
  · exact hostWrite_dout s n v hx

theorem hostWrite_dropped (hb : s.busy = true) {x : Nat} (n : Nat) (v : Reg)
    (hx : x ∈ [0x010, 0x014, 0x018, 0x01C, 0x020, 0x024, 0x028] ∨ (0x40 ≤ x ∧ x < 0x50) ∨ 0x100 ≤ x) :
    hostWrite s x n v = { s with lost := true } := by
  obtain hx | hx := hx
  · obtain ⟨r, hr, hat⟩ := regAt_dropped x hx
    exact (hostWrite_regAt s n v hat).trans (regWrite_dropped hb v r hr)
  · rw [hostWrite_buffer s n v hx, if_pos hb]

/-- Settles O53: the read-only places are the arms of a write that answer the state itself. -/
theorem readOnlyWritesAreIgnored : Obligations.ReadOnlyWritesAreIgnored := by
  intro s tr es hin hwe
  refine ⟨fun hb hx => ?ignored, fun hx => ?reserved⟩
  case ignored =>
    rw [step_write hin hwe hb, hostWrite_readOnly _ _ _ hx]
    rfl
  case reserved =>
    exact (step_fault hin).mpr (busError_of_reserved ((regionOf_isNone _ _).mpr (by omega)))

/-- The value of a write to a word-aligned address is the whole data word. -/
theorem writeValue_aligned (h : tr.addr.toNat % 4 = 0) : writeValue tr = tr.wdata := by
  simp [writeValue, laneShift, h]

/-- Settles O54: while busy the places of R63 set `LOST` alone; `CTRL` and `STATUS` do not look at `BUSY`. -/
theorem writesWhileBusyAreDropped : Obligations.WritesWhileBusyAreDropped := by
  intro s tr es hin hwe hb
  rw [step_write hin hwe hb]
  refine ⟨fun hbusy hx => ?dropped, fun hx => ?ctrl, fun hx => ?status⟩
  case dropped =>
    rw [hostWrite_dropped (s := dropEvent s es) hbusy _ _ hx]
    rfl
  case ctrl =>
    rw [writeValue_aligned (by omega), hx, hostWrite_regAt (r := .ctrl) _ _ _ rfl]
    rfl
  case status =>
    rw [writeValue_aligned (by omega), hx, hostWrite_regAt (r := .status) _ _ _ rfl]
    rfl

/-! ### Bytes on their lanes (20_memory.md R50, R53) -/

/-- Byte `k` of the value that a write carries is the byte on lane `address mod 4 + k`. -/
theorem writeValue_byte (tr : Transfer) (k : Nat) :
    BitVec.ofNat 8 ((writeValue tr).toNat / 2 ^ (8 * k)) = tr.wdata.extractLsb' (8 * (tr.addr.toNat % 4 + k)) 8 := by
  apply BitVec.eq_of_toNat_eq
  simp only [writeValue, laneShift, BitVec.toNat_ofNat, BitVec.toNat_ushiftRight, BitVec.extractLsb'_toNat,
    Nat.shiftRight_eq_div_pow, Nat.div_div_eq_div_mul, ← Nat.pow_add, Nat.mul_add]

/-- Settles O52: an idle write to a buffer is a byte-wise write of memory, and its bytes are those of the lanes. -/
theorem bufferWritesArePlacedBytewise : Obligations.BufferWritesArePlacedBytewise := by
  intro s tr es hin hidle hwe hb hx
  have hw := hostWrite_buffer (dropEvent s es) (2 ^ tr.size.toNat) (writeValue tr) hx
  rw [if_neg (by simpa using hidle)] at hw
  refine ⟨_, step_write hin hwe hb, ?_⟩
  rw [hw]
  refine ⟨rfl, fun k hk => ?inside, fun x hout => ?outside⟩
  case inside =>
    rw [← writeValue_byte]
    exact (memRead_memWriteBytes_in (by rwa [leBytes_length])).trans (congrArg some (leBytes_getElem _ _))
  case outside => exact memRead_memWriteBytes_out (by rwa [leBytes_length])

/-- A packed value moved up by `j` lanes is the sum of its bytes, each at its lane. -/
theorem leValue_lanes (xs : List Byte) (j : Nat) :
    leValue xs * 2 ^ (8 * j) =
      ((List.range xs.length).map fun k => (xs.getD k 0).toNat * 2 ^ (8 * (j + k))).sum := by
  induction xs generalizing j with
  | nil => simp [leValue]
  | cons x xs ih =>
    have tail : 256 * 2 ^ (8 * j) = 2 ^ (8 * (j + 1)) := by rw [Nat.mul_succ, Nat.pow_add, Nat.mul_comm]
    rw [leValue, Nat.add_mul, Nat.mul_right_comm, Nat.mul_comm _ (leValue xs), tail, ih, List.length_cons,
      List.range_succ_eq_map, List.map_cons, List.map_map, List.sum_cons]
    simp [Function.comp_def, Nat.add_assoc, Nat.add_comm 1]

/-- A value of bytes that fit above lane `x mod 4` is placed on the lanes without loss. -/
theorem readData_leWord {x : Nat} {xs : List Byte} (h : x % 4 + xs.length ≤ 4) :
    (readData x (leWord 32 xs)).toNat = leValue xs * 2 ^ (8 * (x % 4)) := by
  have hlt := leValue_lt xs
  have fits : leValue xs * 2 ^ (8 * (x % 4)) < 2 ^ 32 :=
    calc leValue xs * 2 ^ (8 * (x % 4)) < 2 ^ (8 * xs.length) * 2 ^ (8 * (x % 4)) :=
          Nat.mul_lt_mul_of_pos_right hlt (Nat.two_pow_pos _)
      _ = 2 ^ (8 * xs.length + 8 * (x % 4)) := (Nat.pow_add ..).symm
      _ ≤ 2 ^ 32 := Nat.pow_le_pow_right (by omega) (by omega)
  have small : leValue xs < 2 ^ 32 := (Nat.le_mul_of_pos_right _ (Nat.two_pow_pos _)).trans_lt fits
  rw [readData, laneShift, leWord, BitVec.toNat_shiftLeft, BitVec.toNat_ofNat, Nat.mod_eq_of_lt small,
    Nat.shiftLeft_eq, Nat.mod_eq_of_lt fits]

/-! ### Reads (20_memory.md R60) -/

/-- A read of a register answers its value on all four lanes. -/
theorem hostRead_register_rdata (s : State) {x : Nat} {r : RegName} (n : Nat) (h : regAt x = some r) :
    (hostRead s x n).answer.rdata = regRead s r := by
  obtain ⟨hx, h4⟩ := regAt_offset h
  have region : regionOf s.build x = some .registers := (regionOf_registers _ x).mpr (by omega)
  simp [hostRead, hostReadValue, region, h, readData, laneShift, h4]

/-- Bytes held outside the registers, and not in `MBUF` during a stream, are what a read packs. -/
theorem hostReadValue_held {x n : Nat} {xs : List Byte} (hx : 0x34 ≤ x)
    (hfree : x + n ≤ 0x1000 ∨ streamInProgress s = false) (hlen : xs.length = n)
    (hheld : ∀ k, k < xs.length → memRead s.mem (x + k) = some (xs.getD k 0)) :
    hostReadValue s x n = leWord 32 xs := by
  have byte : ∀ k, k < n → bufByte s (x + k) = xs.getD k 0 := by
    intro k hk
    have notFree : ¬ (regionOf s.build (x + k) = some .mbuf ∧ streamInProgress s = true) := by
      rintro ⟨hm, hstream⟩
      obtain hlow | hidle := hfree
      · have := (regionOf_mbuf _ _).mp hm
        omega
      · rw [hidle] at hstream; cases hstream
    rw [bufByte, if_neg notFree]
    exact byteAt_of_memRead (hheld k (hlen ▸ hk))
  have bytes : ((List.range n).map fun k => bufByte s (x + k)) = xs := by
    apply List.ext_getElem
    · simp [hlen]
    · intro k h1 h2
      simp only [List.getElem_map, List.getElem_range]
      rw [byte k (hlen ▸ h2), List.getD_eq_getElem _ _ h2]
  have notRegs : regionOf s.build x ≠ some .registers := fun h => by
    have := (regionOf_registers s.build x).mp h
    omega
  unfold hostReadValue
  split
  next h => exact absurd h notRegs
  next => rw [bytes]

/-- Settles O50: a register read is on all four lanes, and the bytes of an aligned transfer stay inside one word. -/
theorem readsHaveNoSideEffect : Obligations.ReadsHaveNoSideEffect := by
  intro s tr es hin hwe hb
  obtain ⟨hsize, hal, _, _⟩ := no_error_facts hb
  refine ⟨_, step_read hin hwe hb, rfl, rfl, rfl, fun r hr => ?register, fun hlow hfree xs hlen hheld => ?buffer⟩
  case register =>
    rw [hostRead_register_rdata _ _ hr]
    cases r <;> rfl
  case buffer =>
    have oneWord : tr.addr.toNat % 4 + xs.length ≤ 4 ∧
        (tr.addr.toNat < 0x1000 → tr.addr.toNat + xs.length ≤ 0x1000) := by
      rw [hlen]
      generalize tr.size.toNat = k at hsize hal
      have : k = 0 ∨ k = 1 ∨ k = 2 := by omega
      obtain rfl | rfl | rfl := this <;> omega
    have value := hostReadValue_held (s := dropEvent s es) (n := 2 ^ tr.size.toNat) (by omega)
      (hfree.imp_left fun h => hlen ▸ oneWord.2 h) hlen hheld
    rw [hostRead, value, readData_leWord oneWord.1, leValue_lanes]

end Sys2Proof.Machine
end

section
/-! SUPPORT. The decoder's answer by the fields of the word (30_encoding.md R81, R84, R85), and the statements on
command words. A word is the sum of its fields, so a word whose reserved fields are 0 is fixed by `OPC` and `MORE`. -/

namespace Sys2Proof.Machine

/-! ### The fields of a command word (30_encoding.md R81) -/

/-- `OPC`, bits [7:4], bit 8 and bits [31:9] make up the word. -/
theorem toNat_eq_fields (v : Reg) :
    v.toNat = (wordField v 0 4).toNat + 16 * (wordField v 4 4).toNat + 256 * (v.getLsbD 8).toNat +
      512 * (wordField v 9 23).toNat := by
  have bit : (v.getLsbD 8).toNat = v.toNat / 256 % 2 := Nat.toNat_testBit v.toNat 8
  simp only [wordField, BitVec.extractLsb'_toNat, Nat.shiftRight_eq_div_pow, bit]
  omega

/-! ### The arms of the decoder (30_encoding.md R84, R85) -/

theorem decodeWord_of_reserved {v : Reg} (h : wordField v 9 23 ≠ 0 ∨ wordField v 4 4 ≠ 0) :
    decodeWord v = .illegal := if_pos h

theorem decodeWord_of_more {v : Reg} (hm : v.getLsbD 8 = true) (hopc : wordField v 0 4 ≠ 5) :
    decodeWord v = .illegal := by
  by_cases hres : wordField v 9 23 ≠ 0 ∨ wordField v 4 4 ≠ 0
  · exact decodeWord_of_reserved hres
  · rw [decodeWord, if_neg hres, if_neg hopc, if_pos hm]

/-- A word that names a command has no reserved bit set, so `OPC` and `MORE` make it up. -/
theorem toNat_of_decodeWord_command {v : Reg} {i : Instr} (h : decodeWord v = .command i) :
    v.toNat = (wordField v 0 4).toNat + 256 * (v.getLsbD 8).toNat := by
  have hres : ¬ (wordField v 9 23 ≠ 0 ∨ wordField v 4 4 ≠ 0) := by
    intro hres
    rw [decodeWord_of_reserved hres] at h
    cases h
  obtain ⟨hup, hmid⟩ : wordField v 9 23 = 0 ∧ wordField v 4 4 = 0 := by simpa using hres
  have fields := toNat_eq_fields v
  rw [hup, hmid] at fields
  simpa using fields

/-! ### Decoder and encoder (30_encoding.md R82, R85) -/

@[simp] theorem decodeWord_encode (i : Instr) : decodeWord (encode i) = .command i := by
  cases i with
  | decs more => cases more <;> rfl
  | _ => rfl

theorem eq_encode_of_decodeWord {v : Reg} {i : Instr} (h : decodeWord v = .command i) : v = encode i := by
  have word := toNat_of_decodeWord_command h
  apply BitVec.eq_of_toNat_eq
  rw [word]
  unfold decodeWord at h
  split at h
  next => cases h
  next =>
    split at h
    next hopc =>
      cases h
      rw [hopc]
      cases v.getLsbD 8 <;> rfl
    next =>
      split at h
      next => cases h
      next hmore =>
        rw [eq_false_of_ne_true hmore]
        split at h <;> cases h
        all_goals next hopc => rw [hopc]; rfl

theorem decodeWord_eq_command_iff (v : Reg) (i : Instr) : decodeWord v = .command i ↔ v = encode i :=
  ⟨eq_encode_of_decodeWord, fun h => h ▸ decodeWord_encode i⟩

/-- The words that `encode` gives are the seven of R82. -/
theorem exists_eq_encode_iff (v : Reg) : (∃ i, v = encode i) ↔ v.toNat ∈ [0, 1, 2, 3, 4, 5, 0x105] := by
  constructor
  · rintro ⟨i, rfl⟩
    cases i with
    | decs more => cases more <;> decide
    | _ => decide
  · intro h
    simp only [List.mem_cons, List.not_mem_nil, or_false] at h
    obtain h | h | h | h | h | h | h := h
    · exact ⟨.nop, BitVec.eq_of_toNat_eq h⟩
    · exact ⟨.keysetup, BitVec.eq_of_toNat_eq h⟩
    · exact ⟨.encb, BitVec.eq_of_toNat_eq h⟩
    · exact ⟨.decb, BitVec.eq_of_toNat_eq h⟩
    · exact ⟨.encs, BitVec.eq_of_toNat_eq h⟩
    · exact ⟨.decs false, BitVec.eq_of_toNat_eq h⟩
    · exact ⟨.decs true, BitVec.eq_of_toNat_eq h⟩

theorem exists_decodeWord_command_iff (v : Reg) :
    (∃ i, decodeWord v = .command i) ↔ v.toNat ∈ [0, 1, 2, 3, 4, 5, 0x105] := by
  simp only [decodeWord_eq_command_iff, exists_eq_encode_iff]

theorem decodeWord_eq_illegal_iff (v : Reg) :
    decodeWord v = .illegal ↔ v.toNat ∉ [0, 1, 2, 3, 4, 5, 0x105] := by
  rw [← exists_decodeWord_command_iff]
  cases decodeWord v <;> simp

/-! ### The statements on command words -/

/-- Settles O5: the encoder inverts the decoder, and its words are the seven. -/
theorem onlySevenWordsDecode : Obligations.OnlySevenWordsDecode :=
  ⟨decodeWord_eq_command_iff, exists_decodeWord_command_iff⟩

/-- Settles O6: reserved fields are the decoder's first arm, and `MORE` is looked at only with `OPC` = 5. -/
theorem reservedWordsAreIllegal : Obligations.ReservedWordsAreIllegal := by
  rintro v (hmid | hup | ⟨hmore, hopc⟩)
  · exact decodeWord_of_reserved (.inr hmid)
  · exact decodeWord_of_reserved (.inl hup)
  · exact decodeWord_of_more hmore hopc

/-- Settles O4: the words of the table are those of the encoder, and none of the seven is 6 to 15. -/
theorem tableWordsDecode : Obligations.TableWordsDecode := by
  refine ⟨decodeWord_encode .nop, decodeWord_encode .keysetup, decodeWord_encode .encb, decodeWord_encode .decb,
    decodeWord_encode .encs, decodeWord_encode (.decs false), decodeWord_encode (.decs true), fun o ho => ?_⟩
  have word : (BitVec.ofNat 32 o.val).toNat = o.val := Nat.mod_eq_of_lt (by omega)
  rw [decodeWord_eq_illegal_iff, word]
  simp only [List.mem_cons, List.not_mem_nil, or_false]
  omega

end Sys2Proof.Machine
end

section
/-! SUPPORT. An engine's move at the start of a command, the acceptance of a command word, and what leaves the schedule
alone; the statements on the command cycle (40_command_control.md R100 to R111). -/

namespace Sys2Proof.Machine

variable {s t : State}

/-! ### The schedule, `KV` and the latched parameters (40_command_control.md R111) -/

/-- The schedule held, `KV` and the latched parameters are the same in both. -/
def SameLatched (s t : State) : Prop :=
  t.kv = s.kv ∧ t.ew = s.ew ∧ t.er = s.er ∧ t.estrip = s.estrip ∧ t.sram = s.sram

/-- A KEYSETUP that passes its checks is the command in `OPR`. -/
def LegalKeysetup (s : State) : Prop := decodeWord s.opr = .command .keysetup ∧ ∃ p, keysetupParams s = .ok p

theorem sameLatched_refl (s : State) : SameLatched s s := ⟨rfl, rfl, rfl, rfl, rfl⟩

theorem sameLatched_completeWith (e : ErrorCode) (s : State) : SameLatched s (completeWith e s) :=
  ⟨rfl, rfl, rfl, rfl, rfl⟩

theorem exec_sameLatched {i : Instr} (hi : i = .keysetup → ¬ ∃ p, keysetupParams s = .ok p)
    (h : exec i s = .next t) : SameLatched s t := by
  cases i with
  | nop => cases h; exact sameLatched_completeWith _ s
  | keysetup =>
    cases hk : keysetupParams s with
    | error e => rw [exec_keysetup_error hk] at h; cases h; exact sameLatched_completeWith _ s
    | ok p => exact absurd ⟨p, hk⟩ (hi rfl)
  | encb =>
    by_cases hc : blockCheck s = .success
    · rw [exec_encb_ok hc] at h; cases h; exact ⟨rfl, rfl, rfl, rfl, rfl⟩
    · rw [exec_encb_error rfl hc] at h; cases h; exact sameLatched_completeWith _ s
  | decb =>
    by_cases hc : blockCheck s = .success
    · rw [exec_decb_ok hc] at h; cases h; exact ⟨rfl, rfl, rfl, rfl, rfl⟩
    · rw [exec_decb_error rfl hc] at h; cases h; exact sameLatched_completeWith _ s
  | encs =>
    by_cases hc : streamCheck s = .success
    · rw [exec_encs_ok hc] at h; cases h; exact ⟨rfl, rfl, rfl, rfl, rfl⟩
    · rw [exec_encs_error rfl hc] at h; cases h; exact sameLatched_completeWith _ s
  | decs more =>
    by_cases hc : streamCheck s = .success
    · rw [exec_decs_ok hc] at h; cases h; exact ⟨rfl, rfl, rfl, rfl, rfl⟩
    · rw [exec_decs_error rfl hc] at h; cases h; exact sameLatched_completeWith _ s

theorem streamBegin_sameLatched (nb : Nat) (m : Memory) (s : State) : SameLatched s (streamBegin nb m s) := by
  obtain ⟨_, h⟩ | ⟨_, h⟩ := streamBegin_cases s nb m <;> rw [h] <;> exact ⟨rfl, rfl, rfl, rfl, rfl⟩

theorem streamStore_sameLatched (nb : Nat) (s : State) : SameLatched s (streamStore nb s) := by
  obtain ⟨_, h⟩ | ⟨_, h⟩ := streamStore_cases s nb <;> rw [h] <;> exact ⟨rfl, rfl, rfl, rfl, rfl⟩

/-- The phases that write `S`, and the commit of the parameters, stand in a sound state only with a KEYSETUP that
passed its checks. -/
theorem enginePiece_sameLatched (hq : sequencerSound s = true) (hn : ¬ LegalKeysetup s) :
    SameLatched s (enginePiece s) := by
  cases hp : s.ph <;> simp only [enginePiece, hp]
  case idle => exact sameLatched_refl s
  case setupAlign =>
    obtain ⟨_, _, h⟩ | ⟨_, _, ⟨_, h⟩ | ⟨_, _, _, ⟨_, h⟩ | ⟨_, h⟩⟩⟩ := setupAlignPiece_cases s <;> rw [h] <;>
      exact ⟨rfl, rfl, rfl, rfl, rfl⟩
  case setupExpand =>
    obtain ⟨p, hd, hk, _⟩ := sequencerSound_setupExpand_inv hq hp
    exact absurd ⟨hd, p, hk⟩ hn
  case setupMix =>
    obtain ⟨p, hd, hk, _⟩ := sequencerSound_setupMix_inv hq hp
    exact absurd ⟨hd, p, hk⟩ hn
  case blockEnc =>
    obtain ⟨_, _, h⟩ | ⟨_, _, h⟩ | ⟨_, _, h⟩ | ⟨_, _, h⟩ := blockEncPiece_cases s <;> rw [h] <;>
      exact ⟨rfl, rfl, rfl, rfl, rfl⟩
  case blockDec =>
    obtain ⟨_, _, h⟩ | ⟨_, _, h⟩ | ⟨_, _, h⟩ | ⟨_, _, h⟩ := blockDecPiece_cases s <;> rw [h] <;>
      exact ⟨rfl, rfl, rfl, rfl, rfl⟩
  case streamEnc =>
    obtain ⟨_, _, h⟩ | ⟨_, _, h⟩ | ⟨_, _, h⟩ | ⟨_, _, _, h⟩ | ⟨_, _, _, h⟩ | ⟨_, _, _, h⟩ :=
      streamEncPiece_cases s <;> rw [h]
    · exact streamBegin_sameLatched _ _ s
    · exact sameLatched_completeWith _ s
    · exact ⟨rfl, rfl, rfl, rfl, rfl⟩
    · exact ⟨rfl, rfl, rfl, rfl, rfl⟩
    · exact ⟨rfl, rfl, rfl, rfl, rfl⟩
    · exact streamStore_sameLatched _ s
  case streamDec =>
    obtain ⟨_, _, h⟩ | ⟨_, _, h⟩ | ⟨_, _, h⟩ | ⟨_, _, _, h⟩ | ⟨_, _, _, h⟩ | ⟨_, _, _, h⟩ :=
      streamDecPiece_cases s <;> rw [h]
    · exact streamBegin_sameLatched _ _ s
    · exact sameLatched_completeWith _ s
    · exact ⟨rfl, rfl, rfl, rfl, rfl⟩
    · exact ⟨rfl, rfl, rfl, rfl, rfl⟩
    · exact ⟨rfl, rfl, rfl, rfl, rfl⟩
    · exact streamStore_sameLatched _ s
  case finish =>
    obtain ⟨_, h⟩ | ⟨_, h⟩ | ⟨_, _, _, h⟩ | ⟨p, hd, hk, _⟩ | ⟨_, h⟩ | ⟨_, h⟩ | ⟨_, _, h⟩ := finishPiece_cases s
    case inr.inr.inr.inl => exact absurd ⟨hd, p, hk⟩ hn
    all_goals rw [h]; exact ⟨rfl, rfl, rfl, rfl, rfl⟩

theorem engineRun_sameLatched (hq : sequencerSound s = true) (hn : s.ph ≠ .idle → ¬ LegalKeysetup s)
    (h : engineRun s = .next t) : SameLatched s t := by
  obtain ⟨_, he⟩ | ⟨_, _, _, he⟩ | ⟨hp, _, i, hd, he⟩ | ⟨hp, _, he⟩ := engineRun_cases s <;> rw [he] at h
  · cases h; exact sameLatched_refl s
  · cases h; exact sameLatched_completeWith _ s
  · exact exec_sameLatched (fun hi hk => hn hp ⟨hi ▸ hd, hk⟩) h
  · cases h; exact enginePiece_sameLatched hq (hn hp)

theorem hostTransfer_sameLatched {tr : Transfer} (h : hostTransfer tr s = .next t) : SameLatched s t := by
  obtain ⟨_, _, ht⟩ | ⟨_, _, ht⟩ | ⟨_, _, ht⟩ := hostTransfer_cases tr s <;> rw [ht] at h <;> cases h
  · obtain ⟨_, _, _, _, hw⟩ | ⟨_, hw⟩ | ⟨_, _, _, _, _, _, _, _, _, _, _, hw, _⟩ :=
      hostWrite_cases s tr.addr.toNat (2 ^ tr.size.toNat) (writeValue tr) <;> rw [hostWriteAnswered, hw] <;>
      exact ⟨rfl, rfl, rfl, rfl, rfl⟩
  · exact ⟨rfl, rfl, rfl, rfl, rfl⟩

theorem enginePiece_idle (hp : s.ph = .idle) : enginePiece s = s := by simp only [enginePiece, hp]

/-- Settles O37: only a KEYSETUP that passed its checks writes `S` or commits parameters, and then `BUSY` = 1. -/
theorem schedulePersists : Obligations.SchedulePersists := by
  intro s t hs h hreset hn
  obtain ⟨_, hidle, hq⟩ := sound_iff.mp hs
  have noKeysetup : s.ph ≠ .idle → ¬ LegalKeysetup s := by
    rintro hp ⟨hd, p, hk⟩
    obtain ⟨hw, hpw, hpr, hr, hpb, hb, _⟩ := keysetupParams_ok hk
    exact hn ⟨eq_true_of_ne_false fun hb => hp (hidle.mpr hb), hd, hpw ▸ hw, hpr ▸ hr, hpb ▸ hb⟩
  obtain ⟨_, he⟩ | ⟨e, es, hin, he⟩ := step_cases s <;> rw [he] at h
  · exact engineRun_sameLatched hq noKeysetup h
  · cases e with
    | hostTransfer tr => exact hostTransfer_sameLatched (s := dropEvent s es) h
    | engineRun => exact engineRun_sameLatched (s := dropEvent s es) hq noKeysetup h
    | enginePiece =>
      cases h
      by_cases hp : s.ph = .idle
      · rw [enginePiece_idle (s := dropEvent s es) hp]; exact sameLatched_refl s
      · exact enginePiece_sameLatched (s := dropEvent s es) hq (noKeysetup hp)
    | reset => exact absurd hin (hreset es)

/-! ### The start of a command (40_command_control.md R105, R106, R110) -/

theorem ph_of_atStart (h : atStart s = true) : s.ph = firstPhase (decodeWord s.opr) := by
  simp only [atStart, Bool.and_eq_true, beq_iff_eq] at h
  exact h.1

theorem begun_of_atStart (h : atStart s = true) : s.begun = false := by
  simp only [atStart, Bool.and_eq_true, Bool.not_eq_true'] at h
  exact h.2

theorem ph_ne_idle_of_atStart (h : atStart s = true) : s.ph ≠ .idle := by
  rw [ph_of_atStart h]
  exact firstPhase_ne_idle _

theorem engineRun_command {i : Instr} (h : atStart s = true) (hd : decodeWord s.opr = .command i) :
    engineRun s = exec i s := by
  simp only [engineRun, if_neg (ph_ne_idle_of_atStart h), if_pos h, hd]

theorem engineRun_illegal (h : atStart s = true) (hd : decodeWord s.opr = .illegal) :
    engineRun s = .next (completeWith .illegalCommand s) := by
  simp only [engineRun, if_neg (ph_ne_idle_of_atStart h), if_pos h, hd, illegalCompletion, raiseError_eq]

/-- An illegal word's completion is its only piece, and it starts in the phase FINISH. -/
theorem enginePiece_illegal (h : atStart s = true) (hd : decodeWord s.opr = .illegal) :
    enginePiece s = completeWith .illegalCommand s := by
  have hp : s.ph = .finish := (ph_of_atStart h).trans (congrArg firstPhase hd)
  simp only [enginePiece, hp, finishPiece, hd, raiseError_eq]

/-- Settles O7: both with no event pending and with the engine's turn next the step is the engine's move. -/
theorem stepRunsTheAcceptedCommand : Obligations.StepRunsTheAcceptedCommand := by
  intro s i hd _ hstart
  refine ⟨fun hin => ?_, fun es hin => ?_⟩
  · rw [step_nil s hin, engineRun_command hstart hd]
  · rw [step_cons s hin]
    exact engineRun_command (s := dropEvent s es) hstart hd

/-- Settles O9: by a whole move or by one piece, the word's completion is all that happens. -/
theorem illegalWordCompletesWithCodeSix : Obligations.IllegalWordCompletesWithCodeSix := by
  refine ⟨rfl, rfl, fun s hd hstart => ?_⟩
  have completes : ∀ u : State, step s = .next (completeWith .illegalCommand u) →
      ∃ t, step s = .next t ∧ Completed .illegalCommand t ∧ OnlyStatusChanged u t ∧
        (regRead t .status).extractLsb' 4 4 = 6 ∧ (regRead t .status).getLsbD 1 = true := fun u h =>
    ⟨_, h, completed_completeWith _ u, onlyStatusChanged_completeWith _ u, statusWord_error_field _,
      getLsbD_statusWord _ 1⟩
  refine ⟨fun hin => completes s ?_, fun e es hin he => completes (afterEvent s es) ?_⟩
  · rw [step_nil s hin, engineRun_illegal hstart hd]
  · rw [step_cons s hin]
    obtain rfl | rfl := he
    · exact engineRun_illegal (s := dropEvent s es) hstart hd
    · exact congrArg _ (enginePiece_illegal (s := dropEvent s es) hstart hd)

/-- Settles O10: NOP is the completion alone, and with its flags fixed `STATUS` is a number. -/
theorem nopOnlyCompletes : Obligations.NopOnlyCompletes := by
  intro s
  refine ⟨_, rfl, completed_completeWith _ s, onlyStatusChanged_completeWith _ s, fun hlost hkv => ?_⟩
  simp only [regRead, statusWord, completeWith_err, completeWith_lost, completeWith_kv, completeWith_done,
    completeWith_busy, hlost, hkv]
  decide

/-! ### Acceptance (40_command_control.md R100, R101) -/

/-- Which words start in which phase (R101). -/
theorem firstPhase_eq_iff (d : Decoded) :
    (firstPhase d = .setupAlign ↔ d = .command .keysetup) ∧ (firstPhase d = .blockEnc ↔ d = .command .encb) ∧
      (firstPhase d = .blockDec ↔ d = .command .decb) ∧ (firstPhase d = .streamEnc ↔ d = .command .encs) ∧
      (firstPhase d = .streamDec ↔ ∃ more, d = .command (.decs more)) ∧
      (firstPhase d = .finish ↔ d = .illegal ∨ d = .command .nop) := by
  cases d with
  | illegal => simp [firstPhase]
  | command i => cases i <;> simp [firstPhase]

/-- Settles O8: idle, the write is the acceptance, whose phase is the first one of the word; busy, it is dropped. -/
theorem commandWriteAcceptedExactlyWhenIdle : Obligations.CommandWriteAcceptedExactlyWhenIdle := by
  intro s v es hin
  refine ⟨fun hb => ?accepted, fun hb => ?dropped⟩
  case accepted =>
    have hw : regWrite (dropEvent s es) .cmd v = accept v (dropEvent s es) := by simp [regWrite, hb]
    exact ⟨_, step_w32_register rfl hin hw, rfl, Bool.and_false _, atStart_accept (dropEvent s es) v,
      firstPhase_eq_iff (decodeWord v)⟩
  case dropped =>
    exact step_w32_register rfl hin (regWrite_dropped (s := dropEvent s es) hb v .cmd (by decide))

end Sys2Proof.Machine
end

section
/-! SUPPORT. Several pieces one after another, the pieces of one block's cipher, and the statement on ENCB and DECB made
piece by piece (43_block_cipher.md R168). -/

namespace Sys2Proof.Machine

/-! ### Several pieces -/

theorem enginePieces_add (m n : Nat) (s : State) : enginePieces (m + n) s = enginePieces n (enginePieces m s) := by
  induction m generalizing s with
  | zero => rw [Nat.zero_add]; rfl
  | succ m ih => rw [Nat.succ_add]; exact ih (enginePiece s)

theorem enginePieces_succ (n : Nat) (s : State) : enginePieces (n + 1) s = enginePiece (enginePieces n s) :=
  enginePieces_add n 1 s

/-! ### One block in the working registers -/

/-- Every word of a legal width fits a storage entry (00_scope.md R10). -/
theorem le_64_of_legal {w : Nat} (h : legalWidth w) : w ≤ 64 := by
  obtain rfl | rfl | rfl := h <;> decide

theorem ofLong_toLong {w : Nat} (hw : w ≤ 64) (v : BitVec w) : ofLong w (toLong v) = v := by
  rw [ofLong, toLong, BitVec.setWidth_setWidth_of_le v hw, BitVec.setWidth_eq]

/-- The state with a pair of words in `A` and `B` and a round number in `rc`. -/
def working (s : State) (ab : BitVec (wordWidth s) × BitVec (wordWidth s)) (rc : Nat) : State :=
  { s with a := toLong ab.1, b := toLong ab.2, rc := BitVec.ofNat 9 rc }

theorem halves_working {s : State} (hw : wordWidth s ≤ 64) (ab : BitVec (wordWidth s) × BitVec (wordWidth s))
    (rc : Nat) : halves (working s ab rc) = ab :=
  Prod.ext (ofLong_toLong hw ab.1) (ofLong_toLong hw ab.2)

theorem setWidth_er (s : State) : s.er.setWidth 9 = BitVec.ofNat 9 s.er.toNat :=
  BitVec.eq_of_toNat_eq (by simp)

theorem er_lt (s : State) : s.er.toNat < 256 := s.er.isLt

theorem ofNat_eq_zero_iff {k : Nat} (hk : k < 512) : BitVec.ofNat 9 k = 0 ↔ k = 0 := by
  rw [← BitVec.toNat_inj, toNat_counter hk]
  rfl

/-- What `A` and `B` hold after `k` pieces of an encryption: the whitening is the first (R163, R168). -/
def encAfter {w : Nat} (key : Nat → BitVec w) (ab : BitVec w × BitVec w) : Nat → BitVec w × BitVec w
  | 0 => ab
  | k + 1 => encRounds key k (whiten key ab)

section
variable {u : State} (hw : wordWidth u ≤ 64)
include hw

theorem encRoundPiece_working (ab : BitVec (wordWidth u) × BitVec (wordWidth u)) {k : Nat} (hk : k < 512) :
    encRoundPiece (working u (encAfter (scheduleWord (wordWidth u) u.sram) ab k) k) =
      working u (encAfter (scheduleWord (wordWidth u) u.sram) ab (k + 1)) (k + 1) := by
  have rc : (BitVec.ofNat 9 k).toNat = k := toNat_counter hk
  simp only [encRoundPiece, halves_working hw]
  simp only [working, rc, ofNat_eq_zero_iff hk]
  cases k <;> rfl

theorem decRoundPiece_working_zero (ab : BitVec (wordWidth u) × BitVec (wordWidth u)) :
    decRoundPiece (working u ab 0) = working u (unwhiten (scheduleWord (wordWidth u) u.sram) ab) 0 := by
  simp only [decRoundPiece, halves_working hw]
  rfl

theorem decRoundPiece_working_succ (ab : BitVec (wordWidth u) × BitVec (wordWidth u)) {k : Nat} (hk : k + 1 < 512) :
    decRoundPiece (working u ab (k + 1)) = working u (decRound (scheduleWord (wordWidth u) u.sram) (k + 1) ab) k := by
  have rc : (BitVec.ofNat 9 (k + 1)).toNat = k + 1 := toNat_counter hk
  simp only [decRoundPiece, halves_working hw]
  simp only [working, rc, ofNat_eq_zero_iff hk, Nat.succ_ne_zero, if_false]
  rfl

/-- The pieces of an encryption, the whitening and rounds 1 to `ER`, where `after` is what the last of them does to the
sequencer beside. -/
theorem enginePieces_encipher {after : State → State}
    (round : ∀ ab k, k < u.er.toNat → enginePiece (working u ab k) = encRoundPiece (working u ab k))
    (last : ∀ ab, enginePiece (working u ab u.er.toNat) = after (encRoundPiece (working u ab u.er.toNat)))
    (ab : BitVec (wordWidth u) × BitVec (wordWidth u)) :
    enginePieces (u.er.toNat + 1) (working u ab 0) =
      after (working u (encipher (scheduleWord (wordWidth u) u.sram) u.er.toNat ab) (u.er.toNat + 1)) := by
  have her := er_lt u
  have rounds : ∀ k, k ≤ u.er.toNat → enginePieces k (working u ab 0) =
      working u (encAfter (scheduleWord (wordWidth u) u.sram) ab k) k := by
    intro k hk
    induction k with
    | zero => rfl
    | succ k ih => rw [enginePieces_succ, ih (by omega), round _ k hk, encRoundPiece_working hw ab (by omega)]
  rw [enginePieces_succ, rounds _ le_rfl, last, encRoundPiece_working hw ab (by omega)]
  rfl

/-- The pieces of a decryption, rounds `rc` to 1 and the un-whitening. -/
theorem enginePieces_decipher {after : State → State}
    (round : ∀ ab k, k < u.er.toNat → enginePiece (working u ab (k + 1)) = decRoundPiece (working u ab (k + 1)))
    (last : ∀ ab, enginePiece (working u ab 0) = after (decRoundPiece (working u ab 0))) {rc : Nat}
    (hrc : rc ≤ u.er.toNat) (ab : BitVec (wordWidth u) × BitVec (wordWidth u)) :
    enginePieces (rc + 1) (working u ab rc) =
      after (working u (decipher (scheduleWord (wordWidth u) u.sram) rc ab) 0) := by
  have her := er_lt u
  induction rc generalizing ab with
  | zero => exact (last ab).trans (congrArg after (decRoundPiece_working_zero hw ab))
  | succ rc ih =>
    rw [Nat.add_comm (rc + 1) 1, enginePieces_add,
      show enginePieces 1 (working u ab (rc + 1)) = _ from round ab rc hrc,
      decRoundPiece_working_succ hw ab (by omega), ih (by omega)]
    rfl

end

/-! ### ENCB and DECB (43_block_cipher.md R165, R170) -/

/-- The state with the sequencer at the piece that completes. -/
def atFinish (s : State) : State := { s with ph := .finish }

section
variable {s : State}

theorem enginePiece_blockEnc_begin (hp : s.ph = .blockEnc) (hb : s.begun = false) (hc : blockCheck s = .success) :
    enginePiece s = working { s with begun := true } (blockIn (wordWidth s) (dinBlock s)) 0 := by
  simp only [enginePiece, hp, blockEncPiece, hb, if_true, hc]
  rfl

theorem enginePiece_blockDec_begin (hp : s.ph = .blockDec) (hb : s.begun = false) (hc : blockCheck s = .success) :
    enginePiece s = working { s with begun := true } (blockIn (wordWidth s) (dinBlock s)) s.er.toNat := by
  simp only [enginePiece, hp, blockDecPiece, hb, if_true, hc, setWidth_er]
  rfl

theorem enginePiece_blockEnc_round (hp : s.ph = .blockEnc) (hb : s.begun = true)
    (ab : BitVec (wordWidth s) × BitVec (wordWidth s)) {k : Nat} (hk : k < 512) :
    enginePiece (working s ab k) =
      if k = s.er.toNat then atFinish (encRoundPiece (working s ab k)) else encRoundPiece (working s ab k) := by
  have rc : (working s ab k).rc.toNat = k := toNat_counter hk
  have hp' : (working s ab k).ph = .blockEnc := hp
  have hb' : (working s ab k).begun = true := hb
  simp only [enginePiece, hp', blockEncPiece, hb', Bool.true_eq_false, if_false, rc]
  rfl

theorem enginePiece_blockDec_round (hp : s.ph = .blockDec) (hb : s.begun = true)
    (ab : BitVec (wordWidth s) × BitVec (wordWidth s)) {k : Nat} (hk : k < 512) :
    enginePiece (working s ab k) =
      if k = 0 then atFinish (decRoundPiece (working s ab k)) else decRoundPiece (working s ab k) := by
  have rc : (working s ab k).rc = 0 ↔ k = 0 := ofNat_eq_zero_iff hk
  have hp' : (working s ab k).ph = .blockDec := hp
  have hb' : (working s ab k).begun = true := hb
  simp only [enginePiece, hp', blockDecPiece, hb', Bool.true_eq_false, if_false, rc]
  rfl

theorem enginePiece_finishBlock (hp : s.ph = .finish)
    (hd : decodeWord s.opr = .command .encb ∨ decodeWord s.opr = .command .decb) :
    enginePiece s = commitBlock (blockOut (halves s)) s := by
  obtain hd | hd := hd <;> simp only [enginePiece, hp, finishPiece, hd]

theorem enginePiece_block_fails (hp : s.ph = .blockEnc ∨ s.ph = .blockDec) (hb : s.begun = false)
    (hc : blockCheck s ≠ .success) : enginePiece s = completeWith (blockCheck s) s := by
  obtain hp | hp := hp
  · simp only [enginePiece, hp, blockEncPiece, hb, if_true, raiseError_eq]
  · simp only [enginePiece, hp, blockDecPiece, hb, if_true, raiseError_eq]

/-- The last piece commits the block that `A` and `B` hold. -/
theorem enginePiece_commitBlock (hw : wordWidth s ≤ 64)
    (hd : decodeWord s.opr = .command .encb ∨ decodeWord s.opr = .command .decb)
    (ab : BitVec (wordWidth s) × BitVec (wordWidth s)) (rc : Nat) :
    enginePiece (atFinish (working s ab rc)) = commitBlock (blockOut ab) s :=
  (enginePiece_finishBlock (s := atFinish (working s ab rc)) rfl hd).trans
    (congrArg (fun ab => commitBlock (blockOut ab) s) (halves_working hw ab rc))

theorem enginePieces_blockEnc (hw : wordWidth s ≤ 64) (hp : s.ph = .blockEnc) (hb : s.begun = true)
    (hd : decodeWord s.opr = .command .encb) (ab : BitVec (wordWidth s) × BitVec (wordWidth s)) :
    enginePieces (s.er.toNat + 2) (working s ab 0) =
      commitBlock (blockOut (encipher (scheduleWord (wordWidth s) s.sram) s.er.toNat ab)) s := by
  have her := er_lt s
  rw [enginePieces_succ, enginePieces_encipher hw ?round ?last ab, enginePiece_commitBlock hw (.inl hd)]
  case round => exact fun ab k hk => (enginePiece_blockEnc_round hp hb ab (by omega)).trans (if_neg hk.ne)
  case last => exact fun ab => (enginePiece_blockEnc_round hp hb ab (by omega)).trans (if_pos rfl)

theorem enginePieces_blockDec (hw : wordWidth s ≤ 64) (hp : s.ph = .blockDec) (hb : s.begun = true)
    (hd : decodeWord s.opr = .command .decb) (ab : BitVec (wordWidth s) × BitVec (wordWidth s)) :
    enginePieces (s.er.toNat + 2) (working s ab s.er.toNat) =
      commitBlock (blockOut (decipher (scheduleWord (wordWidth s) s.sram) s.er.toNat ab)) s := by
  have her := er_lt s
  rw [enginePieces_succ, enginePieces_decipher hw ?round ?last le_rfl ab, enginePiece_commitBlock hw (.inr hd)]
  case round =>
    exact fun ab k hk => (enginePiece_blockDec_round hp hb ab (by omega)).trans (if_neg (Nat.succ_ne_zero k))
  case last => exact fun ab => (enginePiece_blockDec_round hp hb ab (by omega)).trans (if_pos rfl)

theorem encbPieces_eq (hw : wordWidth s ≤ 64) (hp : s.ph = .blockEnc) (hb : s.begun = false)
    (hd : decodeWord s.opr = .command .encb) (hc : blockCheck s = .success) :
    enginePieces (s.er.toNat + 3) s = commitBlock (encryptBlock s (dinBlock s)) s :=
  (congrArg (enginePieces (s.er.toNat + 2)) (enginePiece_blockEnc_begin hp hb hc)).trans
    (enginePieces_blockEnc (s := { s with begun := true }) hw hp rfl hd _)

theorem decbPieces_eq (hw : wordWidth s ≤ 64) (hp : s.ph = .blockDec) (hb : s.begun = false)
    (hd : decodeWord s.opr = .command .decb) (hc : blockCheck s = .success) :
    enginePieces (s.er.toNat + 3) s = commitBlock (decryptBlock s (dinBlock s)) s :=
  (congrArg (enginePieces (s.er.toNat + 2)) (enginePiece_blockDec_begin hp hb hc)).trans
    (enginePieces_blockDec (s := { s with begun := true }) hw hp rfl hd _)

/-- Settles O42: the pieces after the checks are the whitening and the rounds, and the last commits their result. -/
theorem blockPiecesReachTheCommand : Obligations.BlockPiecesReachTheCommand := by
  intro s i hi hd hstart hlegal
  have hb := begun_of_atStart hstart
  have hp := (ph_of_atStart hstart).trans (congrArg firstPhase hd)
  by_cases hc : blockCheck s = .success
  · have hw := le_64_of_legal (hlegal (blockCheck_eq_success.mp hc).1)
    obtain rfl | rfl := hi
    · rw [exec_encb_ok hc, referencePieces, if_pos hc, encbPieces_eq hw hp hb hd hc]
    · rw [exec_decb_ok hc, referencePieces, if_pos hc, decbPieces_eq hw hp hb hd hc]
  · obtain rfl | rfl := hi
    · rw [exec_encb_error rfl hc, referencePieces, if_neg hc, ← enginePiece_block_fails (.inl hp) hb hc]
      rfl
    · rw [exec_decb_error rfl hc, referencePieces, if_neg hc, ← enginePiece_block_fails (.inr hp) hb hc]
      rfl

end

end Sys2Proof.Machine
end

section
/-! SUPPORT. ENCS and DECS block by block, and the statement on them made piece by piece (44_stream.md R180, R184,
R187). -/

namespace Sys2Proof.Machine

/-! ### Where a stream command stands -/

/-- `u` is `s` with the message buffer `mem`, the sequencer at block `q` of a stream command under way. -/
def StreamFrame (s : State) (mem : Memory) (q : Nat) (u : State) : Prop :=
  u = { s with
    mem := mem, blk := BitVec.ofNat 11 q, begun := true, a := u.a, b := u.b, k := u.k, rc := u.rc, ph := u.ph }

/-- A stream command of `nb` blocks stands before block `q`, or, after the last one, before its completion. -/
structure AtBlock (s : State) (nb : Nat) (mem : Memory) (q : Nat) (u : State) : Prop where
  frame : StreamFrame s mem q u
  ended : q = nb → u.ph = .finish
  next  : q ≠ nb → u.ph = s.ph ∧ u.k = 0

/-- The state with the sub-step of a stream's block at the store (log entry 5). -/
def atStore (s : State) : State := { s with k := 2 }

section
variable {s u : State} {mem : Memory} {q nb : Nat}

theorem StreamFrame.withK (h : StreamFrame s mem q u) (k : BitVec 11) : StreamFrame s mem q { u with k := k } := by
  unfold StreamFrame
  exact congrArg (fun v : State => { v with k := k }) h

theorem StreamFrame.blk (h : StreamFrame s mem q u) (hq : q < 1024) : u.blk.toNat = q :=
  (congrArg (fun v : State => v.blk.toNat) h).trans (toNat_counter (by omega))

/-- What the pieces of a stream command read beside memory and the working registers. -/
theorem StreamFrame.reads (h : StreamFrame s mem q u) :
    u.begun = true ∧ u.er = s.er ∧ wordWidth u = wordWidth s ∧ encsBlocks u = encsBlocks s ∧
      decsBlocks u = decsBlocks s ∧ encryptBlock u = encryptBlock s ∧ decryptBlock u = decryptBlock s := by
  unfold StreamFrame at h
  rw [h]
  exact ⟨rfl, rfl, rfl, rfl, rfl, rfl, rfl⟩

theorem StreamFrame.block (h : StreamFrame s mem q u) (hq : q < 1024) :
    mbufBlock u u.mem u.blk.toNat = mbufBlock s mem q := by
  rw [h.blk hq]
  exact (congrArg (fun v : State => mbufBlock v v.mem q) h).trans rfl

/-- The store of block `q` leads to the next block, or past the last one to the completion. -/
theorem StreamFrame.store (h : StreamFrame s mem q u) (hp : u.ph = s.ph) (hq : q < nb) (hnb : nb ≤ 1024)
    (hw : wordWidth u ≤ 64) (ab : BitVec (wordWidth u) × BitVec (wordWidth u)) (rc : Nat) :
    AtBlock s nb (memWriteBytes mem (mbufBlockAddr s q) (blockOut ab)) (q + 1)
      (streamStore nb (atStore (working u ab rc))) := by
  have blk : (atStore (working u ab rc)).blk.toNat = q := h.blk (by omega)
  have addr : mbufBlockAddr (atStore (working u ab rc)) q = mbufBlockAddr s q :=
    (congrArg (fun v => mbufBlockAddr v q) h).trans rfl
  have hmem : (atStore (working u ab rc)).mem = mem := congrArg State.mem h
  have hh : halves (atStore (working u ab rc)) = ab := halves_working hw ab rc
  have frame : StreamFrame s (memWriteBytes mem (mbufBlockAddr s q) (blockOut ab)) (q + 1)
      (storedBlock (atStore (working u ab rc))) := by
    simp only [storedBlock, blk, hmem, addr, hh]
    exact (congrArg (fun v : State => { v with
      mem := memWriteBytes mem (mbufBlockAddr s q) (blockOut ab), blk := BitVec.ofNat 11 (q + 1), k := 0
      a := toLong ab.1, b := toLong ab.2, rc := BitVec.ofNat 9 rc }) h).trans rfl
  have cases := streamStore_cases (atStore (working u ab rc)) nb
  rw [blk] at cases
  obtain ⟨hlast, ht⟩ | ⟨hne, ht⟩ := cases <;> rw [ht]
  · exact ⟨congrArg atFinish frame, fun _ => rfl, fun hne => absurd hlast hne⟩
  · exact ⟨frame, fun hlast => absurd hlast hne, fun _ => ⟨hp, rfl⟩⟩

/-- Blocks 0 to `n - 1`, one after another. -/
theorem AtBlock.blocks {f : List Byte → List Byte} {pieces : Nat} (h : AtBlock s nb mem 0 u)
    (block : ∀ {m q v}, AtBlock s nb m q v → q < nb →
      AtBlock s nb (transformBlock s f m q) (q + 1) (enginePieces pieces v)) {n : Nat} (hn : n ≤ nb) :
    AtBlock s nb (transformBlocks s f n mem) n (enginePieces (n * pieces) u) := by
  induction n with
  | zero => rw [Nat.zero_mul]; exact h
  | succ n ih =>
    rw [Nat.succ_mul, enginePieces_add]
    exact block (ih (by omega)) hn

theorem streamBegin_atBlock (nb : Nat) (m : Memory) (s : State) : AtBlock s nb m 0 (streamBegin nb m s) := by
  obtain ⟨hnb, ht⟩ | ⟨hnb, ht⟩ := streamBegin_cases s nb m <;> rw [ht]
  · exact ⟨rfl, fun _ => rfl, fun h => absurd hnb.symm h⟩
  · exact ⟨rfl, fun h => absurd h.symm hnb, fun _ => ⟨rfl, rfl⟩⟩

/-! ### One block -/

theorem enginePiece_streamEnc_load (hp : u.ph = .streamEnc) (hb : u.begun = true) (hk : u.k = 0) :
    enginePiece u = working { u with k := 1 } (blockIn (wordWidth u) (mbufBlock u u.mem u.blk.toNat)) 0 := by
  simp only [enginePiece, hp, streamEncPiece, hb, Bool.true_eq_false, if_false, hk, if_true]
  rfl

theorem enginePiece_streamDec_load (hp : u.ph = .streamDec) (hb : u.begun = true) (hk : u.k = 0) :
    enginePiece u =
      working { u with k := 1 } (blockIn (wordWidth u) (mbufBlock u u.mem u.blk.toNat)) u.er.toNat := by
  simp only [enginePiece, hp, streamDecPiece, hb, Bool.true_eq_false, if_false, hk, if_true, setWidth_er]
  rfl

theorem enginePiece_streamEnc_round (hp : u.ph = .streamEnc) (hb : u.begun = true) (hk : u.k = 1)
    (ab : BitVec (wordWidth u) × BitVec (wordWidth u)) {k : Nat} (hlt : k < 512) :
    enginePiece (working u ab k) =
      if k = u.er.toNat then atStore (encRoundPiece (working u ab k)) else encRoundPiece (working u ab k) := by
  have rc : (working u ab k).rc.toNat = k := toNat_counter hlt
  have hp' : (working u ab k).ph = .streamEnc := hp
  have hb' : (working u ab k).begun = true := hb
  have hk' : (working u ab k).k = 1 := hk
  simp only [enginePiece, hp', streamEncPiece, hb', Bool.true_eq_false, if_false, hk', if_true, rc]
  rfl

theorem enginePiece_streamDec_round (hp : u.ph = .streamDec) (hb : u.begun = true) (hk : u.k = 1)
    (ab : BitVec (wordWidth u) × BitVec (wordWidth u)) {k : Nat} (hlt : k < 512) :
    enginePiece (working u ab k) =
      if k = 0 then atStore (decRoundPiece (working u ab k)) else decRoundPiece (working u ab k) := by
  have rc : (working u ab k).rc = 0 ↔ k = 0 := ofNat_eq_zero_iff hlt
  have hp' : (working u ab k).ph = .streamDec := hp
  have hb' : (working u ab k).begun = true := hb
  have hk' : (working u ab k).k = 1 := hk
  simp only [enginePiece, hp', streamDecPiece, hb', Bool.true_eq_false, if_false, hk', if_true, rc]
  rfl

theorem enginePiece_streamEnc_store (hp : u.ph = .streamEnc) (hb : u.begun = true) :
    enginePiece (atStore u) = streamStore (encsBlocks u) (atStore u) := by
  have hp' : (atStore u).ph = .streamEnc := hp
  have hb' : (atStore u).begun = true := hb
  simp only [enginePiece, hp', streamEncPiece, hb', Bool.true_eq_false, if_false]
  rfl

theorem enginePiece_streamDec_store (hp : u.ph = .streamDec) (hb : u.begun = true) :
    enginePiece (atStore u) = streamStore (decsBlocks u) (atStore u) := by
  have hp' : (atStore u).ph = .streamDec := hp
  have hb' : (atStore u).begun = true := hb
  simp only [enginePiece, hp', streamDecPiece, hb', Bool.true_eq_false, if_false]
  rfl

theorem enginePieces_streamEnc (hw : wordWidth u ≤ 64) (hp : u.ph = .streamEnc) (hb : u.begun = true) (hk : u.k = 1)
    (ab : BitVec (wordWidth u) × BitVec (wordWidth u)) :
    enginePieces (u.er.toNat + 2) (working u ab 0) = streamStore (encsBlocks u)
      (atStore (working u (encipher (scheduleWord (wordWidth u) u.sram) u.er.toNat ab) (u.er.toNat + 1))) := by
  have her := er_lt u
  rw [enginePieces_succ, enginePieces_encipher hw ?round ?last ab]
  · exact enginePiece_streamEnc_store (u := working u _ _) hp hb
  case round => exact fun ab k hlt => (enginePiece_streamEnc_round hp hb hk ab (by omega)).trans (if_neg hlt.ne)
  case last => exact fun ab => (enginePiece_streamEnc_round hp hb hk ab (by omega)).trans (if_pos rfl)

theorem enginePieces_streamDec (hw : wordWidth u ≤ 64) (hp : u.ph = .streamDec) (hb : u.begun = true) (hk : u.k = 1)
    (ab : BitVec (wordWidth u) × BitVec (wordWidth u)) :
    enginePieces (u.er.toNat + 2) (working u ab u.er.toNat) = streamStore (decsBlocks u)
      (atStore (working u (decipher (scheduleWord (wordWidth u) u.sram) u.er.toNat ab) 0)) := by
  have her := er_lt u
  rw [enginePieces_succ, enginePieces_decipher hw ?round ?last le_rfl ab]
  · exact enginePiece_streamDec_store (u := working u _ _) hp hb
  case round =>
    exact fun ab k hlt => (enginePiece_streamDec_round hp hb hk ab (by omega)).trans (if_neg (Nat.succ_ne_zero k))
  case last => exact fun ab => (enginePiece_streamDec_round hp hb hk ab (by omega)).trans (if_pos rfl)

/-- The pieces of one block of ENCS are `transform_block(E, q)`. -/
theorem AtBlock.encsBlock (h : AtBlock s (encsBlocks s) mem q u) (hq : q < encsBlocks s) (hp : s.ph = .streamEnc)
    (hnb : encsBlocks s ≤ 1024) (hw : wordWidth s ≤ 64) :
    AtBlock s (encsBlocks s) (transformBlock s (encryptBlock s) mem q) (q + 1) (enginePieces (s.er.toNat + 3) u) := by
  obtain ⟨hph, hk⟩ := h.next hq.ne
  have frame := h.frame
  have hp' : u.ph = .streamEnc := hph.trans hp
  obtain ⟨hb, er, width, count, _, cipher, _⟩ := frame.reads
  have hw' : wordWidth u ≤ 64 := width.trans_le hw
  have pieces : enginePieces (u.er.toNat + 3) u = _ :=
    (congrArg (enginePieces (u.er.toNat + 2)) (enginePiece_streamEnc_load hp' hb hk)).trans
      (enginePieces_streamEnc (u := { u with k := 1 }) hw' hp' hb rfl _)
  rw [← er, pieces, ← cipher, transformBlock, ← frame.block (by omega), ← count]
  exact (frame.withK 1).store hph (count ▸ hq) (count ▸ hnb) hw' _ _

/-- The pieces of one block of DECS are `transform_block(D, q)`. -/
theorem AtBlock.decsBlock (h : AtBlock s (decsBlocks s) mem q u) (hq : q < decsBlocks s) (hp : s.ph = .streamDec)
    (hnb : decsBlocks s ≤ 1024) (hw : wordWidth s ≤ 64) :
    AtBlock s (decsBlocks s) (transformBlock s (decryptBlock s) mem q) (q + 1) (enginePieces (s.er.toNat + 3) u) := by
  obtain ⟨hph, hk⟩ := h.next hq.ne
  have frame := h.frame
  have hp' : u.ph = .streamDec := hph.trans hp
  obtain ⟨hb, er, width, _, count, _, cipher⟩ := frame.reads
  have hw' : wordWidth u ≤ 64 := width.trans_le hw
  have pieces : enginePieces (u.er.toNat + 3) u = _ :=
    (congrArg (enginePieces (u.er.toNat + 2)) (enginePiece_streamDec_load hp' hb hk)).trans
      (enginePieces_streamDec (u := { u with k := 1 }) hw' hp' hb rfl _)
  rw [← er, pieces, ← cipher, transformBlock, ← frame.block (by omega), ← count]
  exact (frame.withK 1).store hph (count ▸ hq) (count ▸ hnb) hw' _ _

/-! ### The whole command -/

/-- The last piece commits what the whole command commits: a completion clears the working registers. -/
theorem AtBlock.encsFinish (h : AtBlock s nb mem nb u) (hd : decodeWord s.opr = .command .encs) :
    enginePiece u = commitStream (encsBlocks s * blockLen (wordWidth s)) { s with mem := mem } := by
  have hd' : decodeWord u.opr = .command .encs := (congrArg (fun v : State => decodeWord v.opr) h.frame).trans hd
  simp only [enginePiece, h.ended rfl, finishPiece, hd']
  exact (congrArg (fun v => commitStream (encsBlocks v * blockLen (wordWidth v)) v) h.frame).trans rfl

theorem AtBlock.decsFinish {more : Bool} (h : AtBlock s nb mem nb u)
    (hd : decodeWord s.opr = .command (.decs more)) :
    enginePiece u = commitStream (decsOutLen more s mem) { s with mem := mem } := by
  have hd' : decodeWord u.opr = .command (.decs more) :=
    (congrArg (fun v : State => decodeWord v.opr) h.frame).trans hd
  simp only [enginePiece, h.ended rfl, finishPiece, hd']
  exact (congrArg (fun v : State => commitStream (decsOutLen more v v.mem) v) h.frame).trans rfl

theorem enginePiece_streamEnc_begin (hp : s.ph = .streamEnc) (hb : s.begun = false) :
    enginePiece s =
      if streamCheck s = .success then streamBegin (encsBlocks s) (encsPadded s) s
      else completeWith (streamCheck s) s := by
  simp only [enginePiece, hp, streamEncPiece, hb, if_true]
  cases streamCheck s <;> rfl

theorem enginePiece_streamDec_begin (hp : s.ph = .streamDec) (hb : s.begun = false) :
    enginePiece s =
      if streamCheck s = .success then streamBegin (decsBlocks s) (decsPadded s) s
      else completeWith (streamCheck s) s := by
  simp only [enginePiece, hp, streamDecPiece, hb, if_true]
  cases streamCheck s <;> rfl

/-- The pieces of a stream command, from those of its start, of one block and of its completion. -/
theorem streamPieces_eq {f : List Byte → List Byte} {pieces : Nat} {t : State}
    (start : enginePiece s = streamBegin nb mem s)
    (block : ∀ {m q v}, AtBlock s nb m q v → q < nb →
      AtBlock s nb (transformBlock s f m q) (q + 1) (enginePieces pieces v))
    (finish : ∀ {v}, AtBlock s nb (transformBlocks s f nb mem) nb v → enginePiece v = t) :
    enginePieces (nb * pieces + 2) s = t := by
  rw [enginePieces_succ, enginePieces, start]
  exact finish ((streamBegin_atBlock nb mem s).blocks block le_rfl)

end

/-- Settles O44: each block's pieces are `transform_block`, and the last piece commits what the command commits. -/
theorem streamPiecesReachTheCommand : Obligations.StreamPiecesReachTheCommand := by
  intro s i hi hd hstart hlegal
  have hb := begun_of_atStart hstart
  have hp := (ph_of_atStart hstart).trans (congrArg firstPhase hd)
  by_cases hc : streamCheck s = .success
  · obtain ⟨hkv, hm⟩ := streamCheck_eq_success.mp hc
    have hw := le_64_of_legal (hlegal hkv)
    obtain rfl | ⟨more, rfl⟩ := hi
    · have hnb := blocks_le (hlegal hkv) (encsBlocks_bounds (hlegal hkv) hm).2.1
      rw [exec_encs_ok hc, referencePieces, if_pos hc]
      exact congrArg _ (streamPieces_eq ((enginePiece_streamEnc_begin hp hb).trans (if_pos hc))
        (fun h hq => h.encsBlock hq hp hnb hw) fun h => h.encsFinish hd).symm
    · have hnb := blocks_le (hlegal hkv) (decsBlocks_bounds (hlegal hkv) hm)
      rw [exec_decs_ok hc, referencePieces, if_pos hc]
      exact congrArg _ (streamPieces_eq ((enginePiece_streamDec_begin hp hb).trans (if_pos hc))
        (fun h hq => h.decsBlock hq hp hnb hw) fun h => h.decsFinish hd).symm
  · obtain rfl | ⟨more, rfl⟩ := hi
    · rw [exec_encs_error rfl hc, referencePieces, if_neg hc]
      exact congrArg _ ((enginePiece_streamEnc_begin hp hb).trans (if_neg hc)).symm
    · rw [exec_decs_error rfl hc, referencePieces, if_neg hc]
      exact congrArg _ ((enginePiece_streamDec_begin hp hb).trans (if_neg hc)).symm

end Sys2Proof.Machine
end

section
/-! SUPPORT. KEYSETUP phase by phase: the internal RAMs as lists of words, alignment, expansion and mixing, and the
statement on KEYSETUP made piece by piece (42_key_schedule.md R145 to R148). -/

namespace Sys2Proof.Machine

/-! ### The internal RAMs as lists of words -/

section
variable {w : Nat} {ram : EntryRam} {ws : List (BitVec w)}

/-- The first entries of the RAM are these words. -/
def RamHolds (ram : EntryRam) (ws : List (BitVec w)) : Prop :=
  ∀ x, x < ws.length → cellFind x ram = some (toLong (ws.getD x 0))

theorem cellSetFrom_append {α : Type} (x : Nat) (vs : List α) (v : α) (m : List (Nat × α)) :
    cellSetFrom x (vs ++ [v]) m = cellSet (x + vs.length) v (cellSetFrom x vs m) := by
  induction vs generalizing x m with
  | nil => rfl
  | cons u vs ih =>
    rw [List.cons_append, cellSetFrom, ih, List.length_cons, cellSetFrom, Nat.add_right_comm, Nat.add_assoc]

/-- Writing the entry after the last word stores one word more. -/
theorem storeSchedule_append (ws : List (BitVec w)) (v : BitVec w) (ram : EntryRam) :
    storeSchedule (ws ++ [v]) ram = cellSet ws.length (toLong v) (storeSchedule ws ram) := by
  simp only [storeSchedule, List.map_append, List.map_cons, List.map_nil, cellSetFrom_append, List.length_map,
    Nat.zero_add]

theorem cellFind_storeSchedule (ws : List (BitVec w)) (ram : EntryRam) (x : Nat) :
    cellFind x (storeSchedule ws ram) = if x < ws.length then some (toLong (ws.getD x 0)) else cellFind x ram := by
  rw [storeSchedule, cellFind_cellSetFrom]
  by_cases hx : x < ws.length
  · rw [if_pos (by simpa using hx), if_pos hx]
    simp [hx]
  · rw [if_neg (by simpa using hx), if_neg hx]

theorem ramHolds_storeSchedule (ws : List (BitVec w)) (ram : EntryRam) : RamHolds (storeSchedule ws ram) ws :=
  fun x hx => (cellFind_storeSchedule ws ram x).trans (if_pos hx)

theorem getD_set (ws : List (BitVec w)) (x y : Nat) (v : BitVec w) (hx : x < ws.length) :
    (ws.set x v).getD y 0 = if y = x then v else ws.getD y 0 := by
  by_cases h : y = x
  · subst h; simp [hx]
  · simp [h, List.getElem?_set_ne (Ne.symm h)]

theorem RamHolds.set (h : RamHolds ram ws) {x : Nat} (hx : x < ws.length) (v : BitVec w) :
    RamHolds (cellSet x (toLong v) ram) (ws.set x v) := by
  intro y hy
  rw [List.length_set] at hy
  rw [cellFind_cellSet, getD_set ws x y v hx]
  split
  · rfl
  · exact h y hy

/-- Writing the entry of a word replaces the word, where the entries are listed by rising index. -/
theorem cellSet_storeSchedule (hr : cellsRising ram = true) {x : Nat} (hx : x < ws.length) (v : BitVec w) :
    cellSet x (toLong v) (storeSchedule ws ram) = storeSchedule (ws.set x v) ram := by
  refine cells_ext (cellsRising_cellSet _ _ (cellsRising_cellSetFrom _ _ hr)) (cellsRising_cellSetFrom _ _ hr)
    fun y => ?_
  rw [cellFind_cellSet, cellFind_storeSchedule, cellFind_storeSchedule, List.length_set, getD_set ws x y v hx]
  by_cases hy : y = x
  · rw [if_pos hy, if_pos hy, if_pos (hy ▸ hx)]
  · rw [if_neg hy, if_neg hy]

theorem RamHolds.scheduleWord (h : RamHolds ram ws) (hw : w ≤ 64) {x : Nat} (hx : x < ws.length) :
    scheduleWord w ram x = ws.getD x 0 := by
  simp only [Machine.scheduleWord, h x hx, ofLong_toLong hw]

theorem RamHolds.alignedWord (h : RamHolds ram ws) (hw : w ≤ 64) {x : Nat} (hx : x < ws.length) :
    alignedWord w ram x = ws.getD x 0 := by
  simp only [Machine.alignedWord, h x hx, ofLong_toLong hw]

end

/-! ### A phase that counts -/

/-- Pieces that go through the states of a phase one by one, the last of them leaving it. -/
theorem enginePieces_phase {st : Nat → State} {leave : State → State} {n : Nat} (hn : 1 ≤ n)
    (piece : ∀ x, x < n → enginePiece (st x) = if x + 1 = n then leave (st (x + 1)) else st (x + 1)) :
    enginePieces n (st 0) = leave (st n) := by
  have upto : ∀ x, x < n → enginePieces x (st 0) = st x := by
    intro x hx
    induction x with
    | zero => rfl
    | succ x ih => rw [enginePieces_succ, ih (by omega), piece x (by omega), if_neg (by omega)]
  obtain ⟨m, rfl⟩ := Nat.exists_eq_add_of_le' hn
  rw [enginePieces_succ, upto m (by omega), piece m (by omega), if_pos rfl]

section
variable {s : State} {p : KeyParams}

/-! ### Alignment (42_key_schedule.md R145) -/

/-- The first `n` words of the aligned key are in `L`. -/
def aligning (s : State) (p : KeyParams) (n : Nat) : State :=
  { s with
    ph := .setupAlign, begun := true, k := BitVec.ofNat 11 n
    lram := storeSchedule ((List.range n).map (alignWord p.w (keyBytes s p.b))) s.lram }

/-- The phase SETUP_ALIGN over (R145). -/
def toExpand (s : State) : State := { s with ph := .setupExpand, k := 0 }

theorem enginePiece_setupAlign_begin (hp : s.ph = .setupAlign) (hb : s.begun = false)
    (hk : keysetupParams s = .ok p) : enginePiece s = aligning s p 0 := by
  simp only [enginePiece, hp, setupAlignPiece, hk, hb, if_true]
  rfl

theorem enginePiece_aligning (hk : keysetupParams s = .ok p) {n : Nat}
    (hn : n < alignedLen p.w p.b) :
    enginePiece (aligning s p n) =
      if n + 1 = alignedLen p.w p.b then toExpand (aligning s p (n + 1)) else aligning s p (n + 1) := by
  obtain ⟨_, hc, _⟩ := keysetup_sizes hk
  have hp' : (aligning s p n).ph = .setupAlign := rfl
  have hk' : keysetupParams (aligning s p n) = .ok p := hk
  have hb' : (aligning s p n).begun = true := rfl
  have count : (aligning s p n).k.toNat = n := toNat_counter (by omega)
  have entry : (aligning s p (n + 1)).lram =
      cellSet n (toLong (alignWord p.w (keyBytes (aligning s p n) p.b) n)) (aligning s p n).lram := by
    simp only [aligning, List.range_succ, List.map_append, List.map_cons, List.map_nil, storeSchedule_append,
      List.length_map, List.length_range]
    rfl
  simp only [enginePiece, hp', setupAlignPiece, hk', hb', Bool.true_eq_false, if_false, count, ← entry]
  rfl

/-! ### Expansion (42_key_schedule.md R138, R146) -/

/-- The recurrence of R138. -/
theorem expandWord_succ (w p q x : Nat) :
    expandWord w p q (x + 1) = expandWord w p q x + BitVec.ofNat w q := by
  simp only [expandWord, BitVec.ofNat_add, BitVec.add_mul, BitVec.add_assoc]
  congr 2
  simp

/-- The first `n` entries of the expanded table are in `S`. -/
def expanding (s : State) (p : KeyParams) (n : Nat) : State :=
  { s with
    ph := .setupExpand, k := BitVec.ofNat 11 n
    sram := storeSchedule ((List.range n).map (expandWord p.w p.p p.q)) s.sram }

/-- The phase SETUP_EXPAND over, the accumulators and cursors at 0 (R139, R146). -/
def toMix (s : State) : State := { s with ph := .setupMix, k := 0, a := 0, b := 0, i := 0, j := 0 }

theorem expandEntry_expanding (hw : p.w ≤ 64) {n : Nat} (hn : n < 2048) :
    expandEntry p (expanding s p n) = expandWord p.w p.p p.q n := by
  have count : (expanding s p n).k.toNat = n := toNat_counter hn
  rw [expandEntry, count]
  cases n with
  | zero => simp [expandWord]
  | succ n =>
    have word : scheduleWord p.w (expanding s p (n + 1)).sram n = expandWord p.w p.p p.q n :=
      ((ramHolds_storeSchedule _ s.sram).scheduleWord hw (by simp)).trans (by simp)
    rw [if_neg n.succ_ne_zero, Nat.add_sub_cancel, word, expandWord_succ]

theorem enginePiece_expanding (hk : keysetupParams s = .ok p) {n : Nat}
    (hn : n < scheduleLen p.r) :
    enginePiece (expanding s p n) =
      if n + 1 = scheduleLen p.r then toMix (expanding s p (n + 1)) else expanding s p (n + 1) := by
  obtain ⟨_, _, _, ht, _⟩ := keysetup_sizes hk
  obtain ⟨hw, _⟩ := keysetupParams_ok hk
  have hp' : (expanding s p n).ph = .setupExpand := rfl
  have hk' : keysetupParams (expanding s p n) = .ok p := hk
  have count : (expanding s p n).k.toNat = n := toNat_counter (by omega)
  have entry : (expanding s p (n + 1)).sram =
      cellSet n (toLong (expandEntry p (expanding s p n))) (expanding s p n).sram := by
    rw [expandEntry_expanding (le_64_of_legal hw) (by omega)]
    simp only [expanding, List.range_succ, List.map_append, List.map_cons, List.map_nil, storeSchedule_append,
      List.length_map, List.length_range]
  simp only [enginePiece, hp', setupExpandPiece, hk']
  rw [expandEntry] at entry
  simp only [count] at entry ⊢
  rw [← entry]
  rfl

/-! ### Mixing (42_key_schedule.md R140, R147) -/

/-- The tables have `t` and `c` words and the cursors lie in them. -/
structure Mix.InRange {w : Nat} (m : Mix w) (t c : Nat) : Prop where
  sLength : m.s.length = t
  lLength : m.l.length = c
  i_lt    : m.i < t
  j_lt    : m.j < c

theorem Mix.InRange.step {w t c : Nat} {m : Mix w} (h : m.InRange t c) : (mixStep m).InRange t c where
  sLength := List.length_set.trans h.sLength
  lLength := List.length_set.trans h.lLength
  i_lt := (Nat.mod_lt _ (by rw [h.sLength]; exact h.i_lt.pos)).trans_eq h.sLength
  j_lt := (Nat.mod_lt _ (by rw [h.lLength]; exact h.j_lt.pos)).trans_eq h.lLength

/-- `u` is the KEYSETUP of `s` before mixing step `n`, its tables, accumulators and cursors those of `m`. -/
structure MixingAt (s : State) (p : KeyParams) (m : Mix p.w) (n : Nat) (u : State) : Prop where
  frame : u = { s with
    ph := .setupMix, begun := true, k := BitVec.ofNat 11 n, sram := storeSchedule m.s s.sram, lram := u.lram
    a := toLong m.a, b := toLong m.b, i := BitVec.ofNat 9 m.i, j := BitVec.ofNat 7 m.j }
  holds : RamHolds u.lram m.l
  range : m.InRange (scheduleLen p.r) (alignedLen p.w p.b)

/-- The phase SETUP_MIX over (R147). -/
def mixEnd (s : State) : State := { s with ph := .finish, k := 0 }

theorem enginePiece_setupMix (hp : s.ph = .setupMix) (hk : keysetupParams s = .ok p) :
    enginePiece s =
      if s.k.toNat + 1 = mixCount (alignedLen p.w p.b) (scheduleLen p.r) then mixEnd (mixed p s) else mixed p s := by
  simp only [enginePiece, hp, setupMixPiece, hk, mixEnd, mixed, mixPair]

variable {u : State} {m : Mix p.w} {n : Nat}

section
variable (h : MixingAt s p m n u)
include h

theorem MixingAt.params (hk : keysetupParams s = .ok p) : keysetupParams u = .ok p :=
  (congrArg keysetupParams h.frame).trans hk

theorem MixingAt.cursors (hk : keysetupParams s = .ok p) : u.i.toNat = m.i ∧ u.j.toNat = m.j := by
  obtain ⟨_, hc, _, ht, _⟩ := keysetup_sizes hk
  obtain ⟨_, _, hi, hj⟩ := h.range
  exact ⟨(congrArg (fun v : State => v.i.toNat) h.frame).trans (toNat_counter (by omega)),
    (congrArg (fun v : State => v.j.toNat) h.frame).trans (toNat_counter (by omega))⟩

/-- The words a piece computes are those of the mixing step. -/
theorem MixingAt.pair (hk : keysetupParams s = .ok p) : mixPair p u = ((mixStep m).a, (mixStep m).b) := by
  obtain ⟨hi, hj⟩ := h.cursors hk
  have hw := le_64_of_legal (keysetupParams_ok hk).1
  have hs : scheduleWord p.w u.sram m.i = m.s.getD m.i 0 := by
    rw [show u.sram = storeSchedule m.s s.sram from congrArg State.sram h.frame]
    exact (ramHolds_storeSchedule m.s s.sram).scheduleWord hw (h.range.i_lt.trans_eq h.range.sLength.symm)
  have hl : alignedWord p.w u.lram m.j = m.l.getD m.j 0 :=
    h.holds.alignedWord hw (h.range.j_lt.trans_eq h.range.lLength.symm)
  have ha : ofLong p.w u.a = m.a := (congrArg (fun v : State => ofLong p.w v.a) h.frame).trans (ofLong_toLong hw m.a)
  have hb : ofLong p.w u.b = m.b := (congrArg (fun v : State => ofLong p.w v.b) h.frame).trans (ofLong_toLong hw m.b)
  rw [mixPair, hi, hj, hs, hl, ha, hb]
  rfl

/-- A piece makes the mixing step. -/
theorem MixingAt.mixed (hk : keysetupParams s = .ok p) (hr : cellsRising s.sram = true) (hn : n < 2048) :
    MixingAt s p (mixStep m) (n + 1) (mixed p u) := by
  obtain ⟨hi, hj⟩ := h.cursors hk
  have count : u.k.toNat = n := (congrArg (fun v : State => v.k.toNat) h.frame).trans (toNat_counter hn)
  have sram : u.sram = storeSchedule m.s s.sram := congrArg State.sram h.frame
  have hs : cellSet m.i (toLong (mixStep m).a) (storeSchedule m.s s.sram) = storeSchedule (mixStep m).s s.sram :=
    cellSet_storeSchedule hr (h.range.i_lt.trans_eq h.range.sLength.symm) _
  refine ⟨?frame, ?holds, h.range.step⟩
  case frame =>
    simp only [Machine.mixed, h.pair hk, hi, hj, count, sram, hs, ← h.range.sLength, ← h.range.lLength]
    exact (congrArg (fun v : State => { v with
      sram := storeSchedule (mixStep m).s s.sram, lram := cellSet m.j (toLong (mixStep m).b) u.lram
      a := toLong (mixStep m).a, b := toLong (mixStep m).b, i := BitVec.ofNat 9 (mixStep m).i
      j := BitVec.ofNat 7 (mixStep m).j, k := BitVec.ofNat 11 (n + 1) }) h.frame).trans rfl
  case holds =>
    simp only [Machine.mixed, h.pair hk, hj]
    exact h.holds.set (h.range.j_lt.trans_eq h.range.lLength.symm) _

theorem MixingAt.piece (hk : keysetupParams s = .ok p) (hn : n < 2048) :
    enginePiece u =
      if n + 1 = mixCount (alignedLen p.w p.b) (scheduleLen p.r) then mixEnd (Machine.mixed p u)
      else Machine.mixed p u := by
  have count : u.k.toNat = n := (congrArg (fun v : State => v.k.toNat) h.frame).trans (toNat_counter hn)
  rw [enginePiece_setupMix (congrArg State.ph h.frame) (h.params hk), count]

end

/-- The mixing steps that are left end the phase with the tables mixed. -/
theorem MixingAt.rest (h : MixingAt s p m n u) (hk : keysetupParams s = .ok p) (hr : cellsRising s.sram = true)
    {left : Nat} (hn : n + (left + 1) = mixCount (alignedLen p.w p.b) (scheduleLen p.r)) :
    ∃ v, enginePieces (left + 1) u = mixEnd v ∧ MixingAt s p (mixSteps (left + 1) m) (n + (left + 1)) v := by
  obtain ⟨_, _, _, _, _, hmax⟩ := keysetup_sizes hk
  induction left generalizing m n u with
  | zero => exact ⟨_, (h.piece hk (by omega)).trans (if_pos hn), h.mixed hk hr (by omega)⟩
  | succ left ih =>
    have piece : enginePiece u = _ := (h.piece hk (by omega)).trans (if_neg (by omega))
    obtain ⟨v, hv, hend⟩ := ih (h.mixed hk hr (by omega)) (by omega)
    refine ⟨v, (congrArg (enginePieces (left + 1)) piece).trans hv, ?_⟩
    rwa [show n + (left + 1 + 1) = n + 1 + (left + 1) by omega]

/-! ### The whole command -/

/-- The state in which mixing starts: the key aligned in `L`, the expanded table in `S`. -/
def mixStart (s : State) (p : KeyParams) : State :=
  toMix (expanding (toExpand (aligning s p (alignedLen p.w p.b))) p (scheduleLen p.r))

/-- The tables that mixing starts from (R139). -/
def initialMix (s : State) (p : KeyParams) : Mix p.w :=
  { s := expand p.w p.p p.q p.r, l := align p.w (keyBytes s p.b), a := 0, b := 0, i := 0, j := 0 }

theorem length_align (w : Nat) (key : List Byte) : (align w key).length = alignedLen w key.length := by
  rw [align, List.length_map, List.length_range]

theorem length_expand (w p q r : Nat) : (expand w p q r).length = scheduleLen r := by
  rw [expand, List.length_map, List.length_range]

theorem length_keyBytes (s : State) (b : Nat) : (keyBytes s b).length = b := by
  rw [keyBytes, List.length_map, List.length_range]

theorem schedule_eq_mixSteps (s : State) (p : KeyParams) :
    schedule p.w p.p p.q p.r (keyBytes s p.b) =
      (mixSteps (mixCount (alignedLen p.w p.b) (scheduleLen p.r)) (initialMix s p)).s := by
  rw [schedule, mix, length_align, length_expand, length_keyBytes]
  rfl

theorem mixingAt_mixStart (hk : keysetupParams s = .ok p) : MixingAt s p (initialMix s p) 0 (mixStart s p) := by
  obtain ⟨hc, _, ht, _⟩ := keysetup_sizes hk
  have zero : toLong (0 : BitVec p.w) = 0 := BitVec.eq_of_toNat_eq (by simp [toLong])
  have aligned : align p.w (keyBytes s p.b) =
      (List.range (alignedLen p.w p.b)).map (alignWord p.w (keyBytes s p.b)) := by
    rw [align, length_keyBytes]
  refine ⟨?frame, ?holds, ⟨length_expand _ _ _ _, ?_, ht, hc⟩⟩
  case frame =>
    simp only [initialMix, zero, mixStart, toMix, expanding, toExpand, aligning, expand]
    rfl
  case holds =>
    simp only [initialMix, aligned]
    exact ramHolds_storeSchedule _ s.lram
  · exact (length_align _ _).trans (congrArg _ (length_keyBytes s p.b))

/-- The pieces of KEYSETUP up to the mixing: the checks, the alignment and the expansion. -/
theorem enginePieces_mixStart (hp : s.ph = .setupAlign) (hb : s.begun = false) (hk : keysetupParams s = .ok p) :
    enginePieces (1 + alignedLen p.w p.b + scheduleLen p.r) s = mixStart s p := by
  obtain ⟨hc, _, ht, _⟩ := keysetup_sizes hk
  rw [enginePieces_add, enginePieces_add, show enginePieces 1 s = _ from enginePiece_setupAlign_begin hp hb hk,
    enginePieces_phase hc fun x hx => enginePiece_aligning hk hx]
  exact enginePieces_phase (st := expanding (toExpand (aligning s p (alignedLen p.w p.b))) p) ht
    fun x hx => enginePiece_expanding (s := toExpand (aligning s p (alignedLen p.w p.b))) hk hx

/-- The last piece commits the schedule mixed; a completion clears the working registers, and `L` is unlisted. -/
theorem MixingAt.finish (h : MixingAt s p m n u) (hk : keysetupParams s = .ok p)
    (hd : decodeWord s.opr = .command .keysetup) :
    enginePiece (mixEnd u) = commitKeysetup p { s with sram := storeSchedule m.s s.sram } := by
  have hp : (mixEnd u).ph = .finish := rfl
  have hk' : keysetupParams (mixEnd u) = .ok p := h.params hk
  have hd' : decodeWord (mixEnd u).opr = .command .keysetup :=
    (congrArg (fun v : State => decodeWord v.opr) h.frame).trans hd
  simp only [enginePiece, hp, finishPiece, hd', hk']
  exact (congrArg (fun v => commitKeysetup p (mixEnd v)) h.frame).trans rfl

theorem keysetupPieces_eq (hd : decodeWord s.opr = .command .keysetup) (hstart : atStart s = true)
    (hr : cellsRising s.sram = true) (hk : keysetupParams s = .ok p) :
    enginePieces
        (alignedLen p.w p.b + scheduleLen p.r + mixCount (alignedLen p.w p.b) (scheduleLen p.r) + 2) s =
      commitKeysetup p
        { s with sram := storeSchedule (schedule p.w p.p p.q p.r (keyBytes s p.b)) s.sram } := by
  have hp : s.ph = .setupAlign := (ph_of_atStart hstart).trans (congrArg firstPhase hd)
  have start := enginePieces_mixStart hp (begun_of_atStart hstart) hk
  obtain ⟨_, _, _, _, hn, _⟩ := keysetup_sizes hk
  obtain ⟨left, hleft⟩ := Nat.exists_eq_add_of_le' hn
  obtain ⟨v, hv, hend⟩ := (mixingAt_mixStart hk).rest hk hr (left := left) (by omega)
  rw [schedule_eq_mixSteps, hleft, show alignedLen p.w p.b + scheduleLen p.r + (left + 1) + 2 =
    1 + alignedLen p.w p.b + scheduleLen p.r + (left + 1) + 1 by omega, enginePieces_succ, enginePieces_add, start, hv,
    hend.finish hk hd]

end

/-- Settles O43: the phases lead from the aligned key and the expanded table to the tables mixed, which the last piece
commits; a KEYSETUP that fails its checks completes at its first piece. -/
theorem keysetupPiecesReachTheCommand : Obligations.KeysetupPiecesReachTheCommand := by
  intro s hd hstart hr
  cases hk : keysetupParams s with
  | error e =>
    have hp : s.ph = .setupAlign := (ph_of_atStart hstart).trans (congrArg firstPhase hd)
    have piece : enginePiece s = completeWith e s := by
      simp only [enginePiece, hp, setupAlignPiece, hk, raiseError_eq]
    rw [exec_keysetup_error hk, ← piece]
    simp only [referencePieces, hk]
    rfl
  | ok p =>
    rw [exec_keysetup_ok hk, ← keysetupPieces_eq hd hstart hr hk]
    simp only [referencePieces, hk]

end Sys2Proof.Machine
end

section
/-! SUPPORT. How many pieces a command under way has left, and the statement that every command completes
(40_command_control.md R107, 70_reset_and_hazards.md R245). -/

namespace Sys2Proof.Machine

/-! ### The pieces left -/

/-- The pieces that a stream's block has left, at its sub-step `k` with `rounds` rounds to come. -/
def blockPieces (s : State) (rounds : Nat) : Nat :=
  if s.k = 0 then s.er.toNat + 3 else if s.k = 1 then rounds + 2 else 1

/-- The pieces that a stream of `nb` blocks has left before its completion: those of the blocks after this one, and
those of this one. -/
def streamPieces (s : State) (nb rounds : Nat) : Nat :=
  (nb - (s.blk.toNat + 1)) * (s.er.toNat + 3) + blockPieces s rounds

/-- The pieces that a command under way has left before the one that completes it, by the counts of R245. -/
def piecesLeft (s : State) : Nat :=
  match s.ph with
  | .idle => 0
  | .setupAlign =>
    match keysetupParams s with
    | .error _ => 0
    | .ok p => alignedLen p.w p.b - s.k.toNat + scheduleLen p.r + mixCount (alignedLen p.w p.b) (scheduleLen p.r)
  | .setupExpand =>
    match keysetupParams s with
    | .error _ => 0
    | .ok p => scheduleLen p.r - s.k.toNat + mixCount (alignedLen p.w p.b) (scheduleLen p.r)
  | .setupMix =>
    match keysetupParams s with
    | .error _ => 0
    | .ok p => mixCount (alignedLen p.w p.b) (scheduleLen p.r) - s.k.toNat
  | .blockEnc => s.er.toNat - s.rc.toNat + 1
  | .blockDec => s.rc.toNat + 1
  | .streamEnc => streamPieces s (encsBlocks s) (s.er.toNat - s.rc.toNat)
  | .streamDec => streamPieces s (decsBlocks s) s.rc.toNat
  | .finish => 0

section
variable {s t : State} {p : KeyParams} {x y z : Nat}

theorem piecesLeft_setupAlign (hp : s.ph = .setupAlign) (hk : keysetupParams s = .ok p) (hx : s.k.toNat = x) :
    piecesLeft s = alignedLen p.w p.b - x + scheduleLen p.r + mixCount (alignedLen p.w p.b) (scheduleLen p.r) := by
  simp only [piecesLeft, hp, hk, hx]

theorem piecesLeft_setupExpand (hp : s.ph = .setupExpand) (hk : keysetupParams s = .ok p) (hx : s.k.toNat = x) :
    piecesLeft s = scheduleLen p.r - x + mixCount (alignedLen p.w p.b) (scheduleLen p.r) := by
  simp only [piecesLeft, hp, hk, hx]

theorem piecesLeft_setupMix (hp : s.ph = .setupMix) (hk : keysetupParams s = .ok p) (hx : s.k.toNat = x) :
    piecesLeft s = mixCount (alignedLen p.w p.b) (scheduleLen p.r) - x := by
  simp only [piecesLeft, hp, hk, hx]

theorem piecesLeft_blockEnc (hp : s.ph = .blockEnc) (hx : s.rc.toNat = x) :
    piecesLeft s = s.er.toNat - x + 1 := by
  simp only [piecesLeft, hp, hx]

theorem piecesLeft_blockDec (hp : s.ph = .blockDec) (hx : s.rc.toNat = x) : piecesLeft s = x + 1 := by
  simp only [piecesLeft, hp, hx]

theorem piecesLeft_streamEnc (hp : s.ph = .streamEnc) (hy : s.blk.toNat = y) (hz : s.rc.toNat = z)
    (hx : blockPieces s (s.er.toNat - z) = x) :
    piecesLeft s = (encsBlocks s - (y + 1)) * (s.er.toNat + 3) + x := by
  simp only [piecesLeft, hp, streamPieces, hy, hz, hx]

theorem piecesLeft_streamDec (hp : s.ph = .streamDec) (hy : s.blk.toNat = y) (hz : s.rc.toNat = z)
    (hx : blockPieces s z = x) : piecesLeft s = (decsBlocks s - (y + 1)) * (s.er.toNat + 3) + x := by
  simp only [piecesLeft, hp, streamPieces, hy, hz, hx]

theorem blockPieces_load (hk : s.k = 0) (rounds : Nat) : blockPieces s rounds = s.er.toNat + 3 := if_pos hk

theorem blockPieces_round (hk : s.k = 1) (rounds : Nat) : blockPieces s rounds = rounds + 2 := by
  rw [blockPieces, if_neg (by rw [hk]; decide), if_pos hk]

theorem blockPieces_store (h0 : s.k ≠ 0) (h1 : s.k ≠ 1) (rounds : Nat) : blockPieces s rounds = 1 := by
  rw [blockPieces, if_neg h0, if_neg h1]

/-- The longest stream has 1024 blocks of 255 rounds (70_reset_and_hazards.md R245). -/
theorem streamPieces_le {nb rounds : Nat} (hnb : nb ≤ 1024) (hlt : s.blk.toNat < nb)
    (hr : s.k = 1 → rounds ≤ s.er.toNat) : streamPieces s nb rounds ≤ 264192 := by
  have her := er_lt s
  have block : blockPieces s rounds ≤ 258 := by
    unfold blockPieces
    split
    · omega
    · split
      next hk => have := hr hk; omega
      next => omega
  have blocks : (nb - (s.blk.toNat + 1)) * (s.er.toNat + 3) ≤ 1023 * 258 := Nat.mul_le_mul (by omega) (by omega)
  exact Nat.add_le_add blocks block

theorem piecesLeft_finish (hp : s.ph = .finish) : piecesLeft s = 0 := by simp only [piecesLeft, hp]

/-! ### A piece advances the command -/

/-- `t` is completed, or under way as `s` is with fewer pieces left. -/
def Advances (s t : State) : Prop :=
  Completed t.err t ∨ (t.busy = s.busy ∧ piecesLeft t < piecesLeft s)

theorem advances_completeWith (e : ErrorCode) (s u : State) : Advances s (completeWith e u) :=
  .inl ⟨rfl, rfl, rfl, rfl⟩

theorem advances_of_lt (hb : t.busy = s.busy) (ht : piecesLeft t = x) (hs : piecesLeft s = y) (h : x < y) :
    Advances s t := .inr ⟨hb, by rwa [ht, hs]⟩

/-- In its first phase a command that is not at its start has begun. -/
theorem begun_of_not_atStart (ha : atStart s = false) {i : Instr} (hd : decodeWord s.opr = .command i)
    (hp : s.ph = firstPhase (.command i)) : s.begun = true := by
  simpa [atStart, hd, hp] using ha

/-- The store of a block that is not the last leaves all the pieces of the next one. -/
theorem streamStore_advances {nb : Nat} (hlt : s.blk.toNat < nb) (hnb : nb ≤ 1024)
    (here : piecesLeft s = (nb - (s.blk.toNat + 1)) * (s.er.toNat + 3) + 1)
    (there : (storedBlock s).blk.toNat = s.blk.toNat + 1 →
      piecesLeft (storedBlock s) = (nb - (s.blk.toNat + 1 + 1)) * (s.er.toNat + 3) + (s.er.toNat + 3)) :
    Advances s (streamStore nb s) := by
  obtain ⟨_, ht⟩ | ⟨hne, ht⟩ := streamStore_cases s nb <;> rw [ht]
  · exact advances_of_lt rfl (piecesLeft_finish rfl) here (Nat.succ_pos _)
  · refine advances_of_lt rfl (there (toNat_counter (by omega))) here ?_
    rw [show nb - (s.blk.toNat + 1) = nb - (s.blk.toNat + 1 + 1) + 1 by omega, Nat.succ_mul]
    exact Nat.lt_succ_self _

section
variable (hq : sequencerSound s = true) (ha : atStart s = false)
include hq

theorem setupExpandPiece_advances (hp : s.ph = .setupExpand) : Advances s (setupExpandPiece s) := by
  obtain ⟨p', _, hk', hlt, _⟩ := sequencerSound_setupExpand_inv hq hp
  obtain ⟨e, _, ht⟩ | ⟨p, sram, hk, _, hcase⟩ := setupExpandPiece_cases s
  · rw [ht]; exact advances_completeWith e s s
  · obtain rfl : p = p' := Except.ok.inj (hk.symm.trans hk')
    obtain ⟨_, _, _, hT, _⟩ := keysetup_sizes hk
    have here := piecesLeft_setupExpand hp hk rfl
    obtain ⟨_, ht⟩ | ⟨_, ht⟩ := hcase <;> rw [ht]
    · exact advances_of_lt rfl (piecesLeft_setupMix rfl hk rfl) here (Nat.lt_of_le_of_lt (Nat.sub_le _ _) (by omega))
    · exact advances_of_lt rfl (piecesLeft_setupExpand hp hk (toNat_counter (by omega))) here (by omega)

theorem setupMixPiece_advances (hp : s.ph = .setupMix) : Advances s (setupMixPiece s) := by
  obtain ⟨p', _, hk', hlt, _⟩ := sequencerSound_setupMix_inv hq hp
  obtain ⟨e, _, ht⟩ | ⟨p, hk, hcase⟩ := setupMixPiece_cases s
  · rw [ht]; exact advances_completeWith e s s
  · obtain rfl : p = p' := Except.ok.inj (hk.symm.trans hk')
    obtain ⟨_, _, _, _, _, hN⟩ := keysetup_sizes hk
    have here := piecesLeft_setupMix hp hk rfl
    obtain ⟨_, ht⟩ | ⟨_, ht⟩ := hcase <;> rw [ht]
    · exact advances_of_lt rfl (piecesLeft_finish rfl) here (by omega)
    · exact advances_of_lt rfl (piecesLeft_setupMix hp hk (toNat_counter (by omega))) here (by omega)

include ha

theorem setupAlignPiece_advances (hp : s.ph = .setupAlign) : Advances s (setupAlignPiece s) := by
  obtain ⟨hd, hbegun⟩ := sequencerSound_setupAlign_inv hq hp
  have hb := begun_of_not_atStart ha hd hp
  obtain ⟨p', hk', hlt, _⟩ := hbegun hb
  obtain ⟨e, _, ht⟩ | ⟨p, hk, ⟨hb', _⟩ | ⟨_, lram, _, hcase⟩⟩ := setupAlignPiece_cases s
  · rw [ht]; exact advances_completeWith e s s
  · exact absurd hb (ne_true_of_eq_false hb')
  · obtain rfl : p = p' := Except.ok.inj (hk.symm.trans hk')
    obtain ⟨_, hC, _⟩ := keysetup_sizes hk
    have here := piecesLeft_setupAlign hp hk rfl
    obtain ⟨_, ht⟩ | ⟨_, ht⟩ := hcase <;> rw [ht]
    · refine advances_of_lt rfl (piecesLeft_setupExpand rfl hk rfl) here ?_
      exact Nat.add_lt_add_right (Nat.lt_of_le_of_lt (Nat.sub_le _ _) (by omega)) _
    · exact advances_of_lt rfl (piecesLeft_setupAlign hp hk (toNat_counter (by omega))) here (by omega)

theorem blockEncPiece_advances (hp : s.ph = .blockEnc) : Advances s (blockEncPiece s) := by
  obtain ⟨hd, hbegun⟩ := sequencerSound_blockEnc_inv hq hp
  have hb := begun_of_not_atStart ha hd hp
  obtain ⟨_, hr⟩ := hbegun hb
  have her := er_lt s
  have here := piecesLeft_blockEnc hp rfl
  obtain ⟨hb', _⟩ | ⟨hb', _⟩ | ⟨_, _, ht⟩ | ⟨_, hne, ht⟩ := blockEncPiece_cases s
  · exact absurd hb (ne_true_of_eq_false hb')
  · exact absurd hb (ne_true_of_eq_false hb')
  · rw [ht]; exact advances_of_lt rfl (piecesLeft_finish rfl) here (by omega)
  · rw [ht]
    refine advances_of_lt rfl (piecesLeft_blockEnc hp (toNat_counter (by omega))) here ?_
    show s.er.toNat - (s.rc.toNat + 1) + 1 < _
    omega

theorem blockDecPiece_advances (hp : s.ph = .blockDec) : Advances s (blockDecPiece s) := by
  obtain ⟨hd, hbegun⟩ := sequencerSound_blockDec_inv hq hp
  have hb := begun_of_not_atStart ha hd hp
  obtain ⟨_, hr⟩ := hbegun hb
  have her := er_lt s
  have here := piecesLeft_blockDec hp rfl
  obtain ⟨hb', _⟩ | ⟨hb', _⟩ | ⟨_, _, ht⟩ | ⟨_, hne, ht⟩ := blockDecPiece_cases s
  · exact absurd hb (ne_true_of_eq_false hb')
  · exact absurd hb (ne_true_of_eq_false hb')
  · rw [ht]; exact advances_of_lt rfl (piecesLeft_finish rfl) here (by omega)
  · have pos : s.rc.toNat ≠ 0 := fun h => hne (BitVec.eq_of_toNat_eq h)
    rw [ht]
    exact advances_of_lt rfl (piecesLeft_blockDec hp (toNat_counter (by omega))) here (by omega)

theorem streamEncPiece_advances (hst : Stored s) (hp : s.ph = .streamEnc) : Advances s (streamEncPiece s) := by
  obtain ⟨hd, hbegun⟩ := sequencerSound_streamEnc_inv hq hp
  have hb := begun_of_not_atStart ha hd hp
  obtain ⟨hc, hlt, _, hr⟩ := hbegun hb
  have her := er_lt s
  obtain ⟨hb', _⟩ | ⟨hb', _⟩ | ⟨_, hk, ht⟩ | ⟨_, hk, hrc, ht⟩ | ⟨_, hk, hrc, ht⟩ | ⟨_, h0, h1, ht⟩ :=
    streamEncPiece_cases s
  · exact absurd hb (ne_true_of_eq_false hb')
  · exact absurd hb (ne_true_of_eq_false hb')
  · rw [ht]
    exact advances_of_lt rfl (piecesLeft_streamEnc hp rfl rfl (blockPieces_round rfl _))
      (piecesLeft_streamEnc hp rfl rfl (blockPieces_load hk _)) (Nat.lt_succ_self _)
  · rw [ht]
    refine advances_of_lt rfl (piecesLeft_streamEnc hp rfl rfl (blockPieces_store ?_ ?_ _))
      (piecesLeft_streamEnc hp rfl rfl (blockPieces_round hk _)) (Nat.add_lt_add_left (by omega) _)
    · exact (show (2 : BitVec 11) ≠ 0 by decide)
    · exact (show (2 : BitVec 11) ≠ 1 by decide)
  · have := hr hk
    rw [ht]
    exact advances_of_lt rfl (piecesLeft_streamEnc hp rfl (toNat_counter (by omega)) (blockPieces_round hk _))
      (piecesLeft_streamEnc hp rfl rfl (blockPieces_round hk _))
      (Nat.add_lt_add_left (show s.er.toNat - (s.rc.toNat + 1) + 2 < _ by omega) _)
  · rw [ht]
    exact streamStore_advances hlt (blocks_le (hst.legalWidth (streamCheck_eq_success.mp hc).1) (encsBlocks_fit hst hc))
      (piecesLeft_streamEnc hp rfl rfl (blockPieces_store h0 h1 _))
      fun hblk => piecesLeft_streamEnc (s := storedBlock s) hp hblk rfl (blockPieces_load rfl _)

theorem streamDecPiece_advances (hst : Stored s) (hp : s.ph = .streamDec) : Advances s (streamDecPiece s) := by
  obtain ⟨⟨more, hd⟩, hbegun⟩ := sequencerSound_streamDec_inv hq hp
  have hb := begun_of_not_atStart ha hd hp
  obtain ⟨hc, hlt, _, hr⟩ := hbegun hb
  have her := er_lt s
  obtain ⟨hb', _⟩ | ⟨hb', _⟩ | ⟨_, hk, ht⟩ | ⟨_, hk, hrc, ht⟩ | ⟨_, hk, hrc, ht⟩ | ⟨_, h0, h1, ht⟩ :=
    streamDecPiece_cases s
  · exact absurd hb (ne_true_of_eq_false hb')
  · exact absurd hb (ne_true_of_eq_false hb')
  · have rc : (s.er.setWidth 9).toNat ≤ s.er.toNat := setWidth_er_le
    rw [ht]
    exact advances_of_lt rfl (piecesLeft_streamDec hp rfl rfl (blockPieces_round rfl _))
      (piecesLeft_streamDec hp rfl rfl (blockPieces_load hk _))
      (Nat.add_lt_add_left (Nat.add_lt_add_of_le_of_lt rc (by decide)) _)
  · rw [ht]
    refine advances_of_lt rfl (piecesLeft_streamDec hp rfl rfl (blockPieces_store ?_ ?_ _))
      (piecesLeft_streamDec hp rfl rfl (blockPieces_round hk _)) (Nat.add_lt_add_left (by omega) _)
    · exact (show (2 : BitVec 11) ≠ 0 by decide)
    · exact (show (2 : BitVec 11) ≠ 1 by decide)
  · have := hr hk
    have pos : s.rc.toNat ≠ 0 := fun h => hrc (BitVec.eq_of_toNat_eq h)
    rw [ht]
    exact advances_of_lt rfl (piecesLeft_streamDec hp rfl (toNat_counter (by omega)) (blockPieces_round hk _))
      (piecesLeft_streamDec hp rfl rfl (blockPieces_round hk _)) (Nat.add_lt_add_left (by omega) _)
  · rw [ht]
    exact streamStore_advances hlt (blocks_le (hst.legalWidth (streamCheck_eq_success.mp hc).1) (decsBlocks_fit hst hc))
      (piecesLeft_streamDec hp rfl rfl (blockPieces_store h0 h1 _))
      fun hblk => piecesLeft_streamDec (s := storedBlock s) hp hblk rfl (blockPieces_load rfl _)

theorem enginePiece_advances (hst : Stored s) (hp : s.ph ≠ .idle) : Advances s (enginePiece s) := by
  cases hph : s.ph <;> simp only [enginePiece, hph]
  case idle => exact absurd hph hp
  case setupAlign => exact setupAlignPiece_advances hq ha hph
  case setupExpand => exact setupExpandPiece_advances hq hph
  case setupMix => exact setupMixPiece_advances hq hph
  case blockEnc => exact blockEncPiece_advances hq ha hph
  case blockDec => exact blockDecPiece_advances hq ha hph
  case streamEnc => exact streamEncPiece_advances hq ha hst hph
  case streamDec => exact streamDecPiece_advances hq ha hst hph
  case finish =>
    obtain ⟨_, h⟩ | ⟨_, h⟩ | ⟨_, _, _, h⟩ | ⟨_, _, _, h⟩ | ⟨_, h⟩ | ⟨_, h⟩ | ⟨_, _, h⟩ := finishPiece_cases s <;>
      rw [h] <;> exact advances_completeWith _ _ _

/-! ### The largest count (70_reset_and_hazards.md R245) -/

theorem piecesLeft_le (hst : Stored s) : piecesLeft s ≤ 264192 := by
  have her := er_lt s
  cases hp : s.ph
  case idle => simp [piecesLeft, hp]
  case setupAlign =>
    obtain ⟨hd, hbegun⟩ := sequencerSound_setupAlign_inv hq hp
    obtain ⟨p, hk, _⟩ := hbegun (begun_of_not_atStart ha hd hp)
    have := keysetup_sizes hk
    rw [piecesLeft_setupAlign hp hk rfl]
    omega
  case setupExpand =>
    obtain ⟨p, _, hk, _⟩ := sequencerSound_setupExpand_inv hq hp
    have := keysetup_sizes hk
    rw [piecesLeft_setupExpand hp hk rfl]
    omega
  case setupMix =>
    obtain ⟨p, _, hk, _⟩ := sequencerSound_setupMix_inv hq hp
    have := keysetup_sizes hk
    rw [piecesLeft_setupMix hp hk rfl]
    omega
  case blockEnc => rw [piecesLeft_blockEnc hp rfl]; omega
  case blockDec => have := s.rc.isLt; rw [piecesLeft_blockDec hp rfl]; omega
  case streamEnc =>
    obtain ⟨hd, hbegun⟩ := sequencerSound_streamEnc_inv hq hp
    obtain ⟨hc, hlt, _⟩ := hbegun (begun_of_not_atStart ha hd hp)
    have hnb := blocks_le (hst.legalWidth (streamCheck_eq_success.mp hc).1) (encsBlocks_fit hst hc)
    simp only [piecesLeft, hp]
    exact streamPieces_le hnb hlt fun _ => Nat.sub_le _ _
  case streamDec =>
    obtain ⟨⟨more, hd⟩, hbegun⟩ := sequencerSound_streamDec_inv hq hp
    obtain ⟨hc, hlt, _, hr⟩ := hbegun (begun_of_not_atStart ha hd hp)
    have hnb := blocks_le (hst.legalWidth (streamCheck_eq_success.mp hc).1) (decsBlocks_fit hst hc)
    simp only [piecesLeft, hp]
    exact streamPieces_le hnb hlt hr
  case finish => rw [piecesLeft_finish hp]; omega

end

end

/-! ### Runs to the completion -/

theorem run_succ {s t : State} (h : step s = .next t) (n : Nat) :
    Host.Core.run Sys2Proof.core (n + 1) s = Host.Core.run Sys2Proof.core n t := by
  have hstep : Sys2Proof.core.step s = .next t := h
  simp only [Host.Core.run, hstep]

/-- At its start a command completes in one step (R106); from then on a step is a piece. -/
theorem step_advances {s : State} (hs : Sound s) (hb : s.busy = true) (hin : s.inputs = []) :
    ∃ t, step s = .next t ∧ (Completed t.err t ∨
      atStart s = false ∧ Sound t ∧ t.busy = true ∧ t.inputs = [] ∧ piecesLeft t < piecesLeft s) := by
  obtain ⟨hst, hidle, hq⟩ := sound_iff.mp hs
  have hp : s.ph ≠ .idle := fun h => absurd hb (ne_true_of_eq_false (hidle.mp h))
  rw [step_nil s hin]
  obtain ⟨hph, _⟩ | ⟨_, _, _, he⟩ | ⟨_, _, i, _, he⟩ | ⟨_, ha, he⟩ := engineRun_cases s
  · exact absurd hph hp
  · exact ⟨_, he, .inl (completed_completeWith _ s)⟩
  · obtain ⟨t, ht⟩ := exec_next i s
    exact ⟨t, he.trans ht, .inl (exec_completed ht)⟩
  · refine ⟨_, he, (enginePiece_advances hq ha hst hp).imp_right fun ⟨hbusy, hlt⟩ => ?_⟩
    exact ⟨ha, sound_enginePiece hs, hbusy.trans hb, (enginePiece_sameOperands s).inputs.trans hin, hlt⟩

theorem run_completes {n : Nat} {s : State} (hs : Sound s) (hb : s.busy = true) (hin : s.inputs = [])
    (hn : atStart s = false → piecesLeft s ≤ n) :
    ∃ (m : Nat) (t : State), m ≤ n + 1 ∧ Host.Core.run Sys2Proof.core m s = .next t ∧ Completed t.err t := by
  induction n generalizing s with
  | zero =>
    obtain ⟨t, ht, hc | ⟨ha, _, _, _, hlt⟩⟩ := step_advances hs hb hin
    · exact ⟨1, t, Nat.le_refl 1, run_succ ht 0, hc⟩
    · have := hn ha; omega
  | succ n ih =>
    obtain ⟨t, ht, hc | ⟨ha, hsound, hbusy, hinputs, hlt⟩⟩ := step_advances hs hb hin
    · exact ⟨1, t, by omega, run_succ ht 0, hc⟩
    · obtain ⟨m, v, hm, hrun, hv⟩ := ih hsound hbusy hinputs fun _ => by have := hn ha; omega
      exact ⟨m + 1, v, by omega, (run_succ ht m).trans hrun, hv⟩

/-- Settles O45: each piece leaves fewer, and no sound state has more left than the longest stream. -/
theorem everyCommandCompletes : Obligations.EveryCommandCompletes := by
  intro s hs hb hin
  obtain ⟨hst, _, hq⟩ := sound_iff.mp hs
  obtain ⟨n, t, hn, hrun, hc⟩ := run_completes hs hb hin fun ha => piecesLeft_le hq ha hst
  exact ⟨n, t, by omega, hrun, hc.busy, hc.done, hc.ph⟩

end Sys2Proof.Machine
end

section
/-! SUPPORT. Rotations bit by bit, byte packing as a pair of inverses, and the statements on the word operations
(41_word_arith.md R118 to R126). -/

namespace Sys2Proof.Machine

variable {w : Nat}

/-! ### Rotations by number and by amount (41_word_arith.md R118, R119, R123) -/

/-- Moving a word up by `t` and its high part down by `w - t` stays within the width: the parts are disjoint. -/
theorem rotl_parts_lt (v : BitVec w) {t : Nat} (ht : t ≤ w) :
    v.toNat * 2 ^ t % 2 ^ w + v.toNat / 2 ^ (w - t) < 2 ^ w := by
  have factor : 2 ^ w = 2 ^ (w - t) * 2 ^ t := by rw [← Nat.pow_add, Nat.sub_add_cancel ht]
  have low : v.toNat % 2 ^ (w - t) < 2 ^ (w - t) := Nat.mod_lt _ (Nat.two_pow_pos _)
  have high : v.toNat / 2 ^ (w - t) < 2 ^ t := Nat.div_lt_of_lt_mul (factor ▸ v.isLt)
  rw [factor, Nat.mul_mod_mul_right]
  calc v.toNat % 2 ^ (w - t) * 2 ^ t + v.toNat / 2 ^ (w - t)
      < v.toNat % 2 ^ (w - t) * 2 ^ t + 2 ^ t := Nat.add_lt_add_left high _
    _ = (v.toNat % 2 ^ (w - t) + 1) * 2 ^ t := (Nat.succ_mul ..).symm
    _ ≤ 2 ^ (w - t) * 2 ^ t := Nat.mul_le_mul_right _ low

theorem rotl_toNat (v : BitVec w) (s : Nat) (hw : 0 < w) :
    (rotl v s).toNat =
      if s % w = 0 then v.toNat else v.toNat * 2 ^ (s % w) % 2 ^ w + v.toNat / 2 ^ (w - s % w) := by
  split
  next h => rw [rotl_of_mod_zero v h]
  next h =>
    simp only [rotl, if_neg h, BitVec.toNat_ofNat]
    exact Nat.mod_eq_of_lt (rotl_parts_lt v (Nat.mod_lt _ hw).le)

/-- A right rotation by `t` is the left rotation by `w - t`, whose two parts are the same in the other order. -/
theorem rotr_toNat (v : BitVec w) (s : Nat) (hw : 0 < w) :
    (rotr v s).toNat =
      if s % w = 0 then v.toNat else v.toNat / 2 ^ (s % w) + v.toNat * 2 ^ (w - s % w) % 2 ^ w := by
  have hlt : s % w < w := Nat.mod_lt _ hw
  split
  next h => rw [rotr_of_mod_zero v h]
  next h =>
    have amount : (w - s % w) % w = w - s % w := Nat.mod_eq_of_lt (by omega)
    rw [rotr_eq_rotl v h, rotl_toNat v _ hw, amount, if_neg (by omega), Nat.sub_sub_self hlt.le, Nat.add_comm]

theorem rotl_congr (v : BitVec w) {s t : Nat} (h : s % w = t % w) : rotl v s = rotl v t := by
  simp only [rotl, h]

theorem rotr_congr (v : BitVec w) {s t : Nat} (h : s % w = t % w) : rotr v s = rotr v t := by
  simp only [rotr, h]

/-! ### Rotations by bit -/

/-- Bit `k` goes up `s` places, around the end. -/
theorem rotl_getLsbD (v : BitVec w) (s : Nat) {k : Nat} (hk : k < w) :
    (rotl v s).getLsbD ((k + s) % w) = v.getLsbD k := by
  have hlt : s % w < w := Nat.mod_lt _ hk.pos
  rw [rotl_eq_rotateLeft, BitVec.getLsbD_rotateLeft, Nat.add_mod_eq_ite, Nat.mod_eq_of_lt hk]
  split
  next wraps =>
    have index : w - s % w + (k + s % w - w) = k := by omega
    rw [index, decide_eq_true (by omega : k + s % w - w < s % w), cond_true]
  next stays =>
    rw [decide_eq_false (by omega : ¬ k + s % w < s % w), decide_eq_true (by omega : k + s % w < w),
      cond_false, Bool.true_and, Nat.add_sub_cancel]

/-- Bit `k` comes from `s` places up, around the end. -/
theorem rotr_getLsbD (v : BitVec w) (s : Nat) {k : Nat} (hk : k < w) :
    (rotr v s).getLsbD k = v.getLsbD ((k + s) % w) := by
  have hlt : s % w < w := Nat.mod_lt _ hk.pos
  rw [rotr_eq_rotateRight, BitVec.getLsbD_rotateRight, Nat.add_mod_eq_ite, Nat.mod_eq_of_lt hk]
  split
  next wraps =>
    have index : k - (w - s % w) = k + s % w - w := by omega
    rw [index, decide_eq_false (by omega : ¬ k < w - s % w), decide_eq_true hk, cond_false, Bool.true_and]
  next stays =>
    rw [decide_eq_true (by omega : k < w - s % w), cond_true, Nat.add_comm]

/-- Every bit is the goal of one: the map of `rotl_getLsbD` is onto. -/
theorem exists_add_mod_eq (s : Nat) {i : Nat} (hi : i < w) : ∃ k < w, (k + s) % w = i := by
  have hlt : s % w < w := Nat.mod_lt _ hi.pos
  refine ⟨(i + (w - s % w)) % w, Nat.mod_lt _ hi.pos, ?_⟩
  rw [Nat.mod_add_mod, ← Nat.add_mod_mod, Nat.add_assoc, Nat.sub_add_cancel hlt.le, Nat.add_mod_right,
    Nat.mod_eq_of_lt hi]

theorem rotr_rotl (v : BitVec w) (s : Nat) : rotr (rotl v s) s = v := by
  apply BitVec.eq_of_getLsbD_eq
  intro k hk
  rw [rotr_getLsbD _ s hk, rotl_getLsbD v s hk]

theorem rotl_rotr (v : BitVec w) (s : Nat) : rotl (rotr v s) s = v := by
  apply BitVec.eq_of_getLsbD_eq
  intro i hi
  obtain ⟨k, hk, rfl⟩ := exists_add_mod_eq s hi
  rw [rotl_getLsbD _ s hk, rotr_getLsbD v s hk]

/-- A word whose bits are all `b` reads the same from every place. -/
theorem rotr_of_constant_bits {v : BitVec w} {b : Bool} (h : ∀ k < w, v.getLsbD k = b) (s : Nat) : rotr v s = v := by
  apply BitVec.eq_of_getLsbD_eq
  intro k hk
  rw [rotr_getLsbD v s hk, h k hk, h _ (Nat.mod_lt _ hk.pos)]

theorem rotr_zero_word (s : Nat) : rotr (0 : BitVec w) s = 0 :=
  rotr_of_constant_bits (b := false) (fun _ _ => BitVec.getLsbD_zero) s

theorem rotr_allOnes (s : Nat) : rotr (BitVec.allOnes w) s = BitVec.allOnes w :=
  rotr_of_constant_bits (b := true) (fun _ hk => BitVec.getLsbD_allOnes.trans (decide_eq_true hk)) s

theorem rotl_of_rotr_fixed {v : BitVec w} {s : Nat} (h : rotr v s = v) : rotl v s = v :=
  (congrArg (rotl · s) h).symm.trans (rotl_rotr v s)

/-- Settles O23: by number the two parts do not overlap; by bit the place goes up around the end. -/
theorem leftRotationByAmountModWidth : Obligations.LeftRotationByAmountModWidth := by
  refine ⟨fun w s v hw => ⟨rotl_toNat v s hw, fun k hk => rotl_getLsbD v s hk, ?zero, ?ones⟩, by decide⟩
  case zero => exact rotl_of_rotr_fixed (rotr_zero_word s)
  case ones => exact rotl_of_rotr_fixed (rotr_allOnes s)

/-- Settles O24: the left rotation by the rest of the width. -/
theorem rightRotationByAmountModWidth : Obligations.RightRotationByAmountModWidth :=
  ⟨fun _ s v hw => ⟨rotr_toNat v s hw, fun _ hk => rotr_getLsbD v s hk, rotr_eq_rotl v, rotr_zero_word s,
    rotr_allOnes s⟩, by decide⟩

/-- Settles O26: a right rotation reads each bit where the left rotation has put it. -/
theorem wordLawsOfTheRoundTrip : Obligations.WordLawsOfTheRoundTrip :=
  fun _ s v a b => ⟨rotr_rotl v s, rotl_rotr v s, BitVec.add_sub_cancel a b,
    by rw [BitVec.xor_assoc, BitVec.xor_self, BitVec.xor_zero]⟩

/-! ### The amount as a word (41_word_arith.md R123) -/

/-- A legal width divides `2 ^ w`, so that a sum's wrap keeps its remainder. -/
theorem add_toNat_mod_width (h : legalWidth w) (a b : BitVec w) : (a + b).toNat % w = (a.toNat + b.toNat) % w := by
  have hdvd : w ∣ 2 ^ w := by obtain rfl | rfl | rfl := h <;> decide
  rw [BitVec.toNat_add, Nat.mod_mod_of_dvd _ hdvd]

/-- Settles O25: `2 ^ 4`, `2 ^ 5` and `2 ^ 6` are the widths themselves, and an amount counts modulo the width. -/
theorem rotationUsesTheLowAmountBits : Obligations.RotationUsesTheLowAmountBits := by
  refine ⟨fun s v => ?width16, fun s v => ?width32, fun s v => ?width64, fun w v a b hw => ?sum⟩
  case width16 => exact ⟨rotl_congr v (Nat.mod_mod s 16).symm, rotr_congr v (Nat.mod_mod s 16).symm⟩
  case width32 => exact ⟨rotl_congr v (Nat.mod_mod s 32).symm, rotr_congr v (Nat.mod_mod s 32).symm⟩
  case width64 => exact ⟨rotl_congr v (Nat.mod_mod s 64).symm, rotr_congr v (Nat.mod_mod s 64).symm⟩
  case sum => exact ⟨add_toNat_mod_width hw a b, rotl_congr v (add_toNat_mod_width hw a b)⟩

/-! ### Byte packing (41_word_arith.md R121, R122) -/

theorem leBytes_getD_toNat {u t : Nat} (v : BitVec w) (ht : t < u) :
    ((leBytes u v).getD t 0).toNat = v.toNat / 2 ^ (8 * t) % 256 := by
  rw [List.getD_eq_getElem?_getD, leBytes_getElem? v ht, Option.getD_some, BitVec.toNat_ofNat]

theorem leWord_toNat {xs : List Byte} (h : 8 * xs.length ≤ w) : (leWord w xs).toNat = leValue xs := by
  rw [leWord, BitVec.toNat_ofNat]
  exact Nat.mod_eq_of_lt ((leValue_lt xs).trans_le (Nat.pow_le_pow_right Nat.two_pos h))

/-- Packing undoes unpacking into enough bytes: the word is fixed by its digits. -/
theorem leWord_leBytes {u : Nat} (v : BitVec w) (h : w ≤ 8 * u) : leWord w (leBytes u v) = v := by
  have small : v.toNat < 2 ^ (8 * (leBytes u v).length) := by
    rw [leBytes_length]
    exact v.isLt.trans_le (Nat.pow_le_pow_right Nat.two_pos h)
  have value : leValue (leBytes u v) = v.toNat :=
    leValue_ext small fun k hk => (leBytes_getD_toNat v (by rwa [leBytes_length] at hk)).symm
  rw [leWord, value, BitVec.ofNat_toNat, BitVec.setWidth_eq]

/-- Unpacking undoes packing of bytes that fit: digit `k` of the value is byte `k`. -/
theorem leBytes_leWord {xs : List Byte} (h : 8 * xs.length ≤ w) : leBytes xs.length (leWord w xs) = xs := by
  apply List.ext_getElem (leBytes_length ..)
  intro k _ hk
  apply BitVec.eq_of_toNat_eq
  rw [leBytes_getElem, BitVec.toNat_ofNat, leWord_toNat h]
  exact (leValue_digit xs k).trans (congrArg BitVec.toNat (List.getD_eq_getElem xs 0 hk))

theorem eight_mul_width_div (h : legalWidth w) : 8 * (w / 8) = w := by obtain rfl | rfl | rfl := h <;> rfl

/-- Settles O27: a legal width is whole bytes, so no digit is lost on either way. -/
theorem littleEndianPackingInverts : Obligations.LittleEndianPackingInverts := by
  refine ⟨fun w v hw => ?word, fun w xs hw hlen => ?bytes⟩
  case word =>
    exact ⟨leWord_leBytes v (eight_mul_width_div hw).ge, leBytes_length .., fun t ht => leBytes_getD_toNat v ht⟩
  case bytes =>
    have fits : 8 * xs.length ≤ w := hlen ▸ (eight_mul_width_div hw).le
    rw [← hlen]
    refine ⟨leBytes_leWord fits, ?_⟩
    have sum := leValue_lanes xs 0
    simp only [Nat.mul_zero, Nat.pow_zero, Nat.mul_one, Nat.zero_add] at sum
    rw [leWord_toNat fits, sum]

end Sys2Proof.Machine
end

section
/-! SUPPORT. The key schedule as functions of their arguments (constants, the aligned key, the expanded table, the
mixing), what KEYSETUP checks, commits and reads, and the statements on key set-up (42_key_schedule.md R130 to R150). -/

namespace Sys2Proof.Machine

/-! ### The constants (42_key_schedule.md R130, R132) -/

/-- Settles O15: a width with constants is one of the three. -/
theorem constantsOfTheThreeWidths : Obligations.ConstantsOfTheThreeWidths := by
  refine ⟨rfl, rfl, rfl, fun w => ⟨constants_of_not_legal, fun p q h => ?_⟩⟩
  obtain rfl | rfl | rfl := legal_of_constants h <;> cases h <;> decide

/-! ### The checks (42_key_schedule.md R150) -/

section
variable {s : State}

theorem keysetupParams_of_width_not_legal (hw : ¬ legalWidth s.wordbits.toNat) :
    keysetupParams s = .error .unsupportedWordSize := by
  simp only [keysetupParams, constants_of_not_legal hw]

theorem keysetupParams_of_rounds_gt (hw : legalWidth s.wordbits.toNat) (hr : 255 < s.rounds.toNat) :
    keysetupParams s = .error .invalidRoundCount := by
  obtain ⟨p, q, hc⟩ := constants_of_legal hw
  simp only [keysetupParams, hc, if_pos hr]

theorem keysetupParams_of_keylen_gt (hw : legalWidth s.wordbits.toNat) (hr : s.rounds.toNat ≤ 255)
    (hb : 255 < s.keylen.toNat) : keysetupParams s = .error .keyTooLong := by
  obtain ⟨p, q, hc⟩ := constants_of_legal hw
  simp only [keysetupParams, hc, if_neg (Nat.not_lt.mpr hr), if_pos hb]

/-- A KEYSETUP that fails a check only completes with the check's code (40_command_control.md R103). -/
theorem exec_keysetup_fails {e : ErrorCode} (h : keysetupParams s = .error e) :
    ∃ t, exec .keysetup s = .next t ∧ Completed e t ∧ OnlyStatusChanged s t :=
  ⟨_, exec_keysetup_error h, completed_completeWith e s, onlyStatusChanged_completeWith e s⟩

end

/-- Settles O11: each clause is one arm of the checks, and a failed check only completes the command. -/
theorem keysetupChecksInOrder : Obligations.KeysetupChecksInOrder := fun _ =>
  ⟨fun hw => exec_keysetup_fails (keysetupParams_of_width_not_legal hw),
    fun hw hr => exec_keysetup_fails (keysetupParams_of_rounds_gt hw hr),
    fun hw hr hb => exec_keysetup_fails (keysetupParams_of_keylen_gt hw hr hb)⟩

/-! ### Tables listed by index -/

/-- The shape of the aligned key and of the expanded table. -/
theorem getD_map_range {α : Type} (f : Nat → α) {n x : Nat} (hx : x < n) (d : α) :
    ((List.range n).map f).getD x d = f x := by
  rw [List.getD_eq_getElem _ _ (by simpa using hx), List.getElem_map, List.getElem_range]

/-! ### The aligned key (42_key_schedule.md R133 to R136) -/

section
variable {w : Nat} {key : List Byte}

theorem alignedLen_zero (hw : legalWidth w) : alignedLen w 0 = 1 := by
  obtain rfl | rfl | rfl := hw <;> rfl

/-- The maximum with 1 is for the empty key only. -/
theorem alignedLen_of_pos (hw : legalWidth w) {b : Nat} (hb : 0 < b) :
    alignedLen w b = (b + w / 8 - 1) / (w / 8) := by
  have hu : 0 < w / 8 := by obtain rfl | rfl | rfl := hw <;> decide
  exact max_eq_right (Nat.div_pos (by omega) hu)

/-- A key longer by less than what its last word has left has as many words. -/
theorem alignedLen_add (hw : legalWidth w) {b n : Nat} (hb : 0 < b) (hn : b + n ≤ alignedLen w b * (w / 8)) :
    alignedLen w (b + n) = alignedLen w b := by
  rw [alignedLen_of_pos hw hb] at hn ⊢
  rw [alignedLen_of_pos hw (Nat.add_pos_left hb n)]
  obtain rfl | rfl | rfl := hw <;> omega

theorem align_getD {x : Nat} (hx : x < (align w key).length) : (align w key).getD x 0 = alignWord w key x :=
  getD_map_range _ (hx.trans_eq (length_align w key)) 0

theorem alignWord_nil (hw : legalWidth w) : alignWord w [] 0 = 0 := by
  obtain rfl | rfl | rfl := hw <;> decide

theorem align_nil (hw : legalWidth w) : align w [] = [0] := by
  rw [align, List.length_nil, alignedLen_zero hw, List.range_one, List.map_singleton, alignWord_nil hw]

/-- Byte `t` of a word of the aligned key is the key byte at its place, 0 past the end. -/
theorem alignWord_byte (hw : legalWidth w) (x : Nat) {t : Nat} (ht : t < w / 8) :
    (alignWord w key x).toNat / 2 ^ (8 * t) % 256 = (key.getD (x * (w / 8) + t) 0).toNat := by
  have fits : 8 * ((List.range (wordLen w)).map fun t => key.getD (x * wordLen w + t) 0).length ≤ w := by
    rw [List.length_map, List.length_range]
    exact (eight_mul_width_div hw).le
  rw [alignWord, leWord_toNat fits, leValue_digit, getD_map_range _ (show t < wordLen w from ht), wordLen]

theorem getD_append_zeros (key : List Byte) (n x : Nat) :
    (key ++ List.replicate n 0).getD x 0 = key.getD x 0 := by
  obtain hx | hx := Nat.lt_or_ge x key.length
  · exact List.getD_append _ _ _ _ hx
  · rw [List.getD_append_right _ _ _ _ hx, List.getD_eq_default _ _ hx]
    exact List.getElem?_getD_replicate_default_eq ..

theorem alignWord_append_zeros (w : Nat) (key : List Byte) (n : Nat) :
    alignWord w (key ++ List.replicate n 0) = alignWord w key := by
  funext x
  simp only [alignWord, getD_append_zeros]

end

/-- Settles O17: the length is `alignedLen`, and the bytes of a word are its digits. -/
theorem alignedKeyIsLittleEndian : Obligations.AlignedKeyIsLittleEndian := by
  intro w key hw
  refine ⟨?length, fun hb => ?bounds, fun h => h ▸ align_nil hw, fun x t hx ht => ?bytes⟩
  case length =>
    rw [length_align]
    split
    next h => rw [h, List.length_nil, alignedLen_zero hw]
    next h => exact alignedLen_of_pos hw (List.length_pos_of_ne_nil h)
  case bounds =>
    rw [length_align]
    simp only [alignedLen, wordLen]
    refine ⟨?_, ?_, ?_⟩ <;> rintro rfl <;> omega
  case bytes => rw [align_getD hx, alignWord_byte hw x ht]

/-- Settles O18: the appended zeros add no word, and past its end a key reads 0 anyway. -/
theorem keyPaddingIsImmaterial : Obligations.KeyPaddingIsImmaterial := by
  intro w key n hw hkey hn
  rw [length_align] at hn
  have words : alignedLen w (key ++ List.replicate n 0).length = alignedLen w key.length := by
    rw [List.length_append, List.length_replicate]
    exact alignedLen_add hw (List.length_pos_of_ne_nil hkey) hn
  rw [align, words, alignWord_append_zeros, align]

/-! ### The expanded table (42_key_schedule.md R137, R138) -/

theorem expandWord_eq_ofNat (w p q x : Nat) : expandWord w p q x = BitVec.ofNat w (p + x * q) := by
  rw [expandWord, BitVec.ofNat_add, BitVec.ofNat_mul]

theorem expand_getD {w p q r x : Nat} (hx : x < 2 * (r + 1)) : (expand w p q r).getD x 0 = expandWord w p q x :=
  getD_map_range _ hx 0

/-- Settles O19: word `x` is the closed form, whose recurrence is `expandWord_succ`. -/
theorem expansionIsTheRecurrence : Obligations.ExpansionIsTheRecurrence := by
  intro w p q r
  refine ⟨length_expand w p q r, fun x hx => ?closed, ?first, fun x hx => ?next⟩
  case closed => rw [expand_getD hx, expandWord_eq_ofNat, BitVec.toNat_ofNat]
  case first => rw [expand_getD (by omega), expandWord_eq_ofNat, Nat.zero_mul, Nat.add_zero]
  case next => rw [expand_getD hx, expand_getD (by omega), expandWord_succ]

/-! ### The mixing (42_key_schedule.md R139 to R142) -/

section
variable {w : Nat}

theorem mixSteps_succ (n : Nat) (m : Mix w) : mixSteps (n + 1) m = mixStep (mixSteps n m) := by
  induction n generalizing m with
  | zero => rfl
  | succ n ih => exact ih (mixStep m)

theorem mixSteps_l_length (n : Nat) (m : Mix w) : (mixSteps n m).l.length = m.l.length := by
  induction n with
  | zero => rfl
  | succ n ih => rw [mixSteps_succ, ← ih]; exact List.length_set

/-- Cursor `i` counts modulo the length of the schedule, whatever `j` does. -/
theorem mixSteps_i (n : Nat) {m : Mix w} (hi : m.i < m.s.length) : (mixSteps n m).i = (m.i + n) % m.s.length := by
  induction n with
  | zero => exact (Nat.mod_eq_of_lt hi).symm
  | succ n ih =>
    calc (mixSteps (n + 1) m).i
        = ((mixSteps n m).i + 1) % (mixSteps n m).s.length := by rw [mixSteps_succ]; rfl
      _ = (m.i + n + 1) % m.s.length := by rw [ih, mixSteps_s_length, Nat.mod_add_mod]

/-- Cursor `j` counts modulo the length of the aligned key, whatever `i` does. -/
theorem mixSteps_j (n : Nat) {m : Mix w} (hj : m.j < m.l.length) : (mixSteps n m).j = (m.j + n) % m.l.length := by
  induction n with
  | zero => exact (Nat.mod_eq_of_lt hj).symm
  | succ n ih =>
    calc (mixSteps (n + 1) m).j
        = ((mixSteps n m).j + 1) % (mixSteps n m).l.length := by rw [mixSteps_succ]; rfl
      _ = (m.j + n + 1) % m.l.length := by rw [ih, mixSteps_l_length, Nat.mod_add_mod]

end

/-- Settles O20: the two lines are `mixWords`, each written to one entry of its table. -/
theorem mixingStepByLine : Obligations.MixingStepByLine := by
  refine ⟨?lines, fun _ _ _ => rfl, fun _ n m => ⟨rfl, mixSteps_succ n m⟩⟩
  case lines =>
    rintro w m a b hi hj rfl rfl
    exact ⟨rfl, rfl, fun x _ => getD_set m.s m.i x _ hi, fun x _ => getD_set m.l m.j x _ hj, rfl, rfl,
      List.length_set, List.length_set⟩

/-- Settles O21: from 0 each cursor counts the steps modulo the length of its own table. -/
theorem mixingCursorsWrap : Obligations.MixingCursorsWrap := by
  intro w n l s hl hs
  refine ⟨?i, ?j, mixSteps_s_length n _, mixSteps_l_length n _⟩
  case i => rw [mixSteps_i n (List.length_pos_of_ne_nil hs), Nat.zero_add]
  case j => rw [mixSteps_j n (List.length_pos_of_ne_nil hl), Nat.zero_add]

/-! ### What KEYSETUP commits, and what it reads (42_key_schedule.md R144, R146, R150) -/

/-- `S` after a key set-up: its schedule in the first `T` entries, what it held in the others. -/
theorem cellFind_storeSchedule_schedule (w p q r : Nat) (key : List Byte) (ram : EntryRam) (x : Nat) :
    cellFind x (storeSchedule (schedule w p q r key) ram) =
      if x < 2 * (r + 1) then some (toLong ((schedule w p q r key).getD x 0)) else cellFind x ram := by
  rw [cellFind_storeSchedule, schedule_length, scheduleLen]

/-- Every byte of `KEY` has a value: 0 from reset on (10_state.md R38, R48). -/
theorem memRead_key (m : Memory) {k : Nat} (hk : k < 256) : ∃ v, memRead m (keyBase + k) = some v := by
  have unlisted : unlistedByte (keyBase + k) = some 0 := if_pos (by simp only [keyBase]; omega)
  unfold memRead
  split
  next v _ => exact ⟨v, rfl⟩
  next => exact ⟨0, unlisted⟩

/-- So no free value, and no number of draws, reaches the key. -/
theorem keyBytes_congr {s t : State} {b : Nat} (hb : b ≤ 255)
    (h : ∀ k, k < b → memRead t.mem (keyBase + k) = memRead s.mem (keyBase + k)) : keyBytes t b = keyBytes s b := by
  refine List.map_congr_left fun k hk => ?_
  have hkb : k < b := List.mem_range.mp hk
  obtain ⟨v, hv⟩ := memRead_key s.mem (show k < 256 by omega)
  exact (byteAt_of_memRead ((h k hkb).trans hv)).trans (byteAt_of_memRead hv).symm

/-- Settles O16: the commit writes the schedule to the first `T` entries of `S`, and legal operands fit the latches. -/
theorem keysetupCommitsTheSchedule : Obligations.KeysetupCommitsTheSchedule := by
  intro s hw hr hb
  obtain ⟨p, q, hc, hk⟩ := keysetupParams_of_legal hw hr hb
  have run := exec_keysetup_ok hk
  have width : s.wordbits.toNat < 2 ^ 8 := (le_64_of_legal hw).trans_lt (by decide)
  have entry := cellFind_storeSchedule_schedule s.wordbits.toNat p q s.rounds.toNat (keyBytes s s.keylen.toNat) s.sram
  exact ⟨_, p, q, hc, run, completed_completeWith _ _, exec_sameOperands run, toNat_counter width,
    toNat_counter (Nat.lt_succ_of_le hr), rfl, rfl, fun x hx => (entry x).trans (if_pos hx),
    fun x hx => (entry x).trans (if_neg (Nat.not_lt.mpr hx)), rfl, rfl, rfl⟩

/-- Settles O22: the checks read the operand registers, the schedule those and the key, whose bytes all have values. -/
theorem keysetupReadsOnlyItsOperands : Obligations.KeysetupReadsOnlyItsOperands := by
  intro s s' t hw hr hb hwordbits hrounds hkeylen hstrip hkey run
  obtain ⟨p, q, _, hk⟩ := keysetupParams_of_legal hw hr hb
  have hk' := (keysetupParams_congr hwordbits hrounds hkeylen).trans hk
  have sameKey : keyBytes s' s.keylen.toNat = keyBytes s s.keylen.toNat := keyBytes_congr hb hkey
  rw [exec_keysetup_ok hk] at run
  cases run
  refine ⟨_, exec_keysetup_ok hk', rfl, rfl, hstrip, rfl, rfl, fun x hx => ?_⟩
  simp only [commitKeysetup, completeWith_sram, cellFind_storeSchedule_schedule, if_pos hx, sameKey]

end Sys2Proof.Machine
end

section
/-! SUPPORT. The encryption and decryption functions round by round, and the statements on them
(43_block_cipher.md R163 to R167). -/

namespace Sys2Proof.Machine

variable {w : Nat}

/-- Settles O28: each line is one equation of the recursion on the rounds. -/
theorem transformsByLine : Obligations.TransformsByLine := by
  intro w r key a b x y a' b'
  refine ⟨rfl, ?encipher, rfl, ?decipher⟩
  case encipher =>
    rintro h rfl rfl
    exact congrArg (encRound key (r + 1)) h
  case decipher =>
    rintro rfl rfl
    rfl

/-! ### Each function undoes the other (43_block_cipher.md R167) -/

theorem xor_xor_cancel (a b : BitVec w) : a ^^^ b ^^^ b = a := by
  rw [BitVec.xor_assoc, BitVec.xor_self, BitVec.xor_zero]

theorem xor_xor_cancel_first (a b : BitVec w) : a ^^^ b ^^^ a = b := by
  rw [BitVec.xor_comm a, xor_xor_cancel]

theorem xor_xor_cancel_outer (a b : BitVec w) : a ^^^ (b ^^^ a) = b := by
  rw [BitVec.xor_comm, xor_xor_cancel]

theorem decRound_encRound (key : Nat → BitVec w) (k : Nat) (ab : BitVec w × BitVec w) :
    decRound key k (encRound key k ab) = ab := by
  simp only [decRound, encRound, BitVec.add_sub_cancel, rotr_rotl, xor_xor_cancel_first, xor_xor_cancel]

theorem encRound_decRound (key : Nat → BitVec w) (k : Nat) (ab : BitVec w × BitVec w) :
    encRound key k (decRound key k ab) = ab := by
  simp only [decRound, encRound, xor_xor_cancel, rotl_rotr, BitVec.sub_add_cancel, xor_xor_cancel_outer]

theorem unwhiten_whiten (key : Nat → BitVec w) (ab : BitVec w × BitVec w) : unwhiten key (whiten key ab) = ab :=
  Prod.ext (BitVec.add_sub_cancel ..) (BitVec.add_sub_cancel ..)

theorem whiten_unwhiten (key : Nat → BitVec w) (ab : BitVec w × BitVec w) : whiten key (unwhiten key ab) = ab :=
  Prod.ext (BitVec.sub_add_cancel ..) (BitVec.sub_add_cancel ..)

/-- The rounds of decryption run downwards, so the first undoes the last of encryption. -/
theorem decRounds_encRounds (key : Nat → BitVec w) (r : Nat) (ab : BitVec w × BitVec w) :
    decRounds key r (encRounds key r ab) = ab := by
  induction r with
  | zero => rfl
  | succ r ih => rw [encRounds, decRounds, decRound_encRound, ih]

theorem encRounds_decRounds (key : Nat → BitVec w) (r : Nat) (ab : BitVec w × BitVec w) :
    encRounds key r (decRounds key r ab) = ab := by
  induction r generalizing ab with
  | zero => rfl
  | succ r ih => rw [encRounds, decRounds, ih, encRound_decRound]

theorem decipher_encipher (key : Nat → BitVec w) (r : Nat) (ab : BitVec w × BitVec w) :
    decipher key r (encipher key r ab) = ab := by
  rw [decipher, encipher, decRounds_encRounds, unwhiten_whiten]

theorem encipher_decipher (key : Nat → BitVec w) (r : Nat) (ab : BitVec w × BitVec w) :
    encipher key r (decipher key r ab) = ab := by
  rw [decipher, encipher, whiten_unwhiten, encRounds_decRounds]

/-- Settles O29: a round, the rounds and the whitening are each a pair of inverses. -/
theorem decipherInvertsEncipher : Obligations.DecipherInvertsEncipher :=
  fun _ r key ab => ⟨decipher_encipher key r ab, encipher_decipher key r ab⟩

/-! ### The entries read (43_block_cipher.md R166) -/

section
variable {key key' : Nat → BitVec w}

theorem encRound_congr {k : Nat} (even : key (2 * k) = key' (2 * k)) (odd : key (2 * k + 1) = key' (2 * k + 1))
    (ab : BitVec w × BitVec w) : encRound key k ab = encRound key' k ab := by
  simp only [encRound, even, odd]

theorem decRound_congr {k : Nat} (even : key (2 * k) = key' (2 * k)) (odd : key (2 * k + 1) = key' (2 * k + 1))
    (ab : BitVec w × BitVec w) : decRound key k ab = decRound key' k ab := by
  simp only [decRound, even, odd]

/-- Round `k` reads the entries `2k` and `2k + 1`, and `k` is at most `r`. -/
theorem encRounds_congr {r : Nat} (h : ∀ x, x < 2 * (r + 1) → key x = key' x) (ab : BitVec w × BitVec w) :
    encRounds key r ab = encRounds key' r ab := by
  induction r with
  | zero => rfl
  | succ r ih =>
    rw [encRounds, encRounds, ih fun x hx => h x (by omega)]
    exact encRound_congr (h _ (by omega)) (h _ (by omega)) _

theorem decRounds_congr {r : Nat} (h : ∀ x, x < 2 * (r + 1) → key x = key' x) (ab : BitVec w × BitVec w) :
    decRounds key r ab = decRounds key' r ab := by
  induction r generalizing ab with
  | zero => rfl
  | succ r ih =>
    rw [decRounds, decRounds, decRound_congr (h _ (by omega)) (h _ (by omega))]
    exact ih (fun x hx => h x (by omega)) _

end

/-- Settles O30: the whitening reads the entries 0 and 1, the rounds those up to `2r + 1`. -/
theorem cipherReadsOnlyTheSchedule : Obligations.CipherReadsOnlyTheSchedule := by
  intro w r key key' ab h
  have first : key 0 = key' 0 := h 0 (by omega)
  have second : key 1 = key' 1 := h 1 (by omega)
  constructor
  · simp only [encipher, whiten, first, second, encRounds_congr h]
  · simp only [decipher, unwhiten, first, second, decRounds_congr h]

end Sys2Proof.Machine
end

section
/-! SUPPORT. Blocks of bytes and their halves, where they stand in `DIN` and `DOUT`, and the statements on ENCB and
DECB (43_block_cipher.md R160 to R170). -/

namespace Sys2Proof.Machine

variable {s : State}

/-! ### The checks (43_block_cipher.md R162) -/

theorem blockCheck_of_no_schedule (hk : s.kv = false) : blockCheck s = .noSchedule := if_pos hk

theorem blockCheck_of_dlen_ne (hk : s.kv = true) (hd : s.dlen.toNat ≠ blockLen (wordWidth s)) :
    blockCheck s = .invalidBlockLength := by
  rw [blockCheck, if_neg (by simp [hk]), if_pos hd]

/-- A block command that fails its checks only completes with their code (40_command_control.md R103). -/
theorem exec_block_fails {i : Instr} (hi : i = .encb ∨ i = .decb) {e : ErrorCode} (h : blockCheck s = e)
    (he : e ≠ .success) : ∃ t, exec i s = .next t ∧ Completed e t ∧ OnlyStatusChanged s t := by
  refine ⟨completeWith e s, ?_, completed_completeWith e s, onlyStatusChanged_completeWith e s⟩
  obtain rfl | rfl := hi
  · exact exec_encb_error h he
  · exact exec_decb_error h he

/-- Settles O12: each clause is one arm of the checks, and a failed check only completes the command. -/
theorem blockChecksInOrder : Obligations.BlockChecksInOrder := fun _ _ hi =>
  ⟨fun hk => exec_block_fails hi (blockCheck_of_no_schedule hk) (by decide),
    fun hk hd => exec_block_fails hi (blockCheck_of_dlen_ne hk hd) (by decide)⟩

/-! ### Blocks and their halves (43_block_cipher.md R160, R161) -/

section
variable {w : Nat}

theorem blockIn_blockOut (hw : legalWidth w) (ab : BitVec w × BitVec w) : blockIn w (blockOut ab) = ab := by
  have fits : w ≤ 8 * wordLen w := (eight_mul_width_div hw).ge
  have low : (blockOut ab).take (wordLen w) = leBytes (wordLen w) ab.1 := List.take_left' (leBytes_length ..)
  have high : (blockOut ab).drop (wordLen w) = leBytes (wordLen w) ab.2 := List.drop_left' (leBytes_length ..)
  rw [blockIn, low, high, List.take_of_length_le (leBytes_length ..).le, leWord_leBytes _ fits, leWord_leBytes _ fits]

theorem blockOut_blockIn (hw : legalWidth w) {xs : List Byte} (hx : xs.length = blockLen w) :
    blockOut (blockIn w xs) = xs := by
  have unpack : ∀ {ys : List Byte}, ys.length = wordLen w → leBytes (wordLen w) (leWord w ys) = ys := by
    intro ys hy
    rw [← hy]
    exact leBytes_leWord (hy ▸ (eight_mul_width_div hw).le)
  simp only [blockLen] at hx
  have low : (xs.take (wordLen w)).length = wordLen w := by rw [List.length_take]; omega
  have high : (xs.drop (wordLen w)).length = wordLen w := by rw [List.length_drop]; omega
  rw [blockIn, blockOut, List.take_of_length_le high.le, unpack low, unpack high, List.take_append_drop]

end

theorem decryptBlock_encryptBlock (hw : legalWidth (wordWidth s)) {xs : List Byte}
    (hx : xs.length = blockLen (wordWidth s)) : decryptBlock s (encryptBlock s xs) = xs := by
  rw [decryptBlock, encryptBlock, blockIn_blockOut hw, decipher_encipher, blockOut_blockIn hw hx]

theorem encryptBlock_decryptBlock (hw : legalWidth (wordWidth s)) {xs : List Byte}
    (hx : xs.length = blockLen (wordWidth s)) : encryptBlock s (decryptBlock s xs) = xs := by
  rw [decryptBlock, encryptBlock, blockIn_blockOut hw, encipher_decipher, blockOut_blockIn hw hx]

/-! ### Where a block stands in memory -/

/-- The bytes `ys` stand in memory from `x` on. -/
def HoldsBytes (m : Memory) (x : Nat) (ys : List Byte) : Prop := ∀ k, k < ys.length → memRead m (x + k) = ys[k]?

/-- The little-endian bytes of two halves stand in memory from `x` on, as the statements on ENCB and DECB spell it. -/
def HoldsHalves {w : Nat} (m : Memory) (x : Nat) (ab : BitVec w × BitVec w) : Prop :=
  ∀ k, k < wordLen w →
    memRead m (x + k) = some (BitVec.ofNat 8 (ab.1.toNat / 2 ^ (8 * k))) ∧
      memRead m (x + wordLen w + k) = some (BitVec.ofNat 8 (ab.2.toNat / 2 ^ (8 * k)))

theorem HoldsBytes.halves {w : Nat} {m : Memory} {x : Nat} {ab : BitVec w × BitVec w}
    (h : HoldsBytes m x (blockOut ab)) : HoldsHalves m x ab := by
  intro k hk
  have len : (blockOut ab).length = 2 * wordLen w := blockOut_length ab
  constructor
  · rw [h k (by omega), blockOut, List.getElem?_append_left (by rwa [leBytes_length]), leBytes_getElem? _ hk]
  · rw [Nat.add_assoc, h _ (by omega), blockOut, List.getElem?_append_right (by rw [leBytes_length]; omega),
      leBytes_length, Nat.add_sub_cancel_left, leBytes_getElem? _ hk]

theorem HoldsBytes.bytesAt_eq {m : Memory} {x : Nat} {ys : List Byte} (h : HoldsBytes m x ys) (d : Nat) :
    bytesAt m d x ys.length = ys := by
  apply List.ext_getElem (bytesAt_length ..)
  intro k _ hk
  rw [bytesAt_getElem, byteAt_of_memRead ((h k hk).trans (List.getElem?_eq_getElem hk))]

/-- A byte of a buffer that reads 0 from reset on has a value, written or not. -/
theorem memRead_of_unlisted {x : Nat} {v : Byte} (h : unlistedByte x = some v) (m : Memory) :
    ∃ u, memRead m x = some u := by
  unfold memRead
  split
  next u _ => exact ⟨u, rfl⟩
  next => exact ⟨v, h⟩

/-- `DIN` is such a buffer (10_state.md R36, R48). -/
theorem memRead_din (m : Memory) {k : Nat} (hk : k < 16) : ∃ v, memRead m (dinBase + k) = some v :=
  memRead_of_unlisted (v := 0) (if_pos (by simp only [dinBase]; omega)) m

theorem length_dinBlock (s : State) : (dinBlock s).length = blockLen (wordWidth s) := bytesAt_length ..

theorem holdsBytes_dinBlock (hb : blockLen (wordWidth s) ≤ 16) : HoldsBytes s.mem dinBase (dinBlock s) := by
  intro k hk
  obtain ⟨v, hv⟩ := memRead_din s.mem (k := k) (by rw [length_dinBlock] at hk; omega)
  rw [List.getElem?_eq_getElem hk, hv]
  exact congrArg some ((bytesAt_getElem hk).trans (byteAt_of_memRead hv)).symm

theorem holdsBytes_commitBlock {ys : List Byte} (hy : ys.length ≤ 16) :
    HoldsBytes (commitBlock ys s).mem doutBase ys := by
  intro k hk
  rw [memRead_commitBlock hy, if_pos (by omega), Nat.add_sub_cancel_left, List.getElem?_append_left hk]

/-- `DOUT` past the block is 0 (R165, R170). -/
theorem memRead_commitBlock_fill {ys : List Byte} (hy : ys.length ≤ 16) {k : Nat} (hk : ys.length ≤ k) (h16 : k < 16) :
    memRead (commitBlock ys s).mem (doutBase + k) = some 0 := by
  rw [memRead_commitBlock hy, if_pos (by omega), Nat.add_sub_cancel_left, List.getElem?_append_right hk,
    List.getElem?_replicate, if_pos (by omega)]

theorem memRead_commitBlock_out {ys : List Byte} (hy : ys.length ≤ 16) {x : Nat}
    (hx : x < doutBase ∨ doutBase + 16 ≤ x) : memRead (commitBlock ys s).mem x = memRead s.mem x := by
  rw [memRead_commitBlock hy, if_neg (by omega)]

theorem blockLen_le_16 {w : Nat} (hw : legalWidth w) : blockLen w ≤ 16 := by
  obtain h | h | h := blockLen_of_legal hw <;> omega

/-! ### ENCB and DECB (43_block_cipher.md R165, R170) -/

/-- Command `i` completes in `s` with `f` of the halves in `DIN` in `DOUT`, the rest of `DOUT` 0 and nothing else
changed. -/
def WritesTransform (i : Instr) (s : State)
    (f : BitVec (wordWidth s) × BitVec (wordWidth s) → BitVec (wordWidth s) × BitVec (wordWidth s)) : Prop :=
  ∃ t, exec i s = .next t ∧ Completed .success t ∧ SameOperands s t ∧ SameSchedule s t ∧
    t.outlen = s.outlen ∧ t.draws = s.draws ∧
    (∃ a b, HoldsHalves s.mem dinBase (a, b) ∧ HoldsHalves t.mem doutBase (f (a, b))) ∧
    (∀ k, blockLen (wordWidth s) ≤ k → k < 16 → memRead t.mem (doutBase + k) = some 0) ∧
    ∀ x, x < doutBase ∨ doutBase + 16 ≤ x → memRead t.mem x = memRead s.mem x

theorem writesTransform_of_commitBlock {i : Instr}
    {f : BitVec (wordWidth s) × BitVec (wordWidth s) → BitVec (wordWidth s) × BitVec (wordWidth s)}
    (hw : legalWidth (wordWidth s))
    (run : exec i s = .next (commitBlock (blockOut (f (blockIn (wordWidth s) (dinBlock s)))) s)) :
    WritesTransform i s f := by
  have hb : blockLen (wordWidth s) ≤ 16 := blockLen_le_16 hw
  have len := blockOut_length (f (blockIn (wordWidth s) (dinBlock s)))
  have din : HoldsBytes s.mem dinBase (blockOut (blockIn (wordWidth s) (dinBlock s))) := by
    rw [blockOut_blockIn hw (length_dinBlock s)]
    exact holdsBytes_dinBlock hb
  have dout := holdsBytes_commitBlock (s := s) (len.trans_le hb)
  exact ⟨_, run, completed_completeWith _ _, exec_sameOperands run, ⟨rfl, rfl, rfl, rfl, rfl, rfl⟩, rfl, rfl,
    ⟨_, _, din.halves, dout.halves⟩,
    fun k hk h16 => memRead_commitBlock_fill (len.trans_le hb) (len.trans_le hk) h16,
    fun x hx => memRead_commitBlock_out (len.trans_le hb) hx⟩

/-- Settles O31: the checks pass, and ENCB commits `E` of the halves that `DIN` holds. -/
theorem encbWritesTheCiphertext : Obligations.EncbWritesTheCiphertext := fun _ hk hw hd =>
  writesTransform_of_commitBlock hw (exec_encb_ok (blockCheck_eq_success.mpr ⟨hk, hd⟩))

/-- Settles O32: the checks pass, and DECB commits `D` of the halves that `DIN` holds. -/
theorem decbWritesThePlaintext : Obligations.DecbWritesThePlaintext := fun _ hk hw hd =>
  writesTransform_of_commitBlock hw (exec_decb_ok (blockCheck_eq_success.mpr ⟨hk, hd⟩))

/-! ### One block there and back (43_block_cipher.md R167, 95_test_vectors.md P1) -/

/-- The host has copied the 16 bytes of `DOUT` into `DIN`. -/
def copyDout (t : State) : State := { t with mem := memWriteBytes t.mem dinBase (bytesAt t.mem t.draws doutBase 16) }

theorem holdsBytes_copyDout {t : State} {ys : List Byte} (hy : ys.length ≤ 16) (h : HoldsBytes t.mem doutBase ys) :
    HoldsBytes (copyDout t).mem dinBase ys := by
  intro k hk
  have byte : memRead t.mem (doutBase + k) = some ys[k] := (h k hk).trans (List.getElem?_eq_getElem hk)
  have inside : k < (bytesAt t.mem t.draws doutBase 16).length := by rw [bytesAt_length]; omega
  have copied : memRead (copyDout t).mem (dinBase + k) = some (bytesAt t.mem t.draws doutBase 16)[k] :=
    memRead_memWriteBytes_in inside
  rw [copied, bytesAt_getElem, byteAt_of_memRead byte, List.getElem?_eq_getElem hk]

theorem dinBlock_copyDout_commitBlock {ys : List Byte} (hy : ys.length = blockLen (wordWidth s))
    (hb : blockLen (wordWidth s) ≤ 16) : dinBlock (copyDout (commitBlock ys s)) = ys := by
  have held := holdsBytes_copyDout (hy.trans_le hb) (holdsBytes_commitBlock (s := s) (hy.trans_le hb))
  exact (congrArg (bytesAt _ _ dinBase) hy.symm).trans (held.bytesAt_eq _)

/-- Where one command has committed `f` of the block in `DIN`, another whose function `g` undoes `f` gives it back. -/
theorem commitBlock_gives_back {f g : List Byte → List Byte} {v : State}
    (hv : v = copyDout (commitBlock (f (dinBlock s)) s)) (hb : blockLen (wordWidth s) ≤ 16)
    (hf : ∀ xs, (f xs).length = blockLen (wordWidth s)) (hgf : g (f (dinBlock s)) = dinBlock s)
    {k : Nat} (hk : k < blockLen (wordWidth s)) :
    memRead (commitBlock (g (dinBlock v)) v).mem (doutBase + k) = memRead s.mem (dinBase + k) := by
  have len := length_dinBlock s
  have back : g (dinBlock v) = dinBlock s := by rw [hv, dinBlock_copyDout_commitBlock (hf _) hb, hgf]
  rw [back, holdsBytes_commitBlock (by omega) k (by omega), holdsBytes_dinBlock hb k (by omega)]

/-- Settles O33: neither the first command nor the copy touches the schedule, so the second undoes the first. -/
theorem blockCommandsRoundTrip : Obligations.BlockCommandsRoundTrip := by
  intro s t first second horder hk hw hd run
  have hc : blockCheck s = .success := blockCheck_eq_success.mpr ⟨hk, hd⟩
  have hb : blockLen (wordWidth s) ≤ 16 := blockLen_le_16 hw
  obtain ⟨rfl, rfl⟩ | ⟨rfl, rfl⟩ := horder
  · cases (exec_encb_ok hc).symm.trans run
    exact ⟨_, exec_decb_ok hc, rfl, fun k hk => commitBlock_gives_back (g := decryptBlock s) rfl hb
      (encryptBlock_length s) (decryptBlock_encryptBlock hw (length_dinBlock s)) hk⟩
  · cases (exec_decb_ok hc).symm.trans run
    exact ⟨_, exec_encb_ok hc, rfl, fun k hk => commitBlock_gives_back (g := encryptBlock s) rfl hb
      (decryptBlock_length s) (encryptBlock_decryptBlock hw (length_dinBlock s)) hk⟩

end Sys2Proof.Machine
end

section
/-! SUPPORT. What a stream command leaves in `MBUF`, block by block and byte by byte, what DECS strips, and the
statements on ENCS and DECS (44_stream.md R180 to R190). -/

namespace Sys2Proof.Machine

variable {s : State}

/-! ### The checks (44_stream.md R181) -/

theorem streamCheck_of_no_schedule (hk : s.kv = false) : streamCheck s = .noSchedule := if_pos hk

theorem streamCheck_of_mlen_gt (hk : s.kv = true) (hm : s.build.mbufBytes < s.mlen.toNat) :
    streamCheck s = .invalidStreamLength := by
  rw [streamCheck, if_neg (by simp [hk])]
  exact if_pos hm

/-- A stream command that fails its checks only completes with their code (40_command_control.md R103). -/
theorem exec_stream_fails {i : Instr} (hi : i = .encs ∨ ∃ more, i = .decs more) {e : ErrorCode}
    (h : streamCheck s = e) (he : e ≠ .success) : ∃ t, exec i s = .next t ∧ Completed e t ∧ OnlyStatusChanged s t := by
  refine ⟨completeWith e s, ?_, completed_completeWith e s, onlyStatusChanged_completeWith e s⟩
  obtain rfl | ⟨more, rfl⟩ := hi
  · exact exec_encs_error h he
  · exact exec_decs_error h he

/-- Settles O13: each clause is one arm of the checks, and a failed check only completes the command. -/
theorem streamChecksInOrder : Obligations.StreamChecksInOrder := fun _ _ hi =>
  ⟨fun hk => exec_stream_fails hi (streamCheck_of_no_schedule hk) (by decide),
    fun hk hm => exec_stream_fails hi (streamCheck_of_mlen_gt hk hm) (by decide)⟩

/-! ### The blocks of a segment (44_stream.md R180, R183, R185) -/

/-- Byte `k` of block `q` is a byte of the first `n` blocks. -/
theorem blockByte_lt {q n k b : Nat} (hq : q < n) (hk : k < b) : q * b + k < n * b :=
  calc q * b + k < (q + 1) * b := by rw [Nat.succ_mul]; omega
    _ ≤ n * b := Nat.mul_le_mul_right b hq

/-- Block `q` of the zero-padded segment, as the statements on ENCS and DECS spell it. -/
def segmentBlock (s : State) (q : Nat) : List Byte :=
  (List.range (blockLen (wordWidth s))).map fun k =>
    if q * blockLen (wordWidth s) + k < segmentLen s then byteAt .engine s.mem s.draws (mbufBlockAddr s q + k) else 0

@[simp] theorem segmentBlock_length (s : State) (q : Nat) : (segmentBlock s q).length = blockLen (wordWidth s) := by
  simp [segmentBlock]

/-- The memory that a stream command with block function `f` leaves when it transforms `n` blocks. -/
def streamMem (s : State) (f : List Byte → List Byte) (n : Nat) : Memory :=
  transformBlocks s f n (padSegment s.mem (segmentLen s) (n * blockLen (wordWidth s)))

/-- Padding makes the blocks to be transformed those of the zero-padded segment. -/
theorem mbufBlock_padSegment {n q : Nat} (hq : q < n) :
    mbufBlock s (padSegment s.mem (segmentLen s) (n * blockLen (wordWidth s))) q = segmentBlock s q := by
  refine List.map_congr_left fun k hk => ?_
  have inside := blockByte_lt hq (List.mem_range.mp hk)
  have pad := memRead_padSegment s.mem (segmentLen s) (n * blockLen (wordWidth s)) (mbufBlockAddr s q + k)
  simp only [mbufBlockAddr] at pad ⊢
  split
  next hm => exact byteAt_congr (pad.trans (if_neg (by omega))) _ _
  next hm => exact byteAt_of_memRead (pad.trans (if_pos (by omega)))

section
variable {f : List Byte → List Byte} (hf : ∀ xs, (f xs).length = blockLen (wordWidth s))
include hf

theorem holdsBytes_streamMem {n q : Nat} (hq : q < n) :
    HoldsBytes (streamMem s f n) (mbufBlockAddr s q) (f (segmentBlock s q)) := by
  intro k hk
  rw [hf] at hk
  rw [streamMem, (memRead_transformBlocks s f hf n _).1 q k hq hk, mbufBlock_padSegment hq]

theorem memRead_streamMem_out {n x : Nat} (hx : x < mbufBase ∨ mbufBlockAddr s n ≤ x) :
    memRead (streamMem s f n) x = memRead s.mem x := by
  rw [streamMem, (memRead_transformBlocks s f hf n _).2 x hx, memRead_padSegment, if_neg]
  simp only [mbufBlockAddr] at hx
  omega

/-- A block of the result byte by byte, as the statements on ENCS and DECS spell it. -/
theorem memRead_streamMem_block {n q k : Nat} (hq : q < n) (hk : k < blockLen (wordWidth s)) :
    memRead (streamMem s f n) (mbufBlockAddr s q + k) = some ((f (segmentBlock s q)).getD k 0) := by
  have inside : k < (f (segmentBlock s q)).length := by rwa [hf]
  rw [holdsBytes_streamMem hf hq k inside, List.getD_eq_getElem _ _ inside, List.getElem?_eq_getElem inside]

theorem mbufBlock_streamMem {n q : Nat} (hq : q < n) : mbufBlock s (streamMem s f n) q = f (segmentBlock s q) :=
  (congrArg (bytesAt _ _ _) (hf _).symm).trans ((holdsBytes_streamMem hf hq).bytesAt_eq _)

end

/-! ### What a stream command commits -/

theorem commitStream_outlen {ol : Nat} (h : ol ≤ s.build.mbufBytes) {t : State} :
    (commitStream ol t).outlen.toNat = ol := by
  obtain ⟨_, _, hmax⟩ := mbufBytes_range s.build
  exact toNat_counter (by omega)

/-! ### ENCS (44_stream.md R184) -/

theorem encsBlocks_of_empty (h : segmentLen s = 0) : encsBlocks s = 1 := if_pos h

theorem encsBlocks_of_nonempty (h : segmentLen s ≠ 0) :
    encsBlocks s = (segmentLen s + blockLen (wordWidth s) - 1) / blockLen (wordWidth s) := if_neg h

theorem exec_encs_streamMem (hk : s.kv = true) (hm : segmentLen s ≤ s.build.mbufBytes) :
    exec .encs s = .next (commitStream (encsBlocks s * blockLen (wordWidth s))
      { s with mem := streamMem s (encryptBlock s) (encsBlocks s) }) :=
  exec_encs_ok (streamCheck_eq_success.mpr ⟨hk, hm⟩)

/-- Settles O34: the checks pass, the padded blocks are those of the segment, and each is encrypted in place. -/
theorem encsEncryptsEveryBlock : Obligations.EncsEncryptsEveryBlock := by
  intro s hk hw hm
  have run := exec_encs_streamMem hk hm
  obtain ⟨_, fit, _⟩ := encsBlocks_bounds hw hm
  refine ⟨_, run, completed_completeWith _ _, exec_sameOperands run, ⟨rfl, rfl, rfl, rfl, rfl, rfl⟩, ?_⟩
  rw [commitStream_outlen fit]
  refine ⟨fun h0 => ?_, fun h0 => ?_, fit, fun q k hq hk => ?_, fun x hx => ?_⟩
  · rw [encsBlocks_of_empty h0, Nat.one_mul]
    rfl
  · rw [encsBlocks_of_nonempty h0]
    rfl
  · exact memRead_streamMem_block (encryptBlock_length s) (Nat.lt_of_mul_lt_mul_right hq) hk
  · exact memRead_streamMem_out (encryptBlock_length s) hx

/-! ### DECS (44_stream.md R187) -/

/-- `z`, the bytes DECS takes off its output length, from the buffer as it leaves it (R186). -/
def strippedLen (more : Bool) (s : State) (mem : Memory) : Nat :=
  if s.estrip = true ∧ more = false ∧ decsBlocks s ≥ 1 then trailingZeros (mbufBlock s mem (decsBlocks s - 1)) else 0

theorem decsOutLen_eq (more : Bool) (s : State) (mem : Memory) :
    decsOutLen more s mem = decsBlocks s * blockLen (wordWidth s) - strippedLen more s mem := by
  unfold decsOutLen strippedLen
  split <;> rfl

theorem strippedLen_eq_zero {more : Bool} (h : s.estrip = false ∨ more = true ∨ decsBlocks s = 0) (mem : Memory) :
    strippedLen more s mem = 0 := by
  refine if_neg ?_
  rintro ⟨he, hmore, hn⟩
  simp [he, hmore, Nat.ne_of_gt hn] at h

theorem strippedLen_eq (he : s.estrip = true) (hn : 0 < decsBlocks s) (mem : Memory) :
    strippedLen false s mem = trailingZeros (mbufBlock s mem (decsBlocks s - 1)) := if_pos ⟨he, rfl, hn⟩

theorem strippedLen_le (more : Bool) (s : State) (mem : Memory) :
    strippedLen more s mem ≤ decsBlocks s * blockLen (wordWidth s) := by
  unfold strippedLen
  split
  next h =>
    calc trailingZeros (mbufBlock s mem (decsBlocks s - 1))
        ≤ blockLen (wordWidth s) := (trailingZeros_le _).trans_eq (bytesAt_length ..)
      _ ≤ decsBlocks s * blockLen (wordWidth s) := Nat.le_mul_of_pos_left _ h.2.2
  next => exact Nat.zero_le _

theorem exec_decs_streamMem (hk : s.kv = true) (hm : segmentLen s ≤ s.build.mbufBytes) (more : Bool) :
    exec (.decs more) s = .next (commitStream (decsOutLen more s (streamMem s (decryptBlock s) (decsBlocks s)))
      { s with mem := streamMem s (decryptBlock s) (decsBlocks s) }) :=
  exec_decs_ok (streamCheck_eq_success.mpr ⟨hk, hm⟩)

theorem decsBlocks_eq (s : State) :
    decsBlocks s = if segmentLen s % blockLen (wordWidth s) ≠ 0 ∧ s.build.tailPolicy = .pad
      then segmentLen s / blockLen (wordWidth s) + 1 else segmentLen s / blockLen (wordWidth s) := by
  simp only [decsBlocks, decBlocks, gt_iff_lt, Nat.pos_iff_ne_zero]

/-- The zero bytes counted at the end of a block held as the last of `n` (R186). -/
theorem HoldsBytes.trailingZeros_spec {m : Memory} {n : Nat} {ys : List Byte} (hn : 0 < n)
    (hy : ys.length = blockLen (wordWidth s)) (h : HoldsBytes m (mbufBlockAddr s (n - 1)) ys) :
    trailingZeros ys ≤ blockLen (wordWidth s) ∧
      (∀ k, k < trailingZeros ys → memRead m (mbufBlockAddr s n - 1 - k) = some 0) ∧
      (trailingZeros ys < blockLen (wordWidth s) → memRead m (mbufBlockAddr s n - 1 - trailingZeros ys) ≠ some 0) := by
  have le := trailingZeros_le ys
  have fromEnd : ∀ k, k < ys.length → memRead m (mbufBlockAddr s n - 1 - k) = ys[ys.length - 1 - k]? := by
    intro k hk
    rw [← h _ (by omega)]
    obtain ⟨n, rfl⟩ := Nat.exists_eq_succ_of_ne_zero hn.ne'
    simp only [mbufBlockAddr, Nat.succ_sub_one, Nat.succ_mul]
    congr 1
    omega
  refine ⟨hy ▸ le, fun k hk => ?_, fun hz => ?_⟩
  · rw [fromEnd k (by omega), trailingZeros_zero hk]
  · rw [fromEnd _ (by omega)]
    exact trailingZeros_stop (by omega)

/-- Settles O35: the checks pass, the padded blocks are those of the segment, each is decrypted in place, and what
is stripped are the zero bytes at the end of the last block. -/
theorem decsDecryptsByThePolicy : Obligations.DecsDecryptsByThePolicy := by
  intro s more hk hw hm
  have run := exec_decs_streamMem hk hm more
  have fit := decsBlocks_bounds hw hm
  have zle := strippedLen_le more s (streamMem s (decryptBlock s) (decsBlocks s))
  refine ⟨_, decsBlocks s, strippedLen more s (streamMem s (decryptBlock s) (decsBlocks s)), run,
    completed_completeWith _ _, exec_sameOperands run, ⟨rfl, rfl, rfl, rfl, rfl, rfl⟩, decsBlocks_eq s,
    fun q k hq hk => memRead_streamMem_block (decryptBlock_length s) hq hk,
    fun x hx => memRead_streamMem_out (decryptBlock_length s) hx, ?_,
    fun h => strippedLen_eq_zero h _, fun he hmore hn => ?_⟩
  · rw [decsOutLen_eq, commitStream_outlen ((Nat.sub_le _ _).trans fit)]
    exact Nat.sub_add_cancel zle
  · subst hmore
    have last : decsBlocks s - 1 < decsBlocks s := by omega
    rw [strippedLen_eq he hn, mbufBlock_streamMem (decryptBlock_length s) last]
    exact (holdsBytes_streamMem (decryptBlock_length s) last).trailingZeros_spec hn (decryptBlock_length s _)

/-! ### The round trip (44_stream.md R190) -/

/-- A block held in `MBUF` inside the segment is that block of the segment. -/
theorem HoldsBytes.segmentBlock_eq {q : Nat} {ys : List Byte} (h : HoldsBytes s.mem (mbufBlockAddr s q) ys)
    (hy : ys.length = blockLen (wordWidth s)) (hq : (q + 1) * blockLen (wordWidth s) ≤ segmentLen s) :
    segmentBlock s q = ys := by
  have inside : segmentBlock s q = mbufBlock s s.mem q := by
    refine List.map_congr_left fun k hk => if_pos ?_
    have := List.mem_range.mp hk
    rw [Nat.succ_mul] at hq
    omega
  exact inside.trans ((congrArg (bytesAt _ _ _) hy.symm).trans (h.bytesAt_eq _))

/-- The message `p` stands in `MBUF` as the segment. -/
def HoldsMessage (s : State) (p : List Byte) : Prop :=
  p.length = segmentLen s ∧ ∀ k, k < p.length → memRead s.mem (mbufBase + k) = some (p.getD k 0)

theorem HoldsMessage.segmentBlock_eq {p : List Byte} (h : HoldsMessage s p) (q : Nat) :
    segmentBlock s q =
      (List.range (blockLen (wordWidth s))).map fun k => p.getD (q * blockLen (wordWidth s) + k) 0 := by
  obtain ⟨len, held⟩ := h
  refine List.map_congr_left fun k _ => ?_
  rw [mbufBlockAddr, Nat.add_assoc, ← len]
  split
  next hk => exact byteAt_of_memRead (held _ hk)
  next hk => exact (List.getD_eq_default _ _ (by omega)).symm

/-- A padded block: what is left of the message from there on, and zeros. -/
theorem HoldsMessage.segmentBlock_eq_append {p : List Byte} (h : HoldsMessage s p) {q : Nat}
    (hq : p.length ≤ q * blockLen (wordWidth s) + blockLen (wordWidth s)) :
    segmentBlock s q = p.drop (q * blockLen (wordWidth s)) ++
      List.replicate (blockLen (wordWidth s) - (p.length - q * blockLen (wordWidth s))) 0 := by
  rw [h.segmentBlock_eq]
  apply List.ext_getElem
  · simp only [List.length_map, List.length_range, List.length_append, List.length_drop, List.length_replicate]
    omega
  · intro k _ _
    rw [List.getElem_map, List.getElem_range, List.getElem_append]
    split
    next hk =>
      rw [List.length_drop] at hk
      rw [List.getElem_drop, List.getD_eq_getElem]
    next hk =>
      rw [List.length_drop] at hk
      rw [List.getElem_replicate, List.getD_eq_default _ _ (by omega)]

theorem trailingZeros_append_zeros (xs : List Byte) (n : Nat) :
    trailingZeros (xs ++ List.replicate n 0) = n + trailingZeros xs := by
  simp only [trailingZeros, List.reverse_append, List.reverse_replicate]
  rw [List.takeWhile_append_of_pos (by simp), List.length_append, List.length_replicate]

theorem trailingZeros_eq_zero_iff (xs : List Byte) : trailingZeros xs = 0 ↔ xs.getLast? ≠ some 0 := by
  rw [trailingZeros, List.length_eq_zero_iff, List.getLast?_eq_head?_reverse]
  cases xs.reverse <;> simp

/-- The host has set `MLEN` to the output length of the command. -/
def outputAsSegment (t : State) : State := { t with mlen := t.outlen }

/-- The state in which DECS finds the `n` blocks that ENCS has made of the segment. -/
def encryptedSegment (s : State) (n : Nat) : State :=
  outputAsSegment (commitStream (n * blockLen (wordWidth s)) { s with mem := streamMem s (encryptBlock s) n })

/-- The memory DECS leaves when it decrypts them. -/
def decryptedMem (s : State) (n : Nat) : Memory := streamMem (encryptedSegment s n) (decryptBlock s) n

section
variable {n : Nat} (fit : n * blockLen (wordWidth s) ≤ s.build.mbufBytes)
include fit

theorem segmentLen_encryptedSegment : segmentLen (encryptedSegment s n) = n * blockLen (wordWidth s) :=
  commitStream_outlen fit (t := { s with mem := streamMem s (encryptBlock s) n })

theorem decsBlocks_encryptedSegment (hw : legalWidth (wordWidth s)) : decsBlocks (encryptedSegment s n) = n := by
  have len : segmentLen (encryptedSegment s n) = n * blockLen (wordWidth (encryptedSegment s n)) :=
    segmentLen_encryptedSegment fit
  have pos : 0 < blockLen (wordWidth (encryptedSegment s n)) := by
    obtain h | h | h := blockLen_of_legal (w := wordWidth (encryptedSegment s n)) hw <;> omega
  rw [decsBlocks_eq, len, if_neg (fun h => h.1 (Nat.mul_mod_left ..)), Nat.mul_div_cancel _ pos]

theorem segmentBlock_encryptedSegment {q : Nat} (hq : q < n) :
    segmentBlock (encryptedSegment s n) q = encryptBlock s (segmentBlock s q) :=
  HoldsBytes.segmentBlock_eq (s := encryptedSegment s n) (holdsBytes_streamMem (encryptBlock_length s) hq)
    (encryptBlock_length s _) ((segmentLen_encryptedSegment fit).symm ▸ Nat.mul_le_mul_right _ hq)

/-- DECS decrypts what ENCS has encrypted (43_block_cipher.md R167). -/
theorem holdsBytes_decryptedMem (hw : legalWidth (wordWidth s)) {q : Nat} (hq : q < n) :
    HoldsBytes (decryptedMem s n) (mbufBlockAddr s q) (segmentBlock s q) := by
  have held := holdsBytes_streamMem (s := encryptedSegment s n) (f := decryptBlock s) (decryptBlock_length s) hq
  rw [segmentBlock_encryptedSegment fit hq, decryptBlock_encryptBlock hw (segmentBlock_length s q)] at held
  exact held

theorem memRead_decryptedMem (hw : legalWidth (wordWidth s)) {p : List Byte} (hp : HoldsMessage s p) {x : Nat}
    (hx : x < n * blockLen (wordWidth s)) : memRead (decryptedMem s n) (mbufBase + x) = some (p.getD x 0) := by
  have pos : 0 < blockLen (wordWidth s) := Nat.pos_of_lt_mul_left hx
  have hk : x % blockLen (wordWidth s) < blockLen (wordWidth s) := Nat.mod_lt _ pos
  have hq : x / blockLen (wordWidth s) < n := (Nat.div_lt_iff_lt_mul pos).mpr hx
  have held := holdsBytes_decryptedMem fit hw hq (x % blockLen (wordWidth s)) (by rwa [segmentBlock_length])
  rw [mbufBlockAddr, Nat.add_assoc, Nat.div_add_mod', hp.segmentBlock_eq] at held
  rw [held]
  simp [hk, Nat.div_add_mod']

theorem exec_decs_encryptedSegment (hk : s.kv = true) (hw : legalWidth (wordWidth s)) :
    exec (.decs false) (encryptedSegment s n) =
      .next (commitStream (decsOutLen false (encryptedSegment s n) (decryptedMem s n))
        { encryptedSegment s n with mem := decryptedMem s n }) := by
  have run := exec_decs_streamMem (s := encryptedSegment s n) hk ((segmentLen_encryptedSegment fit).trans_le fit) false
  rw [decsBlocks_encryptedSegment fit hw] at run
  exact run

/-- The output length of DECS on `n` encrypted blocks, by what it strips (R186). -/
theorem decsOutLen_encryptedSegment (hw : legalWidth (wordWidth s)) (hn : 0 < n) :
    decsOutLen false (encryptedSegment s n) (decryptedMem s n) =
      n * blockLen (wordWidth s) - if s.estrip then trailingZeros (segmentBlock s (n - 1)) else 0 := by
  have blocks : decsBlocks (encryptedSegment s n) = n := decsBlocks_encryptedSegment fit hw
  have last : mbufBlock (encryptedSegment s n) (decryptedMem s n) (n - 1) = segmentBlock s (n - 1) :=
    (congrArg (bytesAt _ _ _) (segmentBlock_length s _).symm).trans
      ((holdsBytes_decryptedMem fit hw (Nat.sub_lt hn Nat.one_pos)).bytesAt_eq _)
  have stripped : strippedLen false (encryptedSegment s n) (decryptedMem s n) =
      if s.estrip then trailingZeros (segmentBlock s (n - 1)) else 0 := by
    split
    next he => rw [strippedLen_eq (s := encryptedSegment s n) he (blocks.symm ▸ hn), blocks, last]
    next he => exact strippedLen_eq_zero (s := encryptedSegment s n) (.inl (eq_false_of_ne_true he)) _
  rw [decsOutLen_eq, blocks, stripped]
  rfl

end

/-- The last block of ENCS begins inside the segment, or the segment is empty (R182). -/
theorem encsBlocks_last (hw : legalWidth (wordWidth s)) {n : Nat} (hn : encsBlocks s = n + 1) :
    n * blockLen (wordWidth s) < segmentLen s ∨ (segmentLen s = 0 ∧ n = 0) := by
  by_cases h0 : segmentLen s = 0
  · rw [encsBlocks_of_empty h0] at hn
    exact .inr ⟨h0, by omega⟩
  · rw [encsBlocks_of_nonempty h0] at hn
    left
    obtain h | h | h := blockLen_of_legal hw <;> rw [h] at hn ⊢ <;> omega

/-- Stripping the last block of the padded message takes off the padding alone exactly when the message does not end
in a zero byte. -/
theorem HoldsMessage.stripped_iff {p : List Byte} (h : HoldsMessage s p) (hw : legalWidth (wordWidth s))
    (hm : segmentLen s ≤ s.build.mbufBytes) :
    encsBlocks s * blockLen (wordWidth s) - trailingZeros (segmentBlock s (encsBlocks s - 1)) = segmentLen s ↔
      p.getLast? ≠ some 0 := by
  obtain ⟨covers, _, pos⟩ := encsBlocks_bounds hw hm
  obtain ⟨n, hn⟩ := Nat.exists_eq_add_of_le' pos
  have begins := encsBlocks_last hw hn
  have zle := trailingZeros_le (segmentBlock s n)
  have len := h.1
  rw [hn, Nat.succ_mul] at covers
  have left : (p.drop (n * blockLen (wordWidth s))).getLast? = p.getLast? := by
    rw [List.getLast?_drop]
    split
    next hp =>
      have : p = [] := List.eq_nil_of_length_eq_zero (by omega)
      rw [this, List.getLast?_nil]
    next => rfl
  rw [segmentBlock_length, h.segmentBlock_eq_append (by omega), trailingZeros_append_zeros] at zle
  rw [hn, Nat.succ_sub_one, Nat.succ_mul, h.segmentBlock_eq_append (by omega), trailingZeros_append_zeros, ← left,
    ← trailingZeros_eq_zero_iff]
  have inside : n * blockLen (wordWidth s) ≤ segmentLen s := by
    obtain hb | ⟨h0, rfl⟩ := begins <;> omega
  omega

/-- Settles O36: DECS finds the blocks that ENCS made, decryption undoes encryption block by block, and what is
stripped is the padding and the zero bytes that end the message. -/
theorem streamCommandsRoundTrip : Obligations.StreamCommandsRoundTrip := by
  intro s t p hk hw hm hlen hbytes hrun
  have hp : HoldsMessage s p := ⟨hlen, hbytes⟩
  obtain ⟨covers, fit, pos⟩ := encsBlocks_bounds hw hm
  cases (exec_encs_streamMem hk hm).symm.trans hrun
  have outlen := decsOutLen_encryptedSegment fit hw pos
  refine ⟨_, exec_decs_encryptedSegment fit hk hw, rfl, fun k hk => ?_, fun k hlow hhigh => ?_, fun he => ?_,
    fun he => ?_⟩
  · exact memRead_decryptedMem fit hw hp (hk.trans_le (hlen.trans_le covers))
  · rw [commitStream_outlen fit] at hhigh
    exact (memRead_decryptedMem fit hw hp hhigh).trans (congrArg some (List.getD_eq_default _ _ hlow))
  · rw [outlen, if_neg (by simp [he])]
    rfl
  · have strip := hp.stripped_iff hw hm
    rw [outlen, if_pos he, ← BitVec.toNat_inj, commitStream_outlen ((Nat.sub_le _ _).trans fit)]
    refine strip.trans ⟨.inr, ?_⟩
    rintro (rfl | h)
    · simp
    · exact h

end Sys2Proof.Machine
end

section
/-! SUPPORT. When a command fails, when the engine stops and what raises `DONE`, said once; the statements on errors, on
the interrupt and on the idle engine (60_exceptions.md R200 to R221). -/

namespace Sys2Proof.Machine

variable {s t : State}

/-! ### The error of a command (60_exceptions.md R202) -/

/-- The error that the checks of a command give, `success` when they pass. -/
def commandCheck : Instr → State → ErrorCode
  | .nop, _ => .success
  | .keysetup, s =>
    match keysetupParams s with
    | .error e => e
    | .ok _ => .success
  | .encb, s => blockCheck s
  | .decb, s => blockCheck s
  | .encs, s => streamCheck s
  | .decs _, s => streamCheck s

/-- A command whose checks fail only completes with their code (40_command_control.md R103). -/
theorem exec_of_commandCheck {i : Instr} (h : commandCheck i s ≠ .success) :
    exec i s = .next (completeWith (commandCheck i s) s) := by
  cases i with
  | nop => exact absurd rfl h
  | keysetup =>
    simp only [commandCheck] at h ⊢
    cases hk : keysetupParams s with
    | error e => exact exec_keysetup_error hk
    | ok p => rw [hk] at h; exact absurd rfl h
  | encb => exact exec_encb_error rfl h
  | decb => exact exec_decb_error rfl h
  | encs => exact exec_encs_error rfl h
  | decs more => exact exec_decs_error rfl h

/-- A command whose checks pass ends without an error. -/
theorem exec_err_of_commandCheck_success {i : Instr} (hc : commandCheck i s = .success)
    (h : exec i s = .next t) : t.err = .success := by
  cases i with
  | nop => cases h; rfl
  | keysetup =>
    simp only [commandCheck] at hc
    cases hk : keysetupParams s with
    | error e => rw [hk] at hc; rw [exec_keysetup_error hk] at h; cases h; exact hc
    | ok p => rw [exec_keysetup_ok hk] at h; cases h; rfl
  | encb => rw [exec_encb_ok hc] at h; cases h; rfl
  | decb => rw [exec_decb_ok hc] at h; cases h; rfl
  | encs => rw [exec_encs_ok hc] at h; cases h; rfl
  | decs more => rw [exec_decs_ok hc] at h; cases h; rfl

/-- A command ends with the error that its checks give, whether they pass or fail. -/
theorem exec_err {i : Instr} (h : exec i s = .next t) : t.err = commandCheck i s := by
  by_cases hc : commandCheck i s = .success
  · exact (exec_err_of_commandCheck_success hc h).trans hc.symm
  · rw [exec_of_commandCheck hc] at h; cases h; rfl

/-- What the checks read is the same in both: operand registers, `KV`, `EW` and the build. -/
structure SameChecked (s t : State) : Prop where
  wordbits : t.wordbits = s.wordbits
  rounds   : t.rounds = s.rounds
  keylen   : t.keylen = s.keylen
  dlen     : t.dlen = s.dlen
  mlen     : t.mlen = s.mlen
  kv       : t.kv = s.kv
  ew       : t.ew = s.ew
  build    : t.build = s.build

theorem OnlyStatusChanged.sameChecked (h : OnlyStatusChanged s t) : SameChecked s t where
  wordbits := h.operands.wordbits
  rounds   := h.operands.rounds
  keylen   := h.operands.keylen
  dlen     := h.operands.dlen
  mlen     := h.operands.mlen
  kv       := h.schedule.kv
  ew       := h.schedule.ew
  build    := h.operands.build

theorem SameChecked.commandCheck_eq (h : SameChecked s t) (i : Instr) : commandCheck i t = commandCheck i s := by
  have block : blockCheck t = blockCheck s := by rw [blockCheck, blockCheck, wordWidth, wordWidth, h.kv, h.dlen, h.ew]
  have stream : streamCheck t = streamCheck s := by
    rw [streamCheck, streamCheck, segmentLen, segmentLen, h.kv, h.mlen, h.build]
  cases i with
  | nop => rfl
  | keysetup => simp only [commandCheck, keysetupParams_congr h.wordbits h.rounds h.keylen]
  | encb => exact block
  | decb => exact block
  | encs => exact stream
  | decs more => exact stream

/-- A command ends with the same error from every state with the same operands. -/
theorem exec_err_congr {s' : State} {i : Instr} (hs : SameChecked s s') (h : exec i s = .next t) :
    ∃ u, exec i s' = .next u ∧ u.err = t.err := by
  obtain ⟨u, hu⟩ := exec_next i s'
  exact ⟨u, hu, by rw [exec_err hu, exec_err h, hs.commandCheck_eq]⟩

/-- Settles O14: the error is that of the checks, which read the operands alone; a failed command leaves these. -/
theorem failedCommandFailsAgain : Obligations.FailedCommandFailsAgain := by
  intro s t i h herr
  have only : OnlyStatusChanged s t := by
    rw [exec_err h] at herr
    rw [exec_of_commandCheck herr] at h
    cases h
    exact onlyStatusChanged_completeWith _ s
  exact ⟨only, exec_err_congr only.sameChecked h,
    fun _ hwordbits hrounds hkeylen hdlen hmlen hkv hew hbuild =>
      exec_err_congr ⟨hwordbits, hrounds, hkeylen, hdlen, hmlen, hkv, hew, hbuild⟩ h⟩

/-! ### What stops a step (60_exceptions.md R210, R211) -/

/-- No move of the engine stops. -/
theorem engineRun_next (s : State) : ∃ t, engineRun s = .next t := by
  obtain ⟨_, h⟩ | ⟨_, _, _, h⟩ | ⟨_, _, i, _, h⟩ | ⟨_, _, h⟩ := engineRun_cases s
  · exact ⟨_, h⟩
  · exact ⟨_, h⟩
  · obtain ⟨t, ht⟩ := exec_next i s
    exact ⟨t, h.trans ht⟩
  · exact ⟨_, h⟩

/-- Settles O48: of the moves a step can be only a transfer faults, and only by its bus error cause. -/
theorem onlyBusErrorsStop : Obligations.OnlyBusErrorsStop := by
  intro s
  obtain ⟨_, he⟩ | ⟨e, es, hin, he⟩ := step_cases s <;> rw [he]
  · exact .inl (engineRun_next s)
  · cases e with
    | engineRun => exact .inl (engineRun_next _)
    | enginePiece => exact .inl ⟨_, rfl⟩
    | reset => exact .inl ⟨_, rfl⟩
    | hostTransfer tr =>
      obtain ⟨c, hc, ht⟩ | ⟨_, _, ht⟩ | ⟨_, _, ht⟩ := hostTransfer_cases tr (dropEvent s es)
      · exact .inr ⟨tr, es, c, hin, hc, ht⟩
      · exact .inl ⟨_, ht⟩
      · exact .inl ⟨_, ht⟩

/-! ### The idle engine (60_exceptions.md R221) -/

theorem engineRun_idle (hp : s.ph = .idle) : engineRun s = .next s := if_pos hp

/-- Settles O59: a whole move and a piece both leave an idle engine alone. -/
theorem idleEngineDoesNothing : Obligations.IdleEngineDoesNothing := by
  refine fun s hp => ⟨fun hin => ?_, fun e es hin he => ?_⟩
  · rw [step_nil s hin, engineRun_idle hp]
  · rw [step_cons s hin]
    obtain rfl | rfl := he
    · exact engineRun_idle (s := dropEvent s es) hp
    · exact congrArg _ (enginePiece_idle (s := dropEvent s es) hp)

/-! ### What raises `DONE` (60_exceptions.md R207, R208) -/

/-- A completion leaves `irq` = `IE`. -/
theorem irq_of_completed {e : ErrorCode} (hc : Completed e t) (hs : SameOperands s t) : irq t = s.ie := by
  simp [irq, hc.done, hs.ie]

/-- From `s` to `t` the command under way has completed, and `irq` shows it when enabled. -/
def CommandCompletes (s t : State) : Prop := s.ph ≠ .idle ∧ t.ph = .idle ∧ t.busy = false ∧ irq t = s.ie

theorem commandCompletes_of_completed {e : ErrorCode} (hp : s.ph ≠ .idle) (hc : Completed e t)
    (hs : SameOperands s t) : CommandCompletes s t := ⟨hp, hc.ph, hc.busy, irq_of_completed hc hs⟩

/-- A piece that is not the completion leaves `DONE` as it was. -/
theorem enginePiece_done_or_completed (s : State) :
    (enginePiece s).done = s.done ∨ Completed (enginePiece s).err (enginePiece s) := by
  obtain h | ⟨_, h⟩ | ⟨_, h⟩ | ⟨_, h⟩ | ⟨_, h⟩ := enginePiece_cases s
  · obtain ⟨_, _, _, _, hdone⟩ := h.results
    exact .inl hdone
  all_goals exact .inr (h ▸ completed_completeWith _ _)

theorem enginePiece_raises_done (hs : s.done = false) (ht : (enginePiece s).done = true) :
    CommandCompletes s (enginePiece s) := by
  have raised : (enginePiece s).done ≠ s.done := by rw [hs, ht]; exact Bool.noConfusion
  have hp : s.ph ≠ .idle := fun hp => raised (by rw [enginePiece_idle hp])
  exact commandCompletes_of_completed hp ((enginePiece_done_or_completed s).resolve_left raised)
    (enginePiece_sameOperands s)

theorem engineRun_raises_done (h : engineRun s = .next t) (hs : s.done = false) (ht : t.done = true) :
    CommandCompletes s t := by
  obtain ⟨_, he⟩ | ⟨hp, _, _, he⟩ | ⟨hp, _, i, _, he⟩ | ⟨_, _, he⟩ := engineRun_cases s <;> rw [he] at h
  · cases h; exact absurd ht (ne_true_of_eq_false hs)
  · cases h
    exact commandCompletes_of_completed hp (completed_completeWith _ s) (sameOperands_completeWith _ s)
  · exact commandCompletes_of_completed hp (exec_completed h) (exec_sameOperands h)
  · cases h; exact enginePiece_raises_done hs ht

/-- A register's write clears `DONE` or leaves it. -/
theorem regWrite_done {r : RegName} {v : Reg} (h : (regWrite s r v).done = true) : s.done = true := by
  cases r
  case status => exact (Bool.and_eq_true_iff.mp h).1
  case id | caps | ctrl | outlen | eparam => exact h
  case cmd =>
    rw [regWrite] at h
    split at h
    · exact h
    · cases h
  case wordbits | rounds | keylen | strip | dlen | mlen =>
    rw [regWrite] at h
    split at h <;> exact h

theorem hostWrite_done {x n : Nat} {v : Reg} (h : (hostWrite s x n v).done = true) : s.done = true := by
  unfold hostWrite at h
  split at h
  · split at h
    · exact regWrite_done h
    · exact h
  · exact h
  · split at h <;> exact h

/-- No transfer raises `DONE`. -/
theorem hostTransfer_done {tr : Transfer} (h : hostTransfer tr s = .next t) (ht : t.done = true) : s.done = true := by
  obtain ⟨_, _, he⟩ | ⟨_, _, he⟩ | ⟨_, _, he⟩ := hostTransfer_cases tr s <;> rw [he] at h <;> cases h
  · exact hostWrite_done ht
  · exact ht

/-- A step that raises `DONE` completes a command. -/
theorem step_raises_done (h : step s = .next t) (hs : s.done = false) (ht : t.done = true) :
    CommandCompletes s t := by
  obtain ⟨_, he⟩ | ⟨e, es, _, he⟩ := step_cases s <;> rw [he] at h
  · exact engineRun_raises_done h hs ht
  · cases e with
    | hostTransfer tr =>
      exact absurd (hostTransfer_done (s := dropEvent s es) h ht) (ne_true_of_eq_false hs)
    | engineRun => exact engineRun_raises_done (s := dropEvent s es) h hs ht
    | enginePiece => cases h; exact enginePiece_raises_done (s := dropEvent s es) hs ht
    | reset => cases h; exact absurd ht Bool.noConfusion

/-- With `DONE` = 0 there is no interrupt. -/
theorem irq_of_not_done (h : t.done = false) : irq t = false := by simp [irq, h]

/-- Settles O55: `irq` as the view it is, only a completion raises `DONE`, and each write or reset that clears or masks
it is one step. -/
theorem interruptIsEnableAndDone : Obligations.InterruptIsEnableAndDone := by
  refine ⟨fun s => ⟨Bool.and_eq_true_iff, getLsbD_statusWord s 1⟩, fun _ _ h => step_raises_done h,
    fun _ _ _ h => irq_of_completed (exec_completed h) (exec_sameOperands h), ?status, ?ctrl, ?cmd, ?reset⟩
  case status =>
    intro s v es hin hv
    have cleared : (regWrite (dropEvent s es) .status v).done = false := by simp [regWrite, hv]
    exact ⟨_, step_w32_register rfl hin rfl, cleared, irq_of_not_done cleared⟩
  case ctrl => exact fun s v es hin => ⟨_, step_w32_register rfl hin rfl, rfl, rfl⟩
  case cmd =>
    intro s v es hin hb
    have accepted : regWrite (dropEvent s es) .cmd v = accept v (dropEvent s es) := by simp [regWrite, hb]
    exact ⟨_, step_w32_register rfl hin accepted, rfl, irq_of_not_done rfl⟩
  case reset => exact fun s es hin => ⟨_, step_cons s hin, rfl, rfl⟩

end Sys2Proof.Machine
end

section
/-! SUPPORT. What a reset edge leaves of the state before it; the statement on resets (70_reset_and_hazards.md R230,
R231). -/

namespace Sys2Proof.Machine

variable {s : State}

/-- A reset that is pending is the whole next step, whatever command is under way. -/
theorem step_reset {es : List Event} (hin : s.inputs = .reset :: es) :
    step s = .next (resetEdge (dropEvent s es)) :=
  step_cons s hin

/-- No byte of `MBUF` is specified after reset. -/
theorem memRead_reset_mbuf {x : Nat} (hx : 0x1000 ≤ x) : memRead State.reset.mem x = none := by
  obtain ⟨_, _, _, _, mbuf, _⟩ := resetHoldsTheSpecsValues
  exact mbuf x hx

/-- Settles O56: the step is the reset edge, whose state is that of reset but for the fields R48 does not speak of. -/
theorem resetEdgeClearsTheBlock : Obligations.ResetEdgeClearsTheBlock := by
  intro s es hin
  refine ⟨_, step_reset hin, ?state, rfl, rfl, rfl, irq_of_not_done rfl, ?mbuf⟩
  case state => rfl
  case mbuf => exact fun x hx => memRead_reset_mbuf hx

end Sys2Proof.Machine
end
